-- ==== Sys2Proof/Word.lean ====
section
/-!
DEFINITION. The value types of the block: the 32-bit command word and integer cell, the real values a
delay operand may take, and the scalars a sample, coefficient or buffer cell may hold
(spec/00_scope.md R7 to R10).
-/

namespace Sys2Proof

/-- A 32-bit word: a command word (R70), `IARG` and every `PI` cell (R10, R21, R27), and `FSTAT` (R26). -/
abbrev Word := BitVec 32

/-- A value of the real type `R` (R7): a finite real number, or one of the values that a real
floating-point type has beside them (R151 corner case 3, R152). A finite floating-point value is a
rational number; `nan` keeps an image, because no canonical NaN may be assumed (spec/91 N7). The
exact instance `R = ℚ` (R9) holds `num` only. PRESUMED (notes/assumptions/4.md). -/
inductive RVal where
  | num (q : Rat)
  | negZero
  | posInf
  | negInf
  | nan (image : Nat)
deriving DecidableEq, Repr, Inhabited

/-- A value of the scalar type `S` (R7, R8): a real and an imaginary part, each of `R`. A value of a real
`S` is the real `re`, with `im` the zero of `R`, so that `R = S` there (R7); which of them an instance has
is `Machine.hasScalar`. PRESUMED (notes/assumptions/4.md). -/
structure Scalar where
  re : RVal
  im : RVal
deriving DecidableEq, Repr, Inhabited

/-- The real `r` as a value of `S`: itself where `S` is real, `r + 0j` where it is complex (R15). -/
abbrev Scalar.real (r : RVal) : Scalar := ⟨r, .num 0⟩

/-- The rational `q` as a value of `R`. -/
abbrev RVal.ofRat (q : Rat) : RVal := .num q

/-- The rational `q` as a value of `S`. -/
abbrev Scalar.ofRat (q : Rat) : Scalar := .real (.num q)

/-- `0` of `R`. -/
abbrev RVal.zero : RVal := .num 0

/-- `0` of `S`. -/
abbrev Scalar.zero : Scalar := .real (.num 0)

end Sys2Proof
end

