-- ==== Sys2Proof/Config.lean ====
section
/-!
DEFINITION. The parameters the model takes (spec/00_scope.md R7, R41): the sizes and the choice of
arithmetic, as plain data, and the numeric functions that the spec leaves open, as constants without
a body.
-/

namespace Sys2Proof

/-- The scalar instance (R7, R8, R9): the exact rational arithmetic `S = R = ℚ`; an unspecified real type
`S = R`, or a complex `S` over an unspecified real type `R` (single or double precision), of whose
operations nothing is assumed but that they are functions. -/
inductive Arith where
  | exact
  | real
  | complex
deriving DecidableEq, Repr, Inhabited

/-- The implementation parameters of R7 that are plain data. They are arguments of the model, not
state of the block (R41); `State` carries one constant copy so that a statement about every state is
a statement about every instance (notes/assumptions/1.md). `XLEN` is fixed at 32 and `REGMAP` is read
by no rule. -/
structure Params where
  /-- the arithmetic of `S` and `R` -/
  arith : Arith
  /-- `NSLOTS`, number of unit slots -/
  nslots : Nat
  /-- `NPI`, cells of the integer staging memory -/
  npi : Nat
  /-- `NPS`, cells of the scalar staging memory -/
  nps : Nat
  /-- `CAPMAX`, largest number of buffer cells one unit may own -/
  capmax : Nat
deriving DecidableEq, Repr

/-- The constraint column of R7. -/
abbrev Params.Ok (p : Params) : Prop :=
  (1 ≤ p.nslots ∧ p.nslots ≤ 256) ∧ (2 ≤ p.npi ∧ p.npi ≤ 65536) ∧
  (5 ≤ p.nps ∧ p.nps ≤ 65536) ∧ (1 ≤ p.capmax ∧ p.capmax ≤ 2 ^ 32 - 1)

/-- The test instance of spec/95_test_vectors.md: `S = R = ℚ`, `NSLOTS = 8`, `NPI = NPS = 16`,
`CAPMAX = 4096`. DESIGN CHOICE as the instance `State.reset` carries (notes/assumptions/1.md). -/
def Config.testInstance : Params :=
  { arith := .exact, nslots := 8, npi := 16, nps := 16, capmax := 4096 }

/-- `+` of an unspecified `R`, which is `S` where `S` is real (R7, R14: rounded on its own). A free value: no
body. -/
opaque Config.realAdd : RVal → RVal → RVal

/-- Binary `−` of an unspecified `R`, which is `S` where `S` is real; also of `frac = d − d_lo` (R151). A free
value: no body. -/
opaque Config.realSub : RVal → RVal → RVal

/-- `·` of an unspecified `R`, which is `S` where `S` is real. A free value: no body. -/
opaque Config.realMul : RVal → RVal → RVal

/-- Unary `−` of an unspecified `R`, which is `S` where `S` is real. A free value: no body. -/
opaque Config.realNeg : RVal → RVal

/-- `+` of a complex `S` (R7, R14: rounded on its own). A free value: no body. -/
opaque Config.scalarAdd : Scalar → Scalar → Scalar

/-- Binary `−` of a complex `S`. A free value: no body. -/
opaque Config.scalarSub : Scalar → Scalar → Scalar

/-- `·` of a complex `S`. A free value: no body. -/
opaque Config.scalarMul : Scalar → Scalar → Scalar

/-- Unary `−` of a complex `S`. A free value: no body. -/
opaque Config.scalarNeg : Scalar → Scalar

/-- Element `k` of `DFTCONV(N, h, in)` over an unspecified real `S` (R167; the convolvers are specified for a
real `S` only, R8): a function of the transform length, the filter and the `N` input cells, of which
nothing else is assumed. A free value: no body. -/
opaque Config.dftconv : Nat → List RVal → List RVal → Nat → RVal

end Sys2Proof
end

