-- ==== Sys2Proof/Machine/State.lean ====
section
/-!
DEFINITION. The state of the block as plain data (spec/10_state.md): the host registers, `FSTAT`, the
two staging memories, the slots with the unit each holds, and, as the model's own fields, the
parameters of the instance, the host's action list with its index `cp` (R20) and what the host has
read. The reset state is R40.
-/

namespace Sys2Proof.Machine

/-- A memory of whole cells (R50): (cell number, value) pairs in one canonical form, numbers strictly
rising and no listed value equal to what an unlisted cell reads as, which is zero (R40 for `PI` and
`PS`, "created zero-initialized" for the unit buffers, R30 to R37). The operations are in
Machine/Memory.lean. -/
abbrev Memory (α : Type) := List (Nat × α)

/-- TDL unit state (R30): `delays` is `M[1..K]` (entry `i` is `M[i+1]`), `coeffs` is `b[0..K]`. -/
structure Tdl where
  k : Nat
  delays : List Nat
  coeffs : List Scalar
  cap : Nat
  buf : Memory Scalar
  w : Nat
deriving DecidableEq, Repr

/-- The type tag of a first-order filter (R31, spec/92 D28), stored and never read by the block; `noType` is
the spec's NONE. -/
inductive FofType where
  | noType
  | lowpass
  | highpass
  | lowshelf
  | highshelf
deriving DecidableEq, Repr

/-- FOF unit state (R31). -/
structure Fof where
  dry : Scalar
  wet : Scalar
  a0 : Scalar
  a1 : Scalar
  b1 : Scalar
  type : FofType
  xPrev : Scalar
  yPrev : Scalar
deriving DecidableEq, Repr

/-- OPL unit state (R32). -/
structure Opl where
  alpha : Scalar
  beta : Scalar
  lp : Scalar
deriving DecidableEq, Repr

/-- FFC unit state (R33); one write index serves both buffers. -/
structure Ffc where
  b0 : Scalar
  b1 : Scalar
  a : Scalar
  m : Nat
  bufIn : Memory Scalar
  bufOut : Memory Scalar
  w : Nat
deriving DecidableEq, Repr

/-- FBC unit state (R34); `alpha`, `beta`, `lp` are the embedded one-pole's. -/
structure Fbc where
  alpha : Scalar
  beta : Scalar
  m : Nat
  lp : Scalar
  bufOut : Memory Scalar
  w : Nat
deriving DecidableEq, Repr

/-- TVD unit state (R35). -/
structure Tvd where
  a : Scalar
  b : Scalar
  maxDelay : Nat
  buf : Memory Scalar
  w : Nat
deriving DecidableEq, Repr

/-- DFC unit state (R36); `input` and `output` are the buffers `in` and `out`. The filter `h` stands for
its spectrum and the complex scratch buffer is no state (R38). -/
structure Dfc where
  inputSize : Nat
  filterSize : Nat
  outputSize : Nat
  fftSize : Nat
  h : List Scalar
  input : Memory Scalar
  output : Memory Scalar
deriving DecidableEq, Repr

/-- OLA unit state (R37) with its embedded convolver. -/
structure Ola where
  windowSize : Nat
  filterSize : Nat
  numTransients : Nat
  outputSize : Nat
  dfc : Dfc
  ring : Memory Scalar
  writeIdx : Nat
  inputIdx : Nat
  outputIdx : Nat
deriving DecidableEq, Repr

/-- One configured unit (R2, R29). -/
inductive FilterUnit where
  | tdl (u : Tdl)
  | fof (u : Fof)
  | opl (u : Opl)
  | ffc (u : Ffc)
  | fbc (u : Fbc)
  | tvd (u : Tvd)
  | dfc (u : Dfc)
  | ola (u : Ola)
deriving DecidableEq, Repr

/-- The kinds of R2; codes 9 to 15 of the 4-bit field never occur (R29). -/
inductive Kind where
  | none | tdl | fof | opl | ffc | fbc | tvd | dfc | ola
deriving DecidableEq, Repr

/-- One host action (R75): a register write, a command word written to `CMD` (R25), a read, or the read-back
of an operand register, which R42 allows. -/
inductive HostAction where
  | setIarg (v : Word)
  | setXin (v : Scalar)
  | setDin (v : RVal)
  | command (w : Word)
  | getYout
  | getFstat
  | getIarg
  | getXin
  | getDin
deriving DecidableEq, Repr

/-- What a read-back of an operand register gave the host (R42). -/
inductive OperandRead where
  | iarg (v : Word)
  | xin (v : Scalar)
  | din (v : RVal)
deriving DecidableEq, Repr

/-- The whole state. `slots` lists the occupied slots by number; a slot not listed is empty, kind NONE
(R29). `params`, `program`, `cp`, `outputs`, `statusReads` and `operandReads` are the model's own fields:
the arguments of R7 and R41, the host's finite action list and its index (R20, R75), and what the host
has read of `YOUT`, of `FSTAT` (R75) and of the operand registers (R42), each in order. -/
structure State where
  params : Params
  iarg : Word
  xin : Scalar
  din : RVal
  yout : Scalar
  fstat : Word
  pi : Memory Word
  ps : Memory Scalar
  slots : Memory (Option FilterUnit)
  program : List HostAction
  cp : Nat
  outputs : List Scalar
  statusReads : List Word
  operandReads : List OperandRead
deriving DecidableEq, Repr

/-- The failed runs of the host procedures that drive the block, each with the standing of a FAULTED block
(R219). No command raises one: a command's own faults are latched in `FSTAT` and the machine goes on in
the FAULTED state (R213, R214). -/
inductive Fault where
  /-- raised by every host procedure that would read `YOUT` of a FAULTED block, or end on one: a run that ends
  FAULTED is a failed run (R214); safe -/
  | blockFaulted
  /-- raised by `mimoProcess` when one source ends before another on the same step (R196, R219); safe -/
  | streamLengthMismatch
  /-- raised by `writeNext`, and so by `processTo` and `mimoProcess`, past a bounded sink (R191, R219); safe -/
  | sinkOverflow
  /-- raised before the first command where a graph has an empty `Series`, where a summation vector or matrix does
  not match the children (R193 to R195, R210), and where the sources or sinks do not match the channels (R196); safe -/
  | hostConfiguration
deriving DecidableEq, Repr

/-- Cases to which the spec gives no meaning. One concerns commands of the block, `needsRealScalar`; the others
are of the host procedures. -/
inductive Refusal where
  /-- an instruction of the opcode table without a meaning; no arm of `exec` answers it; safe -/
  | notModelled (mnemonic : String)
  /-- a command that builds or works on an FOF, OPL, DFC or OLA unit in an instance whose `S` is complex: these
  kinds are specified for real `S` only (R8), and nothing may be assumed of them over a complex one
  (spec/91 N22); safe -/
  | needsRealScalar
  /-- `mimoAdvance` of a filter with `M ≠ N` (spec/93 U10, treatment `refuse`); safe -/
  | mimoNotSquare
  /-- a graph, or the filters of a MIMO filter, that name one slot twice (R199, R251; spec/93 U17, the host-level
  result is `refuse`); safe -/
  | aliasedUnit
  /-- `freeverbSetup` with a `stereo_spread` that makes a delay negative, which cannot be staged
  (spec/93 U25, treatment `refuse`); safe -/
  | negativeDelay
  /-- `freeverbSetup` with a `stereo_spread` that makes a delay of 2^32 or more, which no cell of `PI` holds
  (R10) and no `CAPMAX` admits (R7); safe -/
  | delayTooLarge
  /-- `processTvd` when the host's delay source has run dry: the spec defines no `d` (R154, spec/91
  N14); safe -/
  | noDelayValue
deriving DecidableEq, Repr

/-- The block after reset (R40, R240) with the given instance parameters and host action list. -/
def State.resetWith (p : Params) (program : List HostAction) : State :=
  { params := p
    iarg := 0
    xin := Scalar.zero
    din := RVal.zero
    yout := Scalar.zero
    fstat := 0
    pi := []
    ps := []
    slots := []
    program := program
    cp := 0
    outputs := []
    statusReads := []
    operandReads := [] }

/-- The machine right after reset (R40): the test instance's parameters (notes/assumptions/1.md) and no
host action listed (notes/assumptions/2.md). -/
def State.reset : State := State.resetWith Config.testInstance []

end Sys2Proof.Machine
end

