-- ==== Sys2Proof/Machine/Arith.lean ====
section
/-!
DEFINITION. The arithmetic of `S` and `R` that the rules use (spec/00_scope.md R7, R9, R12 to R15, R165,
R167): exact over the rationals in an exact instance, the free functions of Config otherwise; and which
values an instance has.
-/

namespace Sys2Proof.Machine

/-- The values that the instance's `R` has (R7): the rationals alone in the exact instance (R9). -/
def hasReal : Arith → RVal → Bool
  | .exact, .num _ => true
  | .exact, _ => false
  | .real, _ => true
  | .complex, _ => true

/-- The values that the instance's `S` has: those of `R` where `S` is real (R7, "`R = S` when `S` is real"),
pairs of them where it is complex. -/
def hasScalar (ar : Arith) (v : Scalar) : Bool :=
  match ar with
  | .complex => true
  | _ => hasReal ar v.re && decide (v.im = RVal.zero)

/-- A binary operation of `R`: `f` on the rationals of an exact instance, the free `g` otherwise (DESIGN
CHOICE, notes/assumptions/6.md and 7.md). -/
def realOp (ar : Arith) (f : Rat → Rat → Rat) (g : RVal → RVal → RVal) (a b : RVal) : RVal :=
  match ar, a, b with
  | .exact, .num x, .num y => .num (f x y)
  | _, _, _ => g a b

/-- A binary operation of `S`: that of `R` where `S` is real (R7), the free `h` where it is complex. -/
def scalarOp (ar : Arith) (f : Rat → Rat → Rat) (g : RVal → RVal → RVal) (h : Scalar → Scalar → Scalar)
    (a b : Scalar) : Scalar :=
  match ar with
  | .complex => h a b
  | _ => .real (realOp ar f g a.re b.re)

/-- `a + b` of `S` (R7). -/
def sadd (ar : Arith) (a b : Scalar) : Scalar := scalarOp ar (· + ·) Config.realAdd Config.scalarAdd a b

/-- `a − b` of `S` (R7). -/
def ssub (ar : Arith) (a b : Scalar) : Scalar := scalarOp ar (· - ·) Config.realSub Config.scalarSub a b

/-- `a · b` of `S` (R7). -/
def smul (ar : Arith) (a b : Scalar) : Scalar := scalarOp ar (· * ·) Config.realMul Config.scalarMul a b

/-- `−a` of `R`. -/
def rneg (ar : Arith) (a : RVal) : RVal :=
  match ar, a with
  | .exact, .num x => .num (-x)
  | _, _ => Config.realNeg a

/-- `−a` of `S` (R7). No rule of a command uses it. -/
def sneg (ar : Arith) (a : Scalar) : Scalar :=
  match ar with
  | .complex => Config.scalarNeg a
  | _ => .real (rneg ar a.re)

/-- `a − b` of `R`. -/
def rsub (ar : Arith) (a b : RVal) : RVal := realOp ar (· - ·) Config.realSub a b

/-- The number a finite value of `R` stands for, a negative zero being 0; none for an infinity or a NaN.
Comparisons and floors are those of these numbers (DEDUCED, notes/assumptions/18.md). -/
def finite? : RVal → Option Rat
  | .num q => some q
  | .negZero => some 0
  | .posInf => none
  | .negInf => none
  | .nan _ => none

/-- `abs(v) < 1` (R12; spec/92 D29): the modulus `√(re² + im²)`, which for a real is its absolute value,
compared through its square. False for a NaN part (D29) and for an infinite one; PRESUMED on infinities
and the negative zero (notes/assumptions/8.md). -/
def absLtOne (v : Scalar) : Bool :=
  match finite? v.re, finite? v.im with
  | some x, some y => decide (x * x + y * y < 1)
  | _, _ => false

/-- `0 ≤ d and d < cap` (R151, R152): false for a NaN and the infinities; `−0.0` behaves as `0`
(PRESUMED, notes/assumptions/5.md). -/
def delayInRange (d : RVal) (cap : Nat) : Bool :=
  match finite? d with
  | some q => decide (0 ≤ q ∧ q < (cap : Rat))
  | none => false

/-- `floor(d)` of an accepted delay (R12, R151). -/
def delayFloor (d : RVal) : Nat :=
  match finite? d with
  | some q => q.floor.toNat
  | none => 0

/-- A delay, with `−0.0` as the `0` it behaves as (R151 corner case 3). -/
def asDelay : RVal → RVal
  | .negZero => .num 0
  | d => d

/-- `frac = d − d_lo` of `R` (R151): `d_lo` converted from the integer (R7). -/
def delayFrac (ar : Arith) (d : RVal) (dLo : Nat) : RVal := rsub ar (asDelay d) (.num (dLo : Rat))

/-- A real embedded in `S` (R15): itself, or `r + 0j`. -/
def embed (r : RVal) : Scalar := .real r

/-- `r · v` for a real `r` (R15): the product of `S`. -/
def scaleBy (ar : Arith) (r : RVal) (v : Scalar) : Scalar := smul ar (embed r) v

/-- `next_pow2(n)` (R164): the least power of two that is at least `n`, for `n ≥ 1`. -/
def nextPow2 (n : Nat) : Nat := if n ≤ 1 then 1 else 2 ^ ((n - 1).log2 + 1)

/-- Element `k` of the exact result (R165): the circular convolution of length `n` of the input cells with
the zero-padded filter, the products added from `j = 0` upward. -/
def circularConv (ar : Arith) (n : Nat) (h : List Scalar) (input : List Scalar) (k : Nat) : Scalar :=
  (List.range n).foldl
    (fun acc j =>
      sadd ar acc (smul ar (input.getD j Scalar.zero)
        (h.getD ((((k : Int) - (j : Int)) % (n : Int)).toNat) Scalar.zero)))
    Scalar.zero

/-- Element `k` of `DFTCONV(n, h, in)`: R165 in an exact instance, the free function otherwise (R167); over a
complex `S` there is no convolver (R8) and no command calls it. -/
def dftconv (ar : Arith) (n : Nat) (h : List Scalar) (input : List Scalar) (k : Nat) : Scalar :=
  match ar with
  | .exact => circularConv ar n h input k
  | _ => .real (Config.dftconv n (h.map Scalar.re) (input.map Scalar.re) k)

/-- `conv(h, x)[k]` (R13): the sum over every `j` with `0 ≤ j < F` and `0 ≤ k − j < L`. DESIGN CHOICE
(notes/assumptions/29.md): how the sum is associated over a floating-point `S` the spec leaves open; here it
starts from `0` of `S` and goes upward in `j`. -/
def linearConv (ar : Arith) (h x : List Scalar) (k : Nat) : Scalar :=
  (List.range h.length).foldl
    (fun acc j =>
      if j ≤ k ∧ k - j < x.length then
        sadd ar acc (smul ar (h.getD j Scalar.zero) (x.getD (k - j) Scalar.zero))
      else acc)
    Scalar.zero

end Sys2Proof.Machine
end

