-- ==== Sys2Proof/Syntax.lean ====
section
/-!
DEFINITION. The 21 commands of the block (spec/30_encoding.md R70 to R74): one constructor of `Instr`
per row of spec/opcode_table.json, with the fields of the word it uses, and the bare opcodes.
-/

namespace Sys2Proof

/-- A command. `slot` and `idx` are the unsigned integers of the fields `SLOT` and `IDX` exactly as
they stand in the word (R71); a field that must be 0 is not carried. -/
inductive Instr where
  /-- `LDI`, R90 -/
  | ldi (idx : Nat)
  /-- `LDS`, R91 -/
  | lds (idx : Nat)
  /-- `CFG.TDL`, R100; `count` is `L`, the coefficient count -/
  | cfgTdl (slot : Nat) (count : Nat)
  /-- `CFG.FOF`, R110 -/
  | cfgFof (slot : Nat)
  /-- `CFG.OPL`, R113 -/
  | cfgOpl (slot : Nat)
  /-- `CFG.FFC`, R130 -/
  | cfgFfc (slot : Nat)
  /-- `CFG.FBC`, R133 -/
  | cfgFbc (slot : Nat)
  /-- `CFG.TVD`, R150 -/
  | cfgTvd (slot : Nat)
  /-- `CFG.DFC`, R160 -/
  | cfgDfc (slot : Nat)
  /-- `CFG.OLA`, R180 -/
  | cfgOla (slot : Nat)
  /-- `ADV.TDL`, R101 -/
  | advTdl (slot : Nat)
  /-- `ADV.FOF`, R111 -/
  | advFof (slot : Nat)
  /-- `ADV.OPL`, R114 -/
  | advOpl (slot : Nat)
  /-- `ADV.FFC`, R131 -/
  | advFfc (slot : Nat)
  /-- `ADV.FBC`, R134 -/
  | advFbc (slot : Nat)
  /-- `ADV.TVD`, R151 -/
  | advTvd (slot : Nat)
  /-- `ADV.OLA`, R181 -/
  | advOla (slot : Nat)
  /-- `DFC.WR`, R161 -/
  | dfcWr (slot : Nat)
  /-- `DFC.RUN`, R162 -/
  | dfcRun (slot : Nat)
  /-- `DFC.RD`, R163 -/
  | dfcRd (slot : Nat)
  /-- `FREE`, R92 -/
  | free (slot : Nat)
deriving DecidableEq, Repr

/-- The 21 assigned opcodes (R72), without operands. -/
inductive Opcode where
  | ldi | lds
  | cfgTdl | cfgFof | cfgOpl | cfgFfc | cfgFbc | cfgTvd | cfgDfc | cfgOla
  | advTdl | advFof | advOpl | advFfc | advFbc | advTvd | advOla
  | dfcWr | dfcRun | dfcRd
  | free
deriving DecidableEq, Repr

end Sys2Proof
end

