-- ==== Sys2Proof/WellFormed.lean ====
section
/-!
DEFINITION. Which terms of `Instr` are commands of the block: the operands fit their fields
(spec/30_encoding.md R70: `IDX` has 16 bits, `SLOT` has 8).
-/

namespace Sys2Proof

/-- `IDX` fits bits 31:16. -/
def idxFits (idx : Nat) : Bool := idx < 65536

/-- `SLOT` fits bits 15:8. A number at or above `NSLOTS` is a legal encoding (R73). -/
def slotFits (slot : Nat) : Bool := slot < 256

/-- Every operand of the command fits its field. -/
def Instr.wellFormed : Instr → Bool
  | .ldi idx => idxFits idx
  | .lds idx => idxFits idx
  | .cfgTdl slot count => slotFits slot && idxFits count
  | .cfgFof slot => slotFits slot
  | .cfgOpl slot => slotFits slot
  | .cfgFfc slot => slotFits slot
  | .cfgFbc slot => slotFits slot
  | .cfgTvd slot => slotFits slot
  | .cfgDfc slot => slotFits slot
  | .cfgOla slot => slotFits slot
  | .advTdl slot => slotFits slot
  | .advFof slot => slotFits slot
  | .advOpl slot => slotFits slot
  | .advFfc slot => slotFits slot
  | .advFbc slot => slotFits slot
  | .advTvd slot => slotFits slot
  | .advOla slot => slotFits slot
  | .dfcWr slot => slotFits slot
  | .dfcRun slot => slotFits slot
  | .dfcRd slot => slotFits slot
  | .free slot => slotFits slot

end Sys2Proof
end

