-- ==== Sys2Proof/Decode.lean ====
section
/-!
DEFINITION. The command encoding (spec/30_encoding.md R70 to R78): the fields of a word, the opcode
map with its match and mask, the total decoder that rejects by name, and after it the encoder.
-/

namespace Sys2Proof

/-- `w[hi:lo]`: the unsigned integer in bits `hi` down to `lo` of `w`, both ends included (R10). -/
def bits (w : Word) (hi lo : Nat) : Nat := w.toNat / 2 ^ lo % 2 ^ (hi + 1 - lo)

/-- The field `OP`, bits 7:0 (R70). -/
def opField (w : Word) : Nat := bits w 7 0

/-- The field `SLOT`, bits 15:8 (R70). -/
def slotField (w : Word) : Nat := bits w 15 8

/-- The field `IDX`, bits 31:16 (R70). -/
def idxField (w : Word) : Nat := bits w 31 16

/-- The word `OP + 256·SLOT + 65536·IDX` (R70). -/
def packWord (op slot idx : Nat) : Word := BitVec.ofNat 32 (op + 256 * slot + 65536 * idx)

/-- The `OP` column of the opcode map (R72). -/
def Opcode.code : Opcode → Nat
  | .ldi => 0x01
  | .lds => 0x02
  | .cfgTdl => 0x11
  | .cfgFof => 0x12
  | .cfgOpl => 0x13
  | .cfgFfc => 0x14
  | .cfgFbc => 0x15
  | .cfgTvd => 0x16
  | .cfgDfc => 0x17
  | .cfgOla => 0x18
  | .advTdl => 0x21
  | .advFof => 0x22
  | .advOpl => 0x23
  | .advFfc => 0x24
  | .advFbc => 0x25
  | .advTvd => 0x26
  | .advOla => 0x28
  | .dfcWr => 0x30
  | .dfcRun => 0x31
  | .dfcRd => 0x32
  | .free => 0x40

/-- The rows of the opcode map, in its order (R72). -/
def Opcode.all : List Opcode :=
  [.ldi, .lds, .cfgTdl, .cfgFof, .cfgOpl, .cfgFfc, .cfgFbc, .cfgTvd, .cfgDfc, .cfgOla,
   .advTdl, .advFof, .advOpl, .advFfc, .advFbc, .advTvd, .advOla, .dfcWr, .dfcRun, .dfcRd, .free]

/-- Bits 31:16 must be 0: every command but `LDI`, `LDS` and `CFG.TDL` (R70, R72). -/
def Opcode.idxMustBeZero : Opcode → Bool
  | .ldi | .lds | .cfgTdl => false
  | _ => true

/-- Bits 15:8 must be 0: `LDI` and `LDS` (R70, R72). -/
def Opcode.slotMustBeZero : Opcode → Bool
  | .ldi | .lds => true
  | _ => false

/-- The `match` column of the opcode map (R72). -/
def Opcode.matchBits (o : Opcode) : Word := BitVec.ofNat 32 o.code

/-- The `mask` column of the opcode map: it covers `OP` and every field that must be 0 (R72). -/
def Opcode.mask (o : Opcode) : Word :=
  BitVec.ofNat 32 (0xFF + (if o.slotMustBeZero then 0xFF00 else 0) + (if o.idxMustBeZero then 0xFFFF0000 else 0))

/-- The row whose `OP` is `op`, if there is one (R77). -/
def Opcode.ofCode? (op : Nat) : Option Opcode := Opcode.all.find? (fun o => o.code == op)

/-- The command of a row with the given field values (R77). -/
def Opcode.command (o : Opcode) (slot idx : Nat) : Instr :=
  match o with
  | .ldi => .ldi idx
  | .lds => .lds idx
  | .cfgTdl => .cfgTdl slot idx
  | .cfgFof => .cfgFof slot
  | .cfgOpl => .cfgOpl slot
  | .cfgFfc => .cfgFfc slot
  | .cfgFbc => .cfgFbc slot
  | .cfgTvd => .cfgTvd slot
  | .cfgDfc => .cfgDfc slot
  | .cfgOla => .cfgOla slot
  | .advTdl => .advTdl slot
  | .advFof => .advFof slot
  | .advOpl => .advOpl slot
  | .advFfc => .advFfc slot
  | .advFbc => .advFbc slot
  | .advTvd => .advTvd slot
  | .advOla => .advOla slot
  | .dfcWr => .dfcWr slot
  | .dfcRun => .dfcRun slot
  | .dfcRd => .dfcRd slot
  | .free => .free slot

/-- Why a word is illegal (R73). -/
inductive DecodeError where
  /-- no row of the opcode map has this `OP` -/
  | unassignedOp (op : Nat)
  /-- `IDX` is not 0 in a command whose `IDX` must be 0 -/
  | idxNotZero (o : Opcode) (idx : Nat)
  /-- `SLOT` is not 0 in `LDI` or `LDS` -/
  | slotNotZero (o : Opcode) (slot : Nat)
deriving DecidableEq, Repr

/-- The verdict on a word (R77): total, every word is one command or illegal. -/
def decode (w : Word) : Except DecodeError Instr :=
  match Opcode.ofCode? (opField w) with
  | none => .error (.unassignedOp (opField w))
  | some o =>
    if o.idxMustBeZero && idxField w != 0 then .error (.idxNotZero o (idxField w))
    else if o.slotMustBeZero && slotField w != 0 then .error (.slotNotZero o (slotField w))
    else .ok (o.command (slotField w) (idxField w))

/-- The opcode of a command. -/
def Instr.opcode : Instr → Opcode
  | .ldi _ => .ldi
  | .lds _ => .lds
  | .cfgTdl _ _ => .cfgTdl
  | .cfgFof _ => .cfgFof
  | .cfgOpl _ => .cfgOpl
  | .cfgFfc _ => .cfgFfc
  | .cfgFbc _ => .cfgFbc
  | .cfgTvd _ => .cfgTvd
  | .cfgDfc _ => .cfgDfc
  | .cfgOla _ => .cfgOla
  | .advTdl _ => .advTdl
  | .advFof _ => .advFof
  | .advOpl _ => .advOpl
  | .advFfc _ => .advFfc
  | .advFbc _ => .advFbc
  | .advTvd _ => .advTvd
  | .advOla _ => .advOla
  | .dfcWr _ => .dfcWr
  | .dfcRun _ => .dfcRun
  | .dfcRd _ => .dfcRd
  | .free _ => .free

/-- The slot a command names: every command but `LDI` and `LDS` names one (R74, R93 step 3). -/
def Instr.slot? : Instr → Option Nat
  | .ldi _ => none
  | .lds _ => none
  | .cfgTdl slot _ => some slot
  | .cfgFof slot => some slot
  | .cfgOpl slot => some slot
  | .cfgFfc slot => some slot
  | .cfgFbc slot => some slot
  | .cfgTvd slot => some slot
  | .cfgDfc slot => some slot
  | .cfgOla slot => some slot
  | .advTdl slot => some slot
  | .advFof slot => some slot
  | .advOpl slot => some slot
  | .advFfc slot => some slot
  | .advFbc slot => some slot
  | .advTvd slot => some slot
  | .advOla slot => some slot
  | .dfcWr slot => some slot
  | .dfcRun slot => some slot
  | .dfcRd slot => some slot
  | .free slot => some slot

/-- The value a command puts into `IDX`: the staging index or the coefficient count, 0 in every other
command (R70). -/
def Instr.idxValue : Instr → Nat
  | .ldi idx => idx
  | .lds idx => idx
  | .cfgTdl _ count => count
  | .cfgFof _ => 0
  | .cfgOpl _ => 0
  | .cfgFfc _ => 0
  | .cfgFbc _ => 0
  | .cfgTvd _ => 0
  | .cfgDfc _ => 0
  | .cfgOla _ => 0
  | .advTdl _ => 0
  | .advFof _ => 0
  | .advOpl _ => 0
  | .advFfc _ => 0
  | .advFbc _ => 0
  | .advTvd _ => 0
  | .advOla _ => 0
  | .dfcWr _ => 0
  | .dfcRun _ => 0
  | .dfcRd _ => 0
  | .free _ => 0

/-- The word of a command (R70, R72). -/
def encode (i : Instr) : Word := packWord i.opcode.code (i.slot?.getD 0) i.idxValue

/-- The command that an opcode-table row's word stands for: `w` is numbered as the table numbers it and
has `nbits` bits, every bit above them 0; `none` where the decoder refuses. -/
def decodeTableWord (nbits w : Nat) : Option Instr :=
  match decode (BitVec.ofNat 32 (w % 2 ^ nbits)) with
  | .ok i => some i
  | .error _ => none

end Sys2Proof
end

