-- ==== Sys2Proof/Machine/Flags.lean ====
section
/-!
DEFINITION. The status of the block (spec/10_state.md R26, R43; spec/60_exceptions.md R211, R212). There
are no condition codes, carry, overflow or predicate bits (spec/10_state.md section 3): `FSTAT` is the
only status, and it is set by a fault alone.
-/

namespace Sys2Proof.Machine

/-- The eight faults of R211. -/
inductive FaultCause where
  | illegalOp
  | slotState
  | indexRange
  | cfgSize
  | cfgRange
  | cfgStability
  | cfgResource
  | delayRange
deriving DecidableEq, Repr

/-- The cause numbers of R211. -/
def FaultCause.code : FaultCause → Nat
  | .illegalOp => 1
  | .slotState => 2
  | .indexRange => 3
  | .cfgSize => 4
  | .cfgRange => 5
  | .cfgStability => 6
  | .cfgResource => 7
  | .delayRange => 8

/-- `FSTAT.CAUSE`, bits 7:0 (R26). -/
def fstatCause (f : Word) : Nat := bits f 7 0

/-- `FSTAT.SLOT`, bits 15:8 (R26). -/
def fstatSlot (f : Word) : Nat := bits f 15 8

/-- `FSTAT.OP`, bits 23:16 (R26). -/
def fstatOp (f : Word) : Nat := bits f 23 16

/-- The reserved bits 31:24 of `FSTAT` (R26). -/
def fstatReserved (f : Word) : Nat := bits f 31 24

/-- What a fault writes to `FSTAT` (R212): the cause, and bits 15:8 and 7:0 of the faulting word. -/
def fstatImage (c : FaultCause) (w : Word) : Word :=
  BitVec.ofNat 32 (c.code + 256 * slotField w + 65536 * opField w)

/-- The FAULTED state: `FSTAT.CAUSE ≠ 0` (R26, R214). -/
def State.faulted (s : State) : Bool := fstatCause s.fstat != 0

/-- The output line `fault_o` (R43). -/
def State.faultO (s : State) : Bool := s.faulted

/-- The kind of a unit (R2). -/
def FilterUnit.kind : FilterUnit → Kind
  | .tdl _ => .tdl
  | .fof _ => .fof
  | .opl _ => .opl
  | .ffc _ => .ffc
  | .fbc _ => .fbc
  | .tvd _ => .tvd
  | .dfc _ => .dfc
  | .ola _ => .ola

/-- The kind codes (R2, R29). -/
def Kind.code : Kind → Nat
  | .none => 0
  | .tdl => 1
  | .fof => 2
  | .opl => 3
  | .ffc => 4
  | .fbc => 5
  | .tvd => 6
  | .dfc => 7
  | .ola => 8

/-- The type tag with the given code, if there is one (R31). -/
def fofTypeOfCode : Nat → Option FofType
  | 0 => some .noType
  | 1 => some .lowpass
  | 2 => some .highpass
  | 3 => some .lowshelf
  | 4 => some .highshelf
  | _ => none

end Sys2Proof.Machine
end

