-- ==== Sys2Proof/Machine/Memory.lean ====
section
/-!
DEFINITION. Reading and writing the cells of a memory (spec/20_memory.md R50 to R53): one whole cell at
an integer index, over the canonical form of `Memory`. The argument `z` is what an unlisted cell
reads as.
-/

namespace Sys2Proof.Machine

/-- The value of cell `i`; an unlisted cell reads as `z`. -/
def Memory.read {α : Type} (z : α) : Memory α → Nat → α
  | [], _ => z
  | (a, v) :: rest, i => if a = i then v else Memory.read z rest i

/-- The memory without an entry for cell `i`. -/
def Memory.erase {α : Type} (m : Memory α) (i : Nat) : Memory α := m.filter (fun c => c.1 != i)

/-- Puts an entry for cell `i` at its place in the rising order. -/
def Memory.insert {α : Type} (i : Nat) (v : α) : Memory α → Memory α
  | [] => [(i, v)]
  | (a, x) :: rest => if i < a then (i, v) :: (a, x) :: rest else (a, x) :: Memory.insert i v rest

/-- Writes `v` to cell `i`, keeping the canonical form: writing `z` removes the entry. -/
def Memory.write {α : Type} [DecidableEq α] (z : α) (m : Memory α) (i : Nat) (v : α) : Memory α :=
  if v = z then m.erase i else Memory.insert i v (m.erase i)

/-- A memory whose cells `0 .. n−1` hold `f 0 .. f (n−1)` and whose other cells read as `z`. -/
def Memory.ofFn {α : Type} [DecidableEq α] (z : α) (n : Nat) (f : Nat → α) : Memory α :=
  ((List.range n).map (fun i => (i, f i))).filter (fun c => decide (c.2 ≠ z))

/-- The canonical form: cell numbers strictly rising, and no entry equal to `z`. -/
abbrev Memory.wf {α : Type} (z : α) (m : Memory α) : Prop :=
  m.Pairwise (fun a b => a.1 < b.1) ∧ ∀ c ∈ m, c.2 ≠ z

/-- Every listed cell lies below `n`. -/
abbrev Memory.within {α : Type} (m : Memory α) (n : Nat) : Prop := ∀ c ∈ m, c.1 < n

/-- Cell `i` of the integer staging memory (R27). -/
def State.piAt (s : State) (i : Nat) : Word := Memory.read 0 s.pi i

/-- Cell `i` of the scalar staging memory (R28). -/
def State.psAt (s : State) (i : Nat) : Scalar := Memory.read Scalar.zero s.ps i

/-- The unit in slot `n`, `none` for an empty slot (R29). -/
def State.slotAt (s : State) (n : Nat) : Option FilterUnit := Memory.read none s.slots n

/-- Cell `i` of a unit's buffer. -/
def cell (m : Memory Scalar) (i : Nat) : Scalar := Memory.read Scalar.zero m i

/-- A unit's buffer after `buf[i] <- v`. -/
def setCell (m : Memory Scalar) (i : Nat) (v : Scalar) : Memory Scalar := Memory.write Scalar.zero m i v

/-- `a mod n` of R11 for the index `w − back`: the non-negative remainder, `n ≥ 1`. -/
def ringBack (w back n : Nat) : Nat := (((w : Int) - (back : Int)) % (n : Int)).toNat

end Sys2Proof.Machine
end

