-- ==== Sys2Proof/Machine/Ops.lean ====
section
/-!
DEFINITION. The named operations over registers, staging and slots, raising a fault and reset, and the
shared frame of every command: the prelude (spec/40_staging_and_slots.md R93), configuring (R94) and
advancing (R95).
-/

namespace Sys2Proof.Machine

/-- The three outcomes of a step of the block. -/
abbrev StepOutcome := Host.Outcome State Fault Refusal

/-- `IARG <- v` by the host (R21). -/
def State.withIarg (s : State) (v : Word) : State := { s with iarg := v }

/-- `XIN <- v` by the host (R22). -/
def State.withXin (s : State) (v : Scalar) : State := { s with xin := v }

/-- `DIN <- v` by the host (R23). -/
def State.withDin (s : State) (v : RVal) : State := { s with din := v }

/-- `YOUT <- v` (R24). -/
def State.withYout (s : State) (v : Scalar) : State := { s with yout := v }

/-- `FSTAT <- v` (R26); `raise` alone calls it. -/
def State.withFstat (s : State) (v : Word) : State := { s with fstat := v }

/-- `PI[i] <- v` (R27). -/
def State.withPi (s : State) (i : Nat) (v : Word) : State := { s with pi := Memory.write 0 s.pi i v }

/-- `PS[i] <- v` (R28). -/
def State.withPs (s : State) (i : Nat) (v : Scalar) : State :=
  { s with ps := Memory.write Scalar.zero s.ps i v }

/-- `slot[n]` holds `u`, or nothing (R29). -/
def State.withSlot (s : State) (n : Nat) (u : Option FilterUnit) : State :=
  { s with slots := Memory.write none s.slots n u }

/-- The model's index into the host's action list becomes `n` (R20). -/
def State.withCp (s : State) (n : Nat) : State := { s with cp := n }

/-- `v` is appended to the output list (R75). -/
def State.withOutput (s : State) (v : Scalar) : State := { s with outputs := s.outputs ++ [v] }

/-- `v` is appended to the host's readings of `FSTAT` (R75). -/
def State.withStatusRead (s : State) (v : Word) : State := { s with statusReads := s.statusReads ++ [v] }

/-- `v` is appended to the host's read-backs of operand registers (R42). -/
def State.withOperandRead (s : State) (v : OperandRead) : State :=
  { s with operandReads := s.operandReads ++ [v] }

/-- `raise F(s)` (R213): `FSTAT` takes the cause and the fields of the faulting word, and nothing else
changes; `fault_o` follows `FSTAT` (R43). -/
def raise (c : FaultCause) (w : Word) (s : State) : State := s.withFstat (fstatImage c w)

/-- Reset, an event from outside the block (R240): every piece of state takes its value of R40. It is
the only way out of the FAULTED state; there is no return from a fault (R217). The arguments of the
model, the instance and the host's list, stay (DESIGN CHOICE, notes/assumptions/12.md). -/
def State.pulseReset (s : State) : State := State.resetWith s.params s.program

/-- The kind held by slot `n` (R29). -/
def State.kindAt (s : State) (n : Nat) : Kind :=
  match s.slotAt n with
  | none => .none
  | some u => u.kind

/-- The frame of every command after decoding: ignored in the FAULTED state (R93 step 1, R214);
otherwise `body` gives the state after the command, or the fault its checks find, which is then
raised with the command's own word (R213; DEDUCED, notes/assumptions/11.md). -/
def command (i : Instr) (body : Except FaultCause State) (s : State) : StepOutcome :=
  if s.faulted then .next s
  else
    match body with
    | .ok t => .next t
    | .error c => .next (raise c (encode i) s)

/-- R93 step 3 for a command that works on the unit in `slot`: `SLOT_STATE` if the number names no slot
or the slot does not hold what `sel` selects; otherwise `k` of the unit. -/
def withUnit {α : Type} (slot : Nat) (sel : FilterUnit → Option α)
    (k : α → Except FaultCause State) (s : State) : Except FaultCause State :=
  if s.params.nslots ≤ slot then .error .slotState
  else
    match (s.slotAt slot).bind sel with
    | none => .error .slotState
    | some u => k u

/-- `CFG.*` (R93 step 3, R94): `SLOT_STATE` if the number names no slot or the slot is occupied; then
the fault the unit's own checks find; otherwise the slot holds the built unit and nothing else
changes. -/
def configure (i : Instr) (slot : Nat) (built : Except FaultCause FilterUnit) (s : State) : StepOutcome :=
  command i
    (if s.params.nslots ≤ slot then .error .slotState
     else if (s.slotAt slot).isSome then .error .slotState
     else
       match built with
       | .error c => .error c
       | .ok u => .ok (s.withSlot slot (some u)))
    s

/-- `ADV.*` (R93 step 3, R95): `adv` of the unit that `sel` selects gives its running state after the
sample and the sample `y`, which goes to `YOUT` last; or the fault of its own check. -/
def advance {α : Type} (i : Instr) (slot : Nat) (sel : FilterUnit → Option α) (wrap : α → FilterUnit)
    (adv : α → Except FaultCause (α × Scalar)) (s : State) : StepOutcome :=
  command i
    (withUnit slot sel
      (fun u =>
        match adv u with
        | .error c => .error c
        | .ok r => .ok ((s.withSlot slot (some (wrap r.1))).withYout r.2))
      s)
    s

/-- `run`, for a command of a kind that is specified for a real `S` only (R8): in an instance whose `S` is
complex the kind's own rule is refused (spec/91 N22; notes/assumptions/9.md). The prelude of R93 is every
instance's, so the refusal stands after its three steps: `needs` is what the command asks of its slot. -/
def realScalarOnly (slot : Nat) (needs : Kind) (run : StepOutcome) (s : State) : StepOutcome :=
  if s.params.arith = .complex ∧ s.faulted = false ∧ slot < s.params.nslots ∧ s.kindAt slot = needs then
    .refused .needsRealScalar
  else run

end Sys2Proof.Machine
end

