-- ==== Sys2Proof/Machine/Operands.lean ====
section
/-!
DEFINITION. Where a command's operands come from (spec/30_encoding.md R74): runs of staging cells, and
the unit of a given kind in a slot.
-/

namespace Sys2Proof.Machine

/-- `PI[0 .. n−1]` as unsigned integers (R27, R71). -/
def State.piRange (s : State) (n : Nat) : List Nat := (List.range n).map (fun i => (s.piAt i).toNat)

/-- `PS[0 .. n−1]` (R28). -/
def State.psRange (s : State) (n : Nat) : List Scalar := (List.range n).map s.psAt

/-- `PI[i]` as an unsigned integer (R10). -/
def State.piNat (s : State) (i : Nat) : Nat := (s.piAt i).toNat

/-- `IARG` as an unsigned integer (R21). -/
def State.iargNat (s : State) : Nat := s.iarg.toNat

/-- The greatest of the delays, 0 for none (R100). -/
def maxDelay (delays : List Nat) : Nat := delays.foldl max 0

/-- The cells `0 .. n−1` of a buffer, as a list. -/
def cells (m : Memory Scalar) (n : Nat) : List Scalar := (List.range n).map (cell m)

/-- The unit if it is a TDL. -/
def FilterUnit.asTdl : FilterUnit → Option Tdl
  | .tdl u => some u
  | _ => none

/-- The unit if it is an FOF. -/
def FilterUnit.asFof : FilterUnit → Option Fof
  | .fof u => some u
  | _ => none

/-- The unit if it is an OPL. -/
def FilterUnit.asOpl : FilterUnit → Option Opl
  | .opl u => some u
  | _ => none

/-- The unit if it is an FFC. -/
def FilterUnit.asFfc : FilterUnit → Option Ffc
  | .ffc u => some u
  | _ => none

/-- The unit if it is an FBC. -/
def FilterUnit.asFbc : FilterUnit → Option Fbc
  | .fbc u => some u
  | _ => none

/-- The unit if it is a TVD. -/
def FilterUnit.asTvd : FilterUnit → Option Tvd
  | .tvd u => some u
  | _ => none

/-- The unit if it is a DFC; the convolver embedded in an OLA cannot be reached this way (R161). -/
def FilterUnit.asDfc : FilterUnit → Option Dfc
  | .dfc u => some u
  | _ => none

/-- The unit if it is an OLA. -/
def FilterUnit.asOla : FilterUnit → Option Ola
  | .ola u => some u
  | _ => none

end Sys2Proof.Machine
end

