-- ==== Sys2Proof/Machine/FirstOrder.lean ====
section
/-!
DEFINITION. The first-order filter and the one-pole lowpass (spec/42_first_order_and_one_pole.md R110 to
R114).
-/

namespace Sys2Proof.Machine

/-- An FOF right after its `CFG` (R31). -/
def freshFof (dry wet a0 a1 b1 : Scalar) (type : FofType) : Fof :=
  { dry := dry, wet := wet, a0 := a0, a1 := a1, b1 := b1, type := type,
    xPrev := Scalar.zero, yPrev := Scalar.zero }

/-- The check and the unit of `CFG.FOF` (R110). -/
def buildFof (s : State) : Except FaultCause FilterUnit :=
  match fofTypeOfCode (s.piNat 0) with
  | none => .error .cfgRange
  | some t => .ok (.fof (freshFof (s.psAt 0) (s.psAt 1) (s.psAt 2) (s.psAt 3) (s.psAt 4) t))

/-- The bracket of R111: `((a0·x) + (a1·x_prev)) − (b1·y_prev)`. -/
def fofInner (ar : Arith) (u : Fof) (x : Scalar) : Scalar :=
  ssub ar (sadd ar (smul ar u.a0 x) (smul ar u.a1 u.xPrev)) (smul ar u.b1 u.yPrev)

/-- One sample through the first-order filter (R111); `y_prev` receives the returned value, dry path and
wet scaling included (spec/92 D12). -/
def advanceFof (ar : Arith) (x : Scalar) (u : Fof) : Fof × Scalar :=
  let y := sadd ar (smul ar u.dry x) (smul ar u.wet (fofInner ar u x))
  ({ u with xPrev := x, yPrev := y }, y)

/-- An OPL right after its `CFG` (R32). -/
def freshOpl (alpha beta : Scalar) : Opl := { alpha := alpha, beta := beta, lp := Scalar.zero }

/-- The check and the unit of `CFG.OPL` (R113). -/
def buildOpl (s : State) : Except FaultCause FilterUnit :=
  if absLtOne (s.psAt 1) = false then .error .cfgStability
  else .ok (.opl (freshOpl (s.psAt 0) (s.psAt 1)))

/-- The recurrence of a one-pole with memory `lp` (R114), also of the one embedded in an FBC (R134). -/
def onePole (ar : Arith) (alpha beta x lp : Scalar) : Scalar := sadd ar (smul ar alpha x) (smul ar beta lp)

/-- One sample through the one-pole lowpass (R114). -/
def advanceOpl (ar : Arith) (x : Scalar) (u : Opl) : Opl × Scalar :=
  let y := onePole ar u.alpha u.beta x u.lp
  ({ u with lp := y }, y)

/-- `CFG.FOF` (R110). -/
def execCfgFof (slot : Nat) (s : State) : StepOutcome :=
  realScalarOnly slot .none (configure (.cfgFof slot) slot (buildFof s) s) s

/-- `ADV.FOF` (R111). -/
def execAdvFof (slot : Nat) (s : State) : StepOutcome :=
  realScalarOnly slot .fof
    (advance (.advFof slot) slot FilterUnit.asFof .fof (fun u => .ok (advanceFof s.params.arith s.xin u)) s) s

/-- `CFG.OPL` (R113). -/
def execCfgOpl (slot : Nat) (s : State) : StepOutcome :=
  realScalarOnly slot .none (configure (.cfgOpl slot) slot (buildOpl s) s) s

/-- `ADV.OPL` (R114). -/
def execAdvOpl (slot : Nat) (s : State) : StepOutcome :=
  realScalarOnly slot .opl
    (advance (.advOpl slot) slot FilterUnit.asOpl .opl (fun u => .ok (advanceOpl s.params.arith s.xin u)) s) s

end Sys2Proof.Machine
end

