-- ==== Sys2Proof/Machine/Combs.lean ====
section
/-!
DEFINITION. The feedforward-feedback comb and the filtered-feedback comb (spec/43_comb_filters.md R130 to
R135).
-/

namespace Sys2Proof.Machine

/-- An FFC right after its `CFG` (R33). -/
def freshFfc (b0 b1 a : Scalar) (m : Nat) : Ffc :=
  { b0 := b0, b1 := b1, a := a, m := m, bufIn := [], bufOut := [], w := 0 }

/-- The checks and the unit of `CFG.FFC` (R130). -/
def buildFfc (s : State) : Except FaultCause FilterUnit :=
  if s.piNat 0 < 1 then .error .cfgRange
  else if absLtOne (s.psAt 2) = false then .error .cfgStability
  else if s.params.capmax < 2 * s.piNat 0 then .error .cfgResource
  else .ok (.ffc (freshFfc (s.psAt 0) (s.psAt 1) (s.psAt 2) (s.piNat 0)))

/-- The output sample of R131: `((b0·x) + (b1·buf_in[w])) + (a·buf_out[w])`. -/
def ffcOutput (ar : Arith) (u : Ffc) (x : Scalar) : Scalar :=
  sadd ar (sadd ar (smul ar u.b0 x) (smul ar u.b1 (cell u.bufIn u.w))) (smul ar u.a (cell u.bufOut u.w))

/-- One sample through the feedforward-feedback comb (R131): both reads come before both writes. -/
def advanceFfc (ar : Arith) (x : Scalar) (u : Ffc) : Ffc × Scalar :=
  let y := ffcOutput ar u x
  ({ u with bufIn := setCell u.bufIn u.w x, bufOut := setCell u.bufOut u.w y, w := (u.w + 1) % u.m }, y)

/-- An FBC right after its `CFG` (R34). -/
def freshFbc (alpha beta : Scalar) (m : Nat) : Fbc :=
  { alpha := alpha, beta := beta, m := m, lp := Scalar.zero, bufOut := [], w := 0 }

/-- The checks and the unit of `CFG.FBC` (R133). -/
def buildFbc (s : State) : Except FaultCause FilterUnit :=
  if s.piNat 0 < 1 then .error .cfgRange
  else if absLtOne (s.psAt 1) = false then .error .cfgStability
  else if s.params.capmax < s.piNat 0 then .error .cfgResource
  else .ok (.fbc (freshFbc (s.psAt 0) (s.psAt 1) (s.piNat 0)))

/-- One sample through the filtered-feedback comb (R134): the embedded one-pole advances once on
`buf_out[w]`, and the write index wraps. -/
def advanceFbc (ar : Arith) (x : Scalar) (u : Fbc) : Fbc × Scalar :=
  let t := onePole ar u.alpha u.beta (cell u.bufOut u.w) u.lp
  let y := sadd ar x t
  ({ u with lp := t, bufOut := setCell u.bufOut u.w y, w := (u.w + 1) % u.m }, y)

/-- `CFG.FFC` (R130). -/
def execCfgFfc (slot : Nat) (s : State) : StepOutcome := configure (.cfgFfc slot) slot (buildFfc s) s

/-- `ADV.FFC` (R131). -/
def execAdvFfc (slot : Nat) (s : State) : StepOutcome :=
  advance (.advFfc slot) slot FilterUnit.asFfc .ffc (fun u => .ok (advanceFfc s.params.arith s.xin u)) s

/-- `CFG.FBC` (R133). -/
def execCfgFbc (slot : Nat) (s : State) : StepOutcome := configure (.cfgFbc slot) slot (buildFbc s) s

/-- `ADV.FBC` (R134). -/
def execAdvFbc (slot : Nat) (s : State) : StepOutcome :=
  advance (.advFbc slot) slot FilterUnit.asFbc .fbc (fun u => .ok (advanceFbc s.params.arith s.xin u)) s

end Sys2Proof.Machine
end

