-- ==== Sys2Proof/Machine/Convolver.lean ====
section
/-!
DEFINITION. The DFT convolver (spec/45_dft_convolver.md R160 to R168).
-/

namespace Sys2Proof.Machine

/-- A DFC right after its construction from an input size and a filter (R36, R160). -/
def freshDfc (inputSize : Nat) (h : List Scalar) : Dfc :=
  { inputSize := inputSize
    filterSize := h.length
    outputSize := inputSize + h.length - 1
    fftSize := nextPow2 (inputSize + h.length - 1)
    h := h
    input := []
    output := [] }

/-- The checks and the unit of `CFG.DFC` (R160). -/
def buildDfc (s : State) : Except FaultCause FilterUnit :=
  if s.params.nps < s.piNat 1 then .error .cfgSize
  else if s.piNat 0 < 1 ∨ s.piNat 1 < 1 then .error .cfgRange
  else if s.params.capmax < 2 * nextPow2 (s.piNat 0 + s.piNat 1 - 1) then .error .cfgResource
  else .ok (.dfc (freshDfc (s.piNat 0) (s.psRange (s.piNat 1))))

/-- `run_filter()` (R162): all cells of `out` are replaced; `in` is unchanged (spec/92 D34;
notes/assumptions/17.md). -/
def runFilter (ar : Arith) (u : Dfc) : Dfc :=
  { u with output := Memory.ofFn Scalar.zero u.fftSize (dftconv ar u.fftSize u.h (cells u.input u.fftSize)) }

/-- `CFG.DFC` (R160). -/
def execCfgDfc (slot : Nat) (s : State) : StepOutcome :=
  realScalarOnly slot .none (configure (.cfgDfc slot) slot (buildDfc s) s) s

/-- `DFC.WR` (R161): `in[IARG] <- XIN`. -/
def execDfcWr (slot : Nat) (s : State) : StepOutcome :=
  realScalarOnly slot .dfc
    (command (.dfcWr slot)
      (withUnit slot FilterUnit.asDfc
        (fun u =>
          if u.inputSize ≤ s.iargNat then .error .indexRange
          else .ok (s.withSlot slot (some (.dfc { u with input := setCell u.input s.iargNat s.xin }))))
        s)
      s)
    s

/-- `DFC.RUN` (R162). -/
def execDfcRun (slot : Nat) (s : State) : StepOutcome :=
  realScalarOnly slot .dfc
    (command (.dfcRun slot)
      (withUnit slot FilterUnit.asDfc
        (fun u => .ok (s.withSlot slot (some (.dfc (runFilter s.params.arith u))))) s)
      s)
    s

/-- `DFC.RD` (R163): `YOUT <- out[IARG]`. -/
def execDfcRd (slot : Nat) (s : State) : StepOutcome :=
  realScalarOnly slot .dfc
    (command (.dfcRd slot)
      (withUnit slot FilterUnit.asDfc
        (fun u =>
          if u.outputSize ≤ s.iargNat then .error .indexRange
          else .ok (s.withYout (cell u.output s.iargNat)))
        s)
      s)
    s

end Sys2Proof.Machine
end

