-- ==== Sys2Proof/Machine/OverlapAdd.lean ====
section
/-!
DEFINITION. The streaming overlap-add convolver (spec/46_overlap_add.md R180 to R183).
-/

namespace Sys2Proof.Machine

/-- An OLA right after its `CFG` (R37, R180). -/
def freshOla (windowSize : Nat) (h : List Scalar) : Ola :=
  { windowSize := windowSize
    filterSize := h.length
    numTransients := h.length - 1
    outputSize := windowSize + h.length - 1
    dfc := freshDfc windowSize h
    ring := []
    writeIdx := 0
    inputIdx := 0
    outputIdx := 0 }

/-- The checks and the unit of `CFG.OLA` (R180). -/
def buildOla (s : State) : Except FaultCause FilterUnit :=
  if s.params.nps < s.piNat 1 then .error .cfgSize
  else if s.piNat 0 < 1 ∨ s.piNat 1 < 1 then .error .cfgRange
  else if s.params.capmax < 2 * nextPow2 (s.piNat 0 + s.piNat 1 - 1) + (s.piNat 0 + s.piNat 1 - 1) then
    .error .cfgResource
  else .ok (.ola (freshOla (s.piNat 0) (s.psRange (s.piNat 1))))

/-- The zero-clear loop of R181: the `count` ring cells from `start` on, modulo `size`. -/
def ringClear (ring : Memory Scalar) (size start count : Nat) : Memory Scalar :=
  (List.range count).foldl (fun r k => setCell r ((start + k) % size) Scalar.zero) ring

/-- The accumulate loop of R181: cell `start + k`, modulo `size`, gains `f k`, for `k < size`. -/
def ringAccumulate (ar : Arith) (ring : Memory Scalar) (size start : Nat) (f : Nat → Scalar) : Memory Scalar :=
  (List.range size).foldl
    (fun r k => setCell r ((start + k) % size) (sadd ar (cell r ((start + k) % size)) (f k))) ring

/-- Step 1 of R181: the sample goes into the window. -/
def olaPush (x : Scalar) (u : Ola) : Ola :=
  { u with dfc := { u.dfc with input := setCell u.dfc.input u.inputIdx x }, inputIdx := u.inputIdx + 1 }

/-- Step 2 of R181 for a full window: run the convolver, clear, then accumulate, and move the indices. -/
def olaBlock (ar : Arith) (u : Ola) : Ola :=
  let dfc := runFilter ar u.dfc
  let cleared := ringClear u.ring u.outputSize (u.writeIdx + u.numTransients) u.windowSize
  { u with
    inputIdx := 0
    dfc := dfc
    ring := ringAccumulate ar cleared u.outputSize u.writeIdx (cell dfc.output)
    outputIdx := u.writeIdx
    writeIdx := (u.writeIdx + u.windowSize) % u.outputSize }

/-- Step 3 of R181: read the ring without clearing it. -/
def olaPop (u : Ola) : Ola × Scalar :=
  ({ u with outputIdx := (u.outputIdx + 1) % u.outputSize }, cell u.ring u.outputIdx)

/-- One sample through the overlap-add convolver (R181). -/
def advanceOla (ar : Arith) (x : Scalar) (u : Ola) : Ola × Scalar :=
  let v := olaPush x u
  olaPop (if v.inputIdx = v.windowSize then olaBlock ar v else v)

/-- `CFG.OLA` (R180). -/
def execCfgOla (slot : Nat) (s : State) : StepOutcome :=
  realScalarOnly slot .none (configure (.cfgOla slot) slot (buildOla s) s) s

/-- `ADV.OLA` (R181). -/
def execAdvOla (slot : Nat) (s : State) : StepOutcome :=
  realScalarOnly slot .ola
    (advance (.advOla slot) slot FilterUnit.asOla .ola (fun u => .ok (advanceOla s.params.arith s.xin u)) s) s

end Sys2Proof.Machine
end

