-- ==== Sys2Proof/Machine/Staging.lean ====
section
/-!
DEFINITION. The staging and slot commands LDI, LDS and FREE (spec/40_staging_and_slots.md R90 to R92).
-/

namespace Sys2Proof.Machine

/-- `LDI` (R90). -/
def execLdi (idx : Nat) (s : State) : StepOutcome :=
  command (.ldi idx) (if s.params.npi ≤ idx then .error .indexRange else .ok (s.withPi idx s.iarg)) s

/-- `LDS` (R91). -/
def execLds (idx : Nat) (s : State) : StepOutcome :=
  command (.lds idx) (if s.params.nps ≤ idx then .error .indexRange else .ok (s.withPs idx s.xin)) s

/-- `FREE` (R92): the slot is empty and nothing of the unit survives. -/
def execFree (slot : Nat) (s : State) : StepOutcome :=
  command (.free slot) (withUnit slot some (fun _ => .ok (s.withSlot slot none)) s) s

end Sys2Proof.Machine
end

