-- ==== Sys2Proof/Machine/TappedDelay.lean ====
section
/-!
DEFINITION. The tapped delay line (spec/41_tapped_delay_line.md R100 to R103).
-/

namespace Sys2Proof.Machine

/-- The buffer capacity of a list of delays: `max(delays)`, or 1 if empty (R100). -/
def tdlCap (delays : List Nat) : Nat := if delays.length = 0 then 1 else maxDelay delays

/-- A TDL right after its `CFG` (R30). -/
def freshTdl (delays : List Nat) (coeffs : List Scalar) : Tdl :=
  { k := delays.length, delays := delays, coeffs := coeffs, cap := tdlCap delays, buf := [], w := 0 }

/-- The checks and the unit of `CFG.TDL` with `K = k`, `L = l` (R100). -/
def buildTdl (k l : Nat) (s : State) : Except FaultCause FilterUnit :=
  if s.params.npi < k ∨ s.params.nps < l then .error .cfgSize
  else if l ≠ k + 1 then .error .cfgSize
  else if 1 ≤ k ∧ maxDelay (s.piRange k) = 0 then .error .cfgRange
  else if s.params.capmax < tdlCap (s.piRange k) then .error .cfgResource
  else .ok (.tdl (freshTdl (s.piRange k) (s.psRange l)))

/-- The output sample of R101: `b_0·x`, then tap by tap in increasing `i`. Entry `i` of `delays` is
`M[i+1]`. -/
def tdlOutput (ar : Arith) (u : Tdl) (x : Scalar) : Scalar :=
  (List.range u.k).foldl
    (fun acc i =>
      sadd ar acc (smul ar (u.coeffs.getD (i + 1) Scalar.zero)
        (cell u.buf (ringBack u.w (u.delays.getD i 0) u.cap))))
    (smul ar (u.coeffs.getD 0 Scalar.zero) x)

/-- One sample through the tapped delay line (R101): all reads come before the write of `x`. -/
def advanceTdl (ar : Arith) (x : Scalar) (u : Tdl) : Tdl × Scalar :=
  ({ u with buf := setCell u.buf u.w x, w := (u.w + 1) % u.cap }, tdlOutput ar u x)

/-- `CFG.TDL` (R100): `IARG = K`, `IDX = L`. -/
def execCfgTdl (slot count : Nat) (s : State) : StepOutcome :=
  configure (.cfgTdl slot count) slot (buildTdl s.iargNat count s) s

/-- `ADV.TDL` (R101). -/
def execAdvTdl (slot : Nat) (s : State) : StepOutcome :=
  advance (.advTdl slot) slot FilterUnit.asTdl .tdl (fun u => .ok (advanceTdl s.params.arith s.xin u)) s

end Sys2Proof.Machine
end

