-- ==== Sys2Proof/Machine/TimeVarying.lean ====
section
/-!
DEFINITION. The time-varying delay line (spec/44_time_varying_delay.md R150 to R153).
-/

namespace Sys2Proof.Machine

/-- A TVD right after its `CFG` (R35). -/
def freshTvd (a b : Scalar) (maxDelay : Nat) : Tvd :=
  { a := a, b := b, maxDelay := maxDelay, buf := [], w := 0 }

/-- The checks and the unit of `CFG.TVD` (R150). -/
def buildTvd (s : State) : Except FaultCause FilterUnit :=
  if s.piNat 0 < 1 then .error .cfgRange
  else if s.params.capmax < s.piNat 0 then .error .cfgResource
  else .ok (.tvd (freshTvd (s.psAt 0) (s.psAt 1) (s.piNat 0)))

/-- `interp` of R151: the blend of the two neighbours, the weight `frac` on the newer one (R153). -/
def tvdInterp (ar : Arith) (u : Tvd) (x : Scalar) (d : RVal) : Scalar :=
  let dLo := delayFloor d
  let newer := if dLo = 0 then x else cell u.buf (ringBack u.w dLo u.maxDelay)
  let older := cell u.buf (ringBack u.w (dLo + 1) u.maxDelay)
  sadd ar older (scaleBy ar (delayFrac ar d dLo) (ssub ar newer older))

/-- One sample through the delay line at delay `d` (R151, R152): `DELAY_RANGE` unless
`0 ≤ d < max_delay`; both reads come before `x` is written. -/
def advanceTvd (ar : Arith) (x : Scalar) (d : RVal) (u : Tvd) : Except FaultCause (Tvd × Scalar) :=
  if delayInRange d u.maxDelay = false then .error .delayRange
  else
    .ok ({ u with buf := setCell u.buf u.w x, w := (u.w + 1) % u.maxDelay },
         sadd ar (smul ar u.a x) (smul ar u.b (tvdInterp ar u x d)))

/-- `CFG.TVD` (R150). -/
def execCfgTvd (slot : Nat) (s : State) : StepOutcome := configure (.cfgTvd slot) slot (buildTvd s) s

/-- `ADV.TVD` (R151): `XIN = x`, `DIN = d`. -/
def execAdvTvd (slot : Nat) (s : State) : StepOutcome :=
  advance (.advTvd slot) slot FilterUnit.asTvd .tvd (advanceTvd s.params.arith s.xin s.din) s

end Sys2Proof.Machine
end

