-- ==== Sys2Proof/Machine/Dispatch.lean ====
section
/-!
DEFINITION. The meaning of every command, one arm per constructor of Instr.
-/

namespace Sys2Proof.Machine

def exec (i : Instr) (s : State) : Host.Outcome State Fault Refusal :=
  match i with
  | .ldi idx => Sys2Proof.Machine.execLdi idx s
  | .lds idx => Sys2Proof.Machine.execLds idx s
  | .cfgTdl slot count => Sys2Proof.Machine.execCfgTdl slot count s
  | .cfgFof slot => Sys2Proof.Machine.execCfgFof slot s
  | .cfgOpl slot => Sys2Proof.Machine.execCfgOpl slot s
  | .cfgFfc slot => Sys2Proof.Machine.execCfgFfc slot s
  | .cfgFbc slot => Sys2Proof.Machine.execCfgFbc slot s
  | .cfgTvd slot => Sys2Proof.Machine.execCfgTvd slot s
  | .cfgDfc slot => Sys2Proof.Machine.execCfgDfc slot s
  | .cfgOla slot => Sys2Proof.Machine.execCfgOla slot s
  | .advTdl slot => Sys2Proof.Machine.execAdvTdl slot s
  | .advFof slot => Sys2Proof.Machine.execAdvFof slot s
  | .advOpl slot => Sys2Proof.Machine.execAdvOpl slot s
  | .advFfc slot => Sys2Proof.Machine.execAdvFfc slot s
  | .advFbc slot => Sys2Proof.Machine.execAdvFbc slot s
  | .advTvd slot => Sys2Proof.Machine.execAdvTvd slot s
  | .advOla slot => Sys2Proof.Machine.execAdvOla slot s
  | .dfcWr slot => Sys2Proof.Machine.execDfcWr slot s
  | .dfcRun slot => Sys2Proof.Machine.execDfcRun slot s
  | .dfcRd slot => Sys2Proof.Machine.execDfcRd slot s
  | .free slot => Sys2Proof.Machine.execFree slot s

end Sys2Proof.Machine
end

