-- ==== Sys2Proof/Machine/HostActions.lean ====
section
/-!
DEFINITION. What one host action does (spec/30_encoding.md R75; spec/10_state.md R21 to R26): a register
write, a command word written to `CMD`, a read, or a read-back (R42); and how a word is placed in the host's list.
-/

namespace Sys2Proof.Machine

/-- The block executes a word written to `CMD` (R25): ignored and not decoded in the FAULTED state
(R93 step 1, R214), `ILLEGAL_OP` for an illegal word (R93 step 2, R73), otherwise the command. -/
def issue (w : Word) (s : State) : StepOutcome :=
  if s.faulted then .next s
  else
    match decode w with
    | .error _ => .next (raise .illegalOp w s)
    | .ok i => exec i s

/-- One host action (R75). The `SET` and `GET` actions work in the FAULTED state too (R42). -/
def perform (a : HostAction) (s : State) : StepOutcome :=
  match a with
  | .setIarg v => .next (s.withIarg v)
  | .setXin v => .next (s.withXin v)
  | .setDin v => .next (s.withDin v)
  | .command w => issue w s
  | .getYout => .next (s.withOutput s.yout)
  | .getFstat => .next (s.withStatusRead s.fstat)
  | .getIarg => .next (s.withOperandRead (.iarg s.iarg))
  | .getXin => .next (s.withOperandRead (.xin s.xin))
  | .getDin => .next (s.withOperandRead (.din s.din))

/-- The host action that `cp` points to, if the list is not exhausted (R20). -/
def State.nextAction? (s : State) : Option HostAction := s.program[s.cp]?

/-- The action has been performed: `cp` advances by exactly 1 (R20). -/
def State.advanceCp (s : State) : State := s.withCp (s.cp + 1)

/-- The outcome of performing the action at `cp`, then advancing `cp`. -/
def performAt (a : HostAction) (s : State) : StepOutcome :=
  match perform a s with
  | .next t => .next t.advanceCp
  | .fault r => .fault r
  | .refused r => .refused r

/-- The list with `a` at position `n`; positions that the list lacks below `n` are filled with `a`. -/
def placeAction (a : HostAction) : List HostAction → Nat → List HostAction
  | [], 0 => [a]
  | [], n + 1 => a :: placeAction a [] n
  | _ :: rest, 0 => a :: rest
  | x :: rest, n + 1 => x :: placeAction a rest n

/-- The state whose next host action is the command word of the table's bits `w`. -/
def placeWord (s : State) (nbits w : Nat) : State :=
  { s with program := placeAction (.command (BitVec.ofNat 32 (w % 2 ^ nbits))) s.program s.cp }

end Sys2Proof.Machine
end

