-- ==== Sys2Proof/Machine/Step.lean ====
section
/-!
DEFINITION. One step of the machine: the next host action of the host's list (spec/10_state.md R20,
spec/70_reset_and_hazards.md R246).
-/

namespace Sys2Proof.Machine

/-- One host action, in the list's order. When the list is exhausted the run has ended and the block
waits for a next command for ever: nothing changes (R246). -/
def step (s : State) : Host.Outcome State Fault Refusal :=
  match s.nextAction? with
  | none => .next s
  | some a => performAt a s

/-- `s` with the instruction of the table's bits `w` stored where `step` takes its next action from. -/
def State.withFetchWord (s : State) (nbits w : Nat) : State := placeWord s nbits w

end Sys2Proof.Machine
end

