-- ==== Sys2Proof/Machine/Assembler.lean ====
section
/-!
DEFINITION. The assembler syntax of host actions and the pseudo-instructions (spec/30_encoding.md R75,
R76).
-/

namespace Sys2Proof.Machine

/-- The mnemonic of an opcode (R72). -/
def mnemonic : Opcode → String
  | .ldi => "LDI"
  | .lds => "LDS"
  | .cfgTdl => "CFG.TDL"
  | .cfgFof => "CFG.FOF"
  | .cfgOpl => "CFG.OPL"
  | .cfgFfc => "CFG.FFC"
  | .cfgFbc => "CFG.FBC"
  | .cfgTvd => "CFG.TVD"
  | .cfgDfc => "CFG.DFC"
  | .cfgOla => "CFG.OLA"
  | .advTdl => "ADV.TDL"
  | .advFof => "ADV.FOF"
  | .advOpl => "ADV.OPL"
  | .advFfc => "ADV.FFC"
  | .advFbc => "ADV.FBC"
  | .advTvd => "ADV.TVD"
  | .advOla => "ADV.OLA"
  | .dfcWr => "DFC.WR"
  | .dfcRun => "DFC.RUN"
  | .dfcRd => "DFC.RD"
  | .free => "FREE"

/-- The operands of a command as R75 writes them. -/
def asmOperands : Instr → String
  | .ldi idx => toString idx
  | .lds idx => toString idx
  | .cfgTdl slot count => "s" ++ toString slot ++ ", " ++ toString count
  | .cfgFof slot => "s" ++ toString slot
  | .cfgOpl slot => "s" ++ toString slot
  | .cfgFfc slot => "s" ++ toString slot
  | .cfgFbc slot => "s" ++ toString slot
  | .cfgTvd slot => "s" ++ toString slot
  | .cfgDfc slot => "s" ++ toString slot
  | .cfgOla slot => "s" ++ toString slot
  | .advTdl slot => "s" ++ toString slot
  | .advFof slot => "s" ++ toString slot
  | .advOpl slot => "s" ++ toString slot
  | .advFfc slot => "s" ++ toString slot
  | .advFbc slot => "s" ++ toString slot
  | .advTvd slot => "s" ++ toString slot
  | .advOla slot => "s" ++ toString slot
  | .dfcWr slot => "s" ++ toString slot
  | .dfcRun slot => "s" ++ toString slot
  | .dfcRd slot => "s" ++ toString slot
  | .free slot => "s" ++ toString slot

/-- The assembly line of a command (R75). -/
def asmInstr (i : Instr) : String := mnemonic i.opcode ++ " " ++ asmOperands i

/-- A number as R75 writes scalars, `p/q`, or `p` where `q` is 1. -/
def asmRat (q : Rat) : String :=
  if q.den = 1 then toString q.num else toString q.num ++ "/" ++ toString q.den

/-- The text of a value of `R`, where it is a rational. -/
def asmReal : RVal → Option String
  | .num q => some (asmRat q)
  | _ => none

/-- The assembly line of a host action (R75); `none` for a value that the syntax cannot write (an infinity,
a NaN, a negative zero, a complex that is no real), for a command word that is no command and for a
read-back of an operand register, for which R75 has no line (notes/assumptions/19.md). -/
def asmAction : HostAction → Option String
  | .setIarg v => some ("SET IARG, " ++ toString v.toNat)
  | .setXin v => if v.im = RVal.zero then (asmReal v.re).map ("SET XIN, " ++ ·) else none
  | .setDin d => (asmReal d).map ("SET DIN, " ++ ·)
  | .command w =>
    match decode w with
    | .ok i => some (asmInstr i)
    | .error _ => none
  | .getYout => some "GET YOUT"
  | .getFstat => some "GET FSTAT"
  | .getIarg => none
  | .getXin => none
  | .getDin => none

/-- The kinds that have an `ADV` command (R72: there is no `ADV.DFC`). -/
inductive AdvKind where
  | tdl | fof | opl | ffc | fbc | tvd | ola
deriving DecidableEq, Repr

/-- The `ADV` command of a kind. -/
def AdvKind.instr (k : AdvKind) (slot : Nat) : Instr :=
  match k with
  | .tdl => .advTdl slot
  | .fof => .advFof slot
  | .opl => .advOpl slot
  | .ffc => .advFfc slot
  | .fbc => .advFbc slot
  | .tvd => .advTvd slot
  | .ola => .advOla slot

/-- The host action that writes a command's word to `CMD`. -/
def commandOf (i : Instr) : HostAction := .command (encode i)

/-- An unsigned integer as the host writes it to `IARG`, whose values lie in `[0, 2^32)` (R10). DESIGN CHOICE
(notes/assumptions/21.md): a number of 2^32 or more, of which the spec does not say what the host writes
for it, is written modulo 2^32. -/
def iargOf (v : Nat) : HostAction := .setIarg (BitVec.ofNat 32 v)

/-- The pseudo-instructions of R76. `adv`, `run` and `flush` are R76's for a kind that is not TVD; the type admits
them for TVD too, with `DIN` as it stands (DESIGN CHOICE, notes/assumptions/26.md), and the assembler reader
refuses a line that says so. -/
inductive Pseudo where
  | ldi (idx v : Nat)
  | lds (idx : Nat) (v : Scalar)
  | ldiv (base : Nat) (vs : List Nat)
  | ldsv (base : Nat) (vs : List Scalar)
  | cfgTdl (slot k l : Nat)
  | adv (kind : AdvKind) (slot : Nat) (x : Scalar)
  | advTvd (slot : Nat) (x : Scalar) (d : RVal)
  | run (kind : AdvKind) (slot : Nat) (xs : List Scalar)
  | flush (kind : AdvKind) (slot n : Nat)
  | dfcWr (slot i : Nat) (v : Scalar)
  | dfcRd (slot i : Nat)
deriving DecidableEq, Repr

/-- `LDI <idx>, <v>` (R76). -/
def stageInt (idx v : Nat) : List HostAction := [iargOf v, commandOf (.ldi idx)]

/-- `LDS <idx>, <v>` (R76). -/
def stageScalar (idx : Nat) (v : Scalar) : List HostAction := [.setXin v, commandOf (.lds idx)]

/-- The actions that put one sample through a unit. For kind TVD `DIN` is left as it stands (DESIGN CHOICE,
notes/assumptions/26.md); `feedTvdActions` is R76's form for that kind. -/
def feedActions (kind : AdvKind) (slot : Nat) (x : Scalar) : List HostAction :=
  [.setXin x, commandOf (kind.instr slot)]

/-- The actions that put one sample through a TVD at delay `d`. -/
def feedTvdActions (slot : Nat) (x : Scalar) (d : RVal) : List HostAction :=
  [.setXin x, .setDin d, commandOf (.advTvd slot)]

/-- `ADV.<kind> s<slot>, <x>` (R76). -/
def advActions (kind : AdvKind) (slot : Nat) (x : Scalar) : List HostAction :=
  feedActions kind slot x ++ [.getYout]

/-- The host actions a pseudo-instruction stands for, in order (R76). -/
def Pseudo.expand : Pseudo → List HostAction
  | .ldi idx v => stageInt idx v
  | .lds idx v => stageScalar idx v
  | .ldiv base vs => (vs.mapIdx (fun i v => stageInt (base + i) v)).flatten
  | .ldsv base vs => (vs.mapIdx (fun i v => stageScalar (base + i) v)).flatten
  | .cfgTdl slot k l => [iargOf k, commandOf (.cfgTdl slot l)]
  | .adv kind slot x => advActions kind slot x
  | .advTvd slot x d => feedTvdActions slot x d ++ [.getYout]
  | .run kind slot xs => (xs.map (advActions kind slot)).flatten
  | .flush kind slot n => (List.replicate n (advActions kind slot Scalar.zero)).flatten
  | .dfcWr slot i v => [iargOf i, .setXin v, commandOf (.dfcWr slot)]
  | .dfcRd slot i => [iargOf i, commandOf (.dfcRd slot), .getYout]

end Sys2Proof.Machine
end

