-- ==== Sys2Proof/Machine/HostProcedures.lean ====
section
/-!
DEFINITION. The host-side procedures that drive the block (spec/49_host_composition.md R190 to R198,
spec/00_scope.md R5): sources and sinks, `process`, Series, Parallel, the MIMO filter, the freeverb
wiring, and the coefficient recipes of spec/42 R115 and R116 from their `γ` and `μ` on. They are no
operations of the block: each performs host actions and does scalar arithmetic of its own in `S`. A run of
a procedure that fails (R214, R219) ends in a `Fault`.
-/

namespace Sys2Proof.Machine

/-- The outcome of a host procedure: the state it leaves and its answer; or a failed run of the host, with the
state it failed in, so that what the host had read before stands in `outputs` (R214, R219); or a case the
spec gives no meaning. -/
inductive HostOutcome (α : Type) where
  | next (r : State × α)
  | failed (s : State) (f : Fault)
  | refused (r : Refusal)
deriving Repr

/-- `p`, then `k` of what it leaves; a failed run of the host stays failed. -/
def andThen {α β : Type} (p : HostOutcome α) (k : State → α → HostOutcome β) : HostOutcome β :=
  match p with
  | .next r => k r.1 r.2
  | .failed s f => .failed s f
  | .refused r => .refused r

/-- The answer `v`, unless the block is FAULTED: a run that ends FAULTED is a failed run and nothing may be said
of its outputs (R214; spec/93 U23). -/
def unlessFaulted {α : Type} (s : State) (v : α) : HostOutcome α :=
  if s.faulted then .failed s .blockFaulted else .next (s, v)

/-- Performs host actions in order; the block's `GET` readings stay in the state. -/
def performAll : List HostAction → State → HostOutcome Unit
  | [], s => .next (s, ())
  | a :: rest, s =>
    match perform a s with
    | .next t => performAll rest t
    | .fault f => .failed s f
    | .refused r => .refused r

/-- Performs host actions, then `GET YOUT`, and answers what it reads; on a FAULTED block, whose `YOUT` is
stale, the run has failed (R214). -/
def readingYout (actions : List HostAction) (s : State) : HostOutcome Scalar :=
  andThen (performAll actions s) (fun t _ =>
    andThen (unlessFaulted t t.yout) (fun t y => .next (t.withOutput y, y)))

/-- One sample through a unit: `SET XIN, x ; ADV.<k> s ; GET YOUT` (R192). DESIGN CHOICE
(notes/assumptions/26.md): for kind TVD, whose `DIN` R192 and R154 want supplied with every sample, the delay
is what `DIN` holds; `oneSampleAt` is the form with a delay stream. -/
def oneSample (kind : AdvKind) (slot : Nat) (x : Scalar) (s : State) : HostOutcome Scalar :=
  readingYout (feedActions kind slot x) s

/-- One sample through a TVD at delay `d` (R154, R192); without a delay the spec defines nothing. -/
def oneSampleAt (slot : Nat) (xd : Scalar × Option RVal) (s : State) : HostOutcome Scalar :=
  match xd.2 with
  | none => .refused .noDelayValue
  | some d => readingYout (feedTvdActions slot xd.1 d) s

/-- A sample source (R190): a finite list; `none` is terminal. -/
def readNext : List Scalar → Option (Scalar × List Scalar)
  | [] => none
  | x :: rest => some (x, rest)

/-- A sample sink (R191), bounded where `capacity` says so. -/
structure Sink where
  capacity : Option Nat
  items : List Scalar
deriving DecidableEq, Repr

/-- The sink of the spec: the program's output list, which is unbounded (R191). -/
def Sink.unbounded : Sink := { capacity := none, items := [] }

/-- `write_next` (R191): writing past a bounded sink is a host error (R219). -/
def writeNext (k : Sink) (v : Scalar) : Except Fault Sink :=
  match k.capacity with
  | none => .ok { k with items := k.items ++ [v] }
  | some n => if k.items.length < n then .ok { k with items := k.items ++ [v] } else .error .sinkOverflow

/-- One input after another through `one`, each output written to the sink before the next input is read
(R192); a sink that overflows fails the run. -/
def drain {α : Type} (one : α → State → HostOutcome Scalar) : List α → Sink → State → HostOutcome Sink
  | [], k, s => .next (s, k)
  | x :: xs, k, s =>
    andThen (one x s) (fun s1 y =>
      match writeNext k y with
      | .ok k1 => drain one xs k1 s1
      | .error f => .failed s1 f)

/-- The samples of `process` (R192): the source's, then `numTransients` zeros. -/
def withFlush (source : List Scalar) (numTransients : Nat) : List Scalar :=
  source ++ List.replicate numTransients Scalar.zero

/-- `process(source, sink, num_transients)` on the unit of kind `kind` in slot `slot` (R192). A TVD's delay stream
(R154, R256) is supplied by `processTvdTo`; this form leaves `DIN` as it stands (DESIGN CHOICE,
notes/assumptions/26.md). -/
def processTo (kind : AdvKind) (slot : Nat) (source : List Scalar) (sink : Sink) (numTransients : Nat) (s : State) :
    HostOutcome Sink :=
  andThen (drain (oneSample kind slot) (withFlush source numTransients) sink s) unlessFaulted

/-- `process` into the spec's unbounded sink (R191, R192): the values it receives. -/
def process (kind : AdvKind) (slot : Nat) (source : List Scalar) (numTransients : Nat) (s : State) :
    HostOutcome (List Scalar) :=
  andThen (processTo kind slot source Sink.unbounded numTransients s) (fun t k => .next (t, k.items))

/-- Each sample with the next value of the host's delay source, if there is one (R154). -/
def withDelays : List Scalar → List RVal → List (Scalar × Option RVal)
  | [], _ => []
  | x :: xs, [] => (x, none) :: withDelays xs []
  | x :: xs, d :: ds => (x, some d) :: withDelays xs ds

/-- `process` of a TVD: the delay stream goes on during the flush (R154, R192). -/
def processTvdTo (slot : Nat) (source : List Scalar) (delays : List RVal) (sink : Sink) (numTransients : Nat)
    (s : State) : HostOutcome Sink :=
  andThen (drain (oneSampleAt slot) (withDelays (withFlush source numTransients) delays) sink s) unlessFaulted

/-- `process` of a TVD into the spec's unbounded sink (R154, R191). -/
def processTvd (slot : Nat) (source : List Scalar) (delays : List RVal) (numTransients : Nat) (s : State) :
    HostOutcome (List Scalar) :=
  andThen (processTvdTo slot source delays Sink.unbounded numTransients s) (fun t k => .next (t, k.items))

/-- A graph of units (R193, R194): a unit in a slot, a Series, or a Parallel with its summation vector; `summing` is
the Parallel of R197 and R198, whose vector is all ones and whose results are added as they are
(notes/assumptions/16.md). Where a
TVD in a graph gets its `d` the spec does not say; here it is what `DIN` holds (DESIGN CHOICE,
notes/assumptions/26.md). The `lt` of a Parallel is "a length-`N` real vector" (R194); over a complex `S` the type
admits entries with an imaginary part too, and they multiply as any value of `S` does (DESIGN CHOICE,
notes/assumptions/27.md). -/
inductive Graph where
  | single (kind : AdvKind) (slot : Nat)
  | series (children : List Graph)
  | parallel (lt : List Scalar) (children : List Graph)
  | summing (children : List Graph)
deriving Repr

mutual

/-- The slots that a graph names, in order. -/
def Graph.slots : Graph → List Nat
  | .single _ slot => [slot]
  | .series children => slotsOf children
  | .parallel _ children => slotsOf children
  | .summing children => slotsOf children

/-- The slots that a list of graphs names. -/
def slotsOf : List Graph → List Nat
  | [] => []
  | g :: gs => g.slots ++ slotsOf gs

end

/-- `p`, for graphs in which every slot stands once. The block cannot detect that a unit appears twice (R199,
R251), and each command keeps its rule's effect; the host-level result of such a graph is `refuse`
(spec/93 U17). -/
def unlessAliased {α : Type} (graphs : List Graph) (p : HostOutcome α) : HostOutcome α :=
  if (slotsOf graphs).Nodup then p else .refused .aliasedUnit

mutual

/-- Whether every Series and every Parallel of a graph meets its constructor's invariant: a Series is not empty
(R193), and a Parallel has as many children as its summation vector has entries (R194). -/
def Graph.configured : Graph → Bool
  | .single _ _ => true
  | .series children => !children.isEmpty && allConfigured children
  | .parallel lt children => lt.length == children.length && allConfigured children
  | .summing children => allConfigured children

/-- Whether every graph of a list is configured. -/
def allConfigured : List Graph → Bool
  | [] => true
  | g :: gs => g.configured && allConfigured gs

end

/-- `p`, over graphs that could be constructed: a composer's configuration violation, at whatever depth, is a
failed run "detected at construction" (R210), before the first command. The graph being a value and not the
result of constructors, the model finds it where a procedure is given the graph, and before it asks whether a
slot stands twice (DEDUCED, notes/assumptions/25.md). -/
def constructed {α : Type} (graphs : List Graph) (s : State) (p : HostOutcome α) : HostOutcome α :=
  if allConfigured graphs then unlessAliased graphs p else .failed s .hostConfiguration

/-- The host's sum `((t[1] + t[2]) + ...) + t[N]`, left to right (R194, R198). DESIGN CHOICE
(notes/assumptions/23.md): of no terms, a Parallel without children, of which R194 says nothing, it is 0. -/
def sumUp (ar : Arith) : List Scalar → Scalar
  | [] => Scalar.zero
  | t :: ts => ts.foldl (sadd ar) t

/-- The host's sum of the products `lt[i]·r[i]` (R194, R195). -/
def weightedSum (ar : Arith) (lt rs : List Scalar) : Scalar := sumUp ar (List.zipWith (smul ar) lt rs)

mutual

/-- One sample through a graph (R193, R194). An empty Series, and a summation vector whose length is not the
number of children, are host configuration violations, which `constructed` finds before any sample. -/
def runGraph : Graph → Scalar → State → HostOutcome Scalar
  | .single kind slot, x, s => oneSample kind slot x s
  | .series [], _, s => .failed s .hostConfiguration
  | .series (g :: gs), x, s => andThen (runGraph g x s) (fun s1 v => runSeries gs v s1)
  | .parallel lt children, x, s =>
    if lt.length = children.length then
      andThen (runEach children x s) (fun s1 rs => .next (s1, weightedSum s.params.arith lt rs))
    else .failed s .hostConfiguration
  | .summing children, x, s =>
    andThen (runEach children x s) (fun s1 rs => .next (s1, sumUp s1.params.arith rs))

/-- The rest of a Series: each child gets the output of the one before (R193). -/
def runSeries : List Graph → Scalar → State → HostOutcome Scalar
  | [], v, s => .next (s, v)
  | g :: gs, v, s => andThen (runGraph g v s) (fun s1 v1 => runSeries gs v1 s1)

/-- The children of a Parallel, each on the same `x`, in order (R194). -/
def runEach : List Graph → Scalar → State → HostOutcome (List Scalar)
  | [], _, s => .next (s, [])
  | g :: gs, x, s =>
    andThen (runGraph g x s) (fun s1 r => andThen (runEach gs x s1) (fun s2 rs => .next (s2, r :: rs)))

end

/-- `advance(x)` of a graph (R193, R194) that could be constructed (R210) and keeps the contract of R199. -/
def advanceGraph (g : Graph) (x : Scalar) (s : State) : HostOutcome Scalar :=
  constructed [g] s (andThen (runGraph g x s) unlessFaulted)

/-- A MIMO IIR filter (R195). -/
structure Mimo where
  inputScale : Scalar
  outputLt : List (List Scalar)
  filters : List Graph
deriving Repr

/-- `p`, for a filter that meets the invariants of R195, those of its filters' composers and the contract of R199,
all before the first command (R210; notes/assumptions/25.md). `M ≠ N` is refused (spec/93 U10); a matrix row
whose length is not the number of children is a host configuration violation. -/
def Mimo.checked {α : Type} (m : Mimo) (s : State) (p : HostOutcome α) : HostOutcome α :=
  if m.outputLt.length ≠ m.filters.length then .refused .mimoNotSquare
  else if m.outputLt.any (fun row => row.length != m.filters.length) then .failed s .hostConfiguration
  else constructed m.filters s p

/-- Each channel's filter on its own sample (R195). DESIGN CHOICE (notes/assumptions/32.md): the channels are
"parallelisable" and the spec gives no order of them; here the first runs first. -/
def advanceChannels : List Graph → List Scalar → State → HostOutcome (List Scalar)
  | g :: gs, x :: xs, s =>
    andThen (runGraph g x s) (fun s1 u =>
      andThen (advanceChannels gs xs s1) (fun s2 us => .next (s2, u :: us)))
  | _, _, s => .next (s, [])

/-- The outputs of a MIMO filter (R195): `y[r] = input_scale·x[r] + Σ_c output_lt[r][c]·u[c]`. -/
def Mimo.mix (m : Mimo) (ar : Arith) (x us : List Scalar) : List Scalar :=
  (m.outputLt.zip x).map (fun p => sadd ar (smul ar m.inputScale p.2) (weightedSum ar p.1 us))

/-- `advance(x)` of a MIMO filter for `M = N` (R195); a vector whose length is not `N` is a host configuration
violation. -/
def mimoAdvance (m : Mimo) (x : List Scalar) (s : State) : HostOutcome (List Scalar) :=
  m.checked s
    (if x.length ≠ m.filters.length then .failed s .hostConfiguration
     else
       andThen (advanceChannels m.filters x s) (fun s1 us => unlessFaulted s1 (m.mix s1.params.arith x us)))

/-- One value written to each sink, in order (R196); sinks that are not as many as the outputs are a host
configuration violation. -/
def writeAll : List Sink → List Scalar → Except Fault (List Sink)
  | [], [] => .ok []
  | k :: ks, v :: vs =>
    match writeNext k v, writeAll ks vs with
    | .ok k1, .ok ks1 => .ok (k1 :: ks1)
    | .error f, _ => .error f
    | _, .error f => .error f
  | _, _ => .error .hostConfiguration

/-- One vector through a MIMO filter, its outputs into the sinks (R196). -/
def mimoVector (m : Mimo) (x : List Scalar) (sinks : List Sink) (s : State) : HostOutcome (List Sink) :=
  andThen (mimoAdvance m x s) (fun s1 y =>
    match writeAll sinks y with
    | .ok ks => .next (s1, ks)
    | .error f => .failed s1 f)

/-- The flush of R196: `n` zero vectors. -/
def mimoFlush (m : Mimo) : Nat → List Sink → State → HostOutcome (List Sink)
  | 0, sinks, s => .next (s, sinks)
  | n + 1, sinks, s =>
    andThen (mimoVector m (m.filters.map (fun _ => Scalar.zero)) sinks s) (fun s1 ks => mimoFlush m n ks s1)

/-- The MIMO driver (R196) on a first source and the rest: vectors as long as every source yields, then
`numTransients` zero vectors; a source that ends before another is a host error. -/
def mimoFeed (m : Mimo) (numTransients : Nat) :
    List Scalar → List (List Scalar) → List Sink → State → HostOutcome (List Sink)
  | [], rest, sinks, s =>
    if rest.all List.isEmpty then mimoFlush m numTransients sinks s else .failed s .streamLengthMismatch
  | x :: xs, rest, sinks, s =>
    match rest.mapM readNext with
    | some heads =>
      andThen (mimoVector m (x :: heads.map Prod.fst) sinks s) (fun s1 ks =>
        mimoFeed m numTransients xs (heads.map Prod.snd) ks s1)
    | none => .failed s .streamLengthMismatch

/-- `process` of a MIMO filter (R196): "a list of `N` sources", "a list of `M` sinks". DESIGN CHOICE
(notes/assumptions/24.md): a list of sources that are not `N`, or of sinks that are not `M`, of which the spec
says nothing, is a host configuration violation before the first vector; so is a filter with no channel,
none of whose sources could end. -/
def mimoProcess (m : Mimo) (sources : List (List Scalar)) (sinks : List Sink) (numTransients : Nat) (s : State) :
    HostOutcome (List Sink) :=
  m.checked s
    (if sources.length ≠ m.filters.length ∨ sinks.length ≠ m.filters.length then .failed s .hostConfiguration
     else
       match sources with
       | [] => .failed s .hostConfiguration
       | first :: rest => andThen (mimoFeed m numTransients first rest sinks s) unlessFaulted)

/-- The parameters of the freeverb factory (R197). -/
structure Freeverb where
  stereoSpread : Int
  dry : Scalar
  wet1 : Scalar
  wet2 : Scalar
  damp : Scalar
  reflect : Scalar
  g : Scalar
deriving DecidableEq, Repr

/-- The default parameters at effect level (R197). -/
def freeverbDefault : Freeverb :=
  { stereoSpread := 23, dry := .ofRat 0, wet1 := .ofRat 1, wet2 := .ofRat 0, damp := .ofRat (1 / 5),
    reflect := .ofRat (21 / 25), g := .ofRat (1 / 2) }

/-- The left comb delays of R197. -/
def combDelays : List Nat := [1557, 1617, 1491, 1422, 1277, 1356, 1188, 1116]

/-- The left all-pass delays of R197. -/
def allPassDelays : List Nat := [225, 556, 441, 341]

/-- A channel's delays: the right channel adds `stereo_spread` to each. A negative delay cannot be staged
(spec/93 U25). DESIGN CHOICE (notes/assumptions/21.md): nor can one of 2^32 or more, which no cell of `PI`
holds (R10), and it is refused likewise. -/
def channelDelays (spread : Int) (delays : List Nat) : Except Refusal (List Nat) :=
  delays.mapM (fun d =>
    if (d : Int) + spread < 0 then .error .negativeDelay
    else if 2 ^ 32 ≤ (d : Int) + spread then .error .delayTooLarge
    else .ok ((d : Int) + spread).toNat)

/-- Stages and configures one comb of freeverb: `α = reflect·(1 − damp)`, `β = damp` (R197). The order of the
staging is the model's choice (notes/assumptions/28.md). -/
def freeverbComb (ar : Arith) (f : Freeverb) (slot delay : Nat) : List HostAction :=
  stageScalar 0 (smul ar f.reflect (ssub ar (.ofRat 1) f.damp)) ++ stageScalar 1 f.damp ++
    stageInt 0 delay ++ [commandOf (.cfgFbc slot)]

/-- Stages and configures one all-pass of freeverb: `(b_0, b_1, a) = (−1, 1+g, g)` (R197). The order of the
staging is the model's choice (notes/assumptions/28.md). -/
def freeverbAllPass (ar : Arith) (f : Freeverb) (slot delay : Nat) : List HostAction :=
  stageScalar 0 (.ofRat (-1)) ++ stageScalar 1 (sadd ar (.ofRat 1) f.g) ++ stageScalar 2 f.g ++
    stageInt 0 delay ++ [commandOf (.cfgFfc slot)]

/-- One channel of freeverb in the 12 slots from `base`: its 8 combs, then its 4 all-passes (R197). That they lie
in this order is the model's choice (notes/assumptions/22.md), and so is that they are built in it
(notes/assumptions/28.md). -/
def freeverbChannel (ar : Arith) (f : Freeverb) (base : Nat) (spread : Int) : Except Refusal (List HostAction) :=
  match channelDelays spread combDelays, channelDelays spread allPassDelays with
  | .ok cs, .ok ps =>
    .ok ((cs.mapIdx (fun i d => freeverbComb ar f (base + i) d)).flatten ++
         (ps.mapIdx (fun i d => freeverbAllPass ar f (base + 8 + i) d)).flatten)
  | .error e, _ => .error e
  | _, .error e => .error e

/-- The host actions that build freeverb in its 24 slots (R197). DESIGN CHOICE (notes/assumptions/22.md): which
slots these are the spec leaves open; the left channel takes 0 to 11 and the right channel 12 to 23. DESIGN
CHOICE (notes/assumptions/28.md): so is the order in which the units are staged and configured, which decides
the first fault and what staging is left; the left channel comes first, in each channel the combs. -/
def freeverbSetup (ar : Arith) (f : Freeverb) : Except Refusal (List HostAction) :=
  match freeverbChannel ar f 0 0, freeverbChannel ar f 12 f.stereoSpread with
  | .ok l, .ok r => .ok (l ++ r)
  | .error e, _ => .error e
  | _, .error e => .error e

/-- One channel's filter (R197): `Series(Parallel(8 × FBC), Series(4 × FFC))`, over the slots that
`freeverbChannel` builds; the Parallel's vector is all ones (R197, R198). -/
def freeverbGraph (base : Nat) : Graph :=
  .series
    [.summing ((List.range 8).map (fun i => .single .fbc (base + i))),
     .series ((List.range 4).map (fun i => .single .ffc (base + 8 + i)))]

/-- The MIMO filter of freeverb (R197); one stereo sample of it is R198. -/
def freeverbMimo (f : Freeverb) : Mimo :=
  { inputScale := f.dry
    outputLt := [[f.wet1, f.wet2], [f.wet2, f.wet1]]
    filters := [freeverbGraph 0, freeverbGraph 12] }

/-- The coefficients that a designer hands to `CFG.FOF`, from its `γ` on (R115, R116). -/
structure FofDesign where
  dry : Rat
  wet : Rat
  a0 : Rat
  a1 : Rat
  b1 : Rat
  type : FofType
deriving DecidableEq, Repr

/-- `γ` of the lowpass and the highpass from `cos θ_c` and `sin θ_c` (R115). DESIGN CHOICE (notes/assumptions/31.md):
where the denominator is 0, of which the spec says nothing, the division of the rationals answers 0. -/
def passGamma (cosTheta sinTheta : Rat) : Rat := cosTheta / (1 + sinTheta)

/-- `γ` of a shelf from its `β` and `tan(θ_c / 2)` (R116); 0 where the denominator is 0 (DESIGN CHOICE,
notes/assumptions/31.md). -/
def shelfGamma (β tanHalf : Rat) : Rat := (1 - β * tanHalf) / (1 + β * tanHalf)

/-- `β` of the low shelf from `μ` (R116); 0 for `μ = −1`, which no gain gives (DESIGN CHOICE,
notes/assumptions/31.md). -/
def lowShelfBeta (μ : Rat) : Rat := 4 / (1 + μ)

/-- `β` of the high shelf from `μ` (R116). -/
def highShelfBeta (μ : Rat) : Rat := (1 + μ) / 4

/-- The lowpass recipe (R115). -/
def designLowpass (γ : Rat) : FofDesign :=
  { dry := 0, wet := 1, a0 := (1 - γ) / 2, a1 := (1 - γ) / 2, b1 := -γ, type := .lowpass }

/-- The highpass recipe (R115). -/
def designHighpass (γ : Rat) : FofDesign :=
  { dry := 0, wet := 1, a0 := (1 + γ) / 2, a1 := -((1 + γ) / 2), b1 := -γ, type := .highpass }

/-- The low-shelf recipe (R116). -/
def designLowShelf (γ μ : Rat) : FofDesign :=
  { dry := 1, wet := μ - 1, a0 := (1 - γ) / 2, a1 := (1 - γ) / 2, b1 := -γ, type := .lowshelf }

/-- The high-shelf recipe (R116). -/
def designHighShelf (γ μ : Rat) : FofDesign :=
  { dry := 1, wet := μ - 1, a0 := (1 + γ) / 2, a1 := -((1 + γ) / 2), b1 := -γ, type := .highshelf }

end Sys2Proof.Machine
end

