-- ==== Sys2Proof/Safety.lean ====
section
/-!
DEFINITION. What a good state and a good run are, in the terms the statements use: the state invariants
of spec/10_state.md R39, the legal images of `FSTAT` (R26), and how a run ends
(spec/70_reset_and_hazards.md R246).
-/

namespace Sys2Proof.Machine

/-- A unit buffer of `n` cells, in canonical form. -/
abbrev BufferOk (m : Memory Scalar) (n : Nat) : Prop := Memory.wf Scalar.zero m ∧ Memory.within m n

/-- R39 items 1 and 3, and what `CFG.TDL` fixes (R30, R100). -/
abbrev Tdl.Ok (p : Params) (u : Tdl) : Prop :=
  u.delays.length = u.k ∧ u.coeffs.length = u.k + 1 ∧ u.cap = tdlCap u.delays ∧ 1 ≤ u.cap ∧
  u.cap ≤ p.capmax ∧ (∀ d ∈ u.delays, d ≤ u.cap) ∧ BufferOk u.buf u.cap ∧ u.w < u.cap

/-- What `CFG.OPL` fixes (R113). -/
abbrev Opl.Ok (u : Opl) : Prop := absLtOne u.beta = true

/-- R39 item 1 and what `CFG.FFC` fixes (R33, R130). -/
abbrev Ffc.Ok (p : Params) (u : Ffc) : Prop :=
  1 ≤ u.m ∧ absLtOne u.a = true ∧ 2 * u.m ≤ p.capmax ∧ BufferOk u.bufIn u.m ∧ BufferOk u.bufOut u.m ∧
  u.w < u.m

/-- R39 item 1 and what `CFG.FBC` fixes (R34, R133). -/
abbrev Fbc.Ok (p : Params) (u : Fbc) : Prop :=
  1 ≤ u.m ∧ absLtOne u.beta = true ∧ u.m ≤ p.capmax ∧ BufferOk u.bufOut u.m ∧ u.w < u.m

/-- R39 item 1 and what `CFG.TVD` fixes (R35, R150). -/
abbrev Tvd.Ok (p : Params) (u : Tvd) : Prop :=
  1 ≤ u.maxDelay ∧ u.maxDelay ≤ p.capmax ∧ BufferOk u.buf u.maxDelay ∧ u.w < u.maxDelay

/-- R39 item 4 and what the construction fixes (R36, R160): `in` lists no cell at or above
`input_size`, so those cells read zero. -/
abbrev Dfc.Ok (u : Dfc) : Prop :=
  1 ≤ u.inputSize ∧ 1 ≤ u.filterSize ∧ u.h.length = u.filterSize ∧
  u.outputSize = u.inputSize + u.filterSize - 1 ∧ u.fftSize = nextPow2 u.outputSize ∧
  BufferOk u.input u.inputSize ∧ BufferOk u.output u.fftSize

/-- R39 items 1 and 5 and what `CFG.OLA` fixes (R37, R180); `write_idx` is a multiple of `window_size`
taken modulo `output_size`. -/
abbrev Ola.Ok (p : Params) (u : Ola) : Prop :=
  u.dfc.Ok ∧ u.dfc.inputSize = u.windowSize ∧ u.dfc.filterSize = u.filterSize ∧
  u.numTransients = u.filterSize - 1 ∧ u.outputSize = u.windowSize + u.filterSize - 1 ∧
  2 * u.dfc.fftSize + u.outputSize ≤ p.capmax ∧ BufferOk u.ring u.outputSize ∧
  (∃ q < u.outputSize, u.writeIdx = q * u.windowSize % u.outputSize) ∧
  u.inputIdx < u.windowSize ∧ u.outputIdx < u.outputSize

/-- The invariant of a unit (R39), as a test that can be evaluated. -/
def FilterUnit.ok (p : Params) : FilterUnit → Bool
  | .tdl u => decide (u.Ok p)
  | .fof _ => true
  | .opl u => decide u.Ok
  | .ffc u => decide (u.Ok p)
  | .fbc u => decide (u.Ok p)
  | .tvd u => decide (u.Ok p)
  | .dfc u => decide (u.Ok ∧ 2 * u.fftSize ≤ p.capmax)
  | .ola u => decide (u.Ok p)

/-- The invariant of a slot's content: an empty slot is good. -/
def slotOk (p : Params) : Option FilterUnit → Bool
  | none => true
  | some u => u.ok p

/-- A legal image of `FSTAT` (R26, R211): cause 0 to 8, reserved bits 0, and all 0 where no fault has
occurred. -/
abbrev FstatOk (f : Word) : Prop :=
  fstatCause f ≤ 8 ∧ fstatReserved f = 0 ∧ (fstatCause f = 0 → f = 0)

/-- Every occupied slot holds a good unit. -/
abbrev SlotsOk (p : Params) (m : Memory (Option FilterUnit)) : Prop :=
  Memory.wf none m ∧ Memory.within m p.nslots ∧ ∀ c ∈ m, slotOk p c.2 = true

/-- The invariant of the machine: R7, R26 to R29, R39, and the canonical form of every memory. -/
abbrev Inv (s : State) : Prop :=
  s.params.Ok ∧ FstatOk s.fstat ∧
  (Memory.wf 0 s.pi ∧ Memory.within s.pi s.params.npi) ∧
  (Memory.wf Scalar.zero s.ps ∧ Memory.within s.ps s.params.nps) ∧
  SlotsOk s.params s.slots ∧ s.cp ≤ s.program.length

/-- The kinds that are specified for a real `S` only (R8). -/
def Kind.realOnly : Kind → Bool
  | .fof | .opl | .dfc | .ola => true
  | .none | .tdl | .ffc | .fbc | .tvd => false

/-- Every value of `S` that a unit holds. -/
def FilterUnit.scalars : FilterUnit → List Scalar
  | .tdl u => u.coeffs ++ u.buf.map Prod.snd
  | .fof u => [u.dry, u.wet, u.a0, u.a1, u.b1, u.xPrev, u.yPrev]
  | .opl u => [u.alpha, u.beta, u.lp]
  | .ffc u => [u.b0, u.b1, u.a] ++ u.bufIn.map Prod.snd ++ u.bufOut.map Prod.snd
  | .fbc u => [u.alpha, u.beta, u.lp] ++ u.bufOut.map Prod.snd
  | .tvd u => [u.a, u.b] ++ u.buf.map Prod.snd
  | .dfc u => u.h ++ u.input.map Prod.snd ++ u.output.map Prod.snd
  | .ola u => u.dfc.h ++ u.dfc.input.map Prod.snd ++ u.dfc.output.map Prod.snd ++ u.ring.map Prod.snd

/-- A slot's content in an instance: its unit is of a kind that is specified for the instance's `S` (R8), and holds
values of that `S` (R7, R29). -/
def slotValuesOk (ar : Arith) : Option FilterUnit → Bool
  | none => true
  | some u => u.scalars.all (hasScalar ar) && decide (ar = .complex → u.kind.realOnly = false)

/-- A `SET` action of an instance writes a value of its `S` or `R` (R22, R23). -/
def HostAction.valuesOk (ar : Arith) : HostAction → Bool
  | .setXin v => hasScalar ar v
  | .setDin d => hasReal ar d
  | _ => true

/-- Every value of `S` and of `R` that the machine holds is one of the instance (R7, R9): in the exact instance a
rational, in a real one a real. -/
abbrev ValuesOk (s : State) : Prop :=
  hasScalar s.params.arith s.xin = true ∧ hasReal s.params.arith s.din = true ∧
  hasScalar s.params.arith s.yout = true ∧ (∀ c ∈ s.ps, hasScalar s.params.arith c.2 = true) ∧
  (∀ c ∈ s.slots, slotValuesOk s.params.arith c.2 = true) ∧
  (∀ a ∈ s.program, a.valuesOk s.params.arith = true) ∧ ∀ v ∈ s.outputs, hasScalar s.params.arith v = true

/-- A unit with its running fields as right after its `CFG`: what is left are its configuration fields
(R29). -/
def FilterUnit.configPart : FilterUnit → FilterUnit
  | .tdl u => .tdl { u with buf := [], w := 0 }
  | .fof u => .fof { u with xPrev := Scalar.zero, yPrev := Scalar.zero }
  | .opl u => .opl { u with lp := Scalar.zero }
  | .ffc u => .ffc { u with bufIn := [], bufOut := [], w := 0 }
  | .fbc u => .fbc { u with lp := Scalar.zero, bufOut := [], w := 0 }
  | .tvd u => .tvd { u with buf := [], w := 0 }
  | .dfc u => .dfc { u with input := [], output := [] }
  | .ola u =>
    .ola { u with dfc := { u.dfc with input := [], output := [] }, ring := [], writeIdx := 0,
                  inputIdx := 0, outputIdx := 0 }

/-- The block takes commands and `slot` names a slot: what R93 asks of a slot command before it looks at
the slot's content. -/
abbrev Ready (s : State) (slot : Nat) : Prop := s.faulted = false ∧ slot < s.params.nslots

/-- `Ready`, in an instance whose `S` is real: what the kinds FOF, OPL, DFC and OLA ask besides (R8). -/
abbrev ReadyReal (s : State) (slot : Nat) : Prop := Ready s slot ∧ s.params.arith ≠ .complex

/-- The kind of unit that a `CFG.*` command builds (R72, group 1). -/
def buildsKind : Opcode → Option Kind
  | .cfgTdl => some .tdl
  | .cfgFof => some .fof
  | .cfgOpl => some .opl
  | .cfgFfc => some .ffc
  | .cfgFbc => some .fbc
  | .cfgTvd => some .tvd
  | .cfgDfc => some .dfc
  | .cfgOla => some .ola
  | _ => none

/-- The commands `CFG.*` (R72, group 1). -/
def configures (o : Opcode) : Bool := (buildsKind o).isSome

/-- The kind that an `ADV.*` or `DFC.*` command needs in its slot (R93 step 3). -/
def needsKind : Opcode → Option Kind
  | .advTdl => some .tdl
  | .advFof => some .fof
  | .advOpl => some .opl
  | .advFfc => some .ffc
  | .advFbc => some .fbc
  | .advTvd => some .tvd
  | .advOla => some .ola
  | .dfcWr | .dfcRun | .dfcRd => some .dfc
  | _ => none

/-- The commands of the kinds that are specified for a real `S` only (R8). -/
def realOnlyCommand (o : Opcode) : Bool :=
  ((buildsKind o).or (needsKind o)).any Kind.realOnly

/-- The commands that write `YOUT` when they complete: `ADV.*` and `DFC.RD` (R24). -/
def writesYout (o : Opcode) : Bool :=
  match needsKind o with
  | none => false
  | some .dfc => o == .dfcRd
  | some _ => true

/-- `x[n − d]` of a list of samples, `0` for a negative index (R102). -/
def past (xs : List Scalar) (n d : Nat) : Scalar := if d ≤ n then xs.getD (n - d) Scalar.zero else Scalar.zero

/-- The ring buffer `buf` of `cap` cells with write index `w` holds the last `cap` samples of `xs` (R102):
`buf[(w − j) mod cap] = x[n − j]` for `1 ≤ j ≤ cap`, where `x[n]` is the next sample. -/
abbrev RingHolds (buf : Memory Scalar) (w cap : Nat) (xs : List Scalar) : Prop :=
  ∀ j, 1 ≤ j → j ≤ cap → cell buf (((w : Int) - (j : Int)) % (cap : Int)).toNat = past xs xs.length j

/-- `x[n − d]` of a list of rational samples, 0 for a negative index. -/
def pastRat (xs : List Rat) (n d : Nat) : Rat := if d ≤ n then xs.getD (n - d) 0 else 0

/-- `y[n] = Σ_j h[j]·x[n − j]` over the rationals, with `x` zero outside its list (R13). -/
def convRat (h x : List Rat) (n : Nat) : Rat :=
  ((List.range h.length).map (fun j => h.getD j 0 * pastRat x n j)).sum

/-- The host's action list is exhausted (R246). -/
def State.runEnded (s : State) : Prop := s.program.length ≤ s.cp

/-- The run has ended normally (R246). -/
def State.endsNormally (s : State) : Prop := s.runEnded ∧ s.faulted = false

/-- The run has ended failed (R214, R246). -/
def State.endsFailed (s : State) : Prop := s.runEnded ∧ s.faulted = true

end Sys2Proof.Machine
end

