-- ==== Sys2Proof/Certificates/Slice0/Obligations.lean ====
section
/-!
DEFINITION. The statements about the model, for the provers. Each formalises a numbered rule of spec/ or is
derived from the sections its entry in OBLIGATIONS.json cites. `raise` in a conclusion is the fault
entry of R213, itself stated by `FstatRecordsTheFault`.
-/

open Sys2Proof
open Sys2Proof.Machine

/-! ### The encoding (spec/30_encoding.md) -/

/-- Decoding the word of a well-formed command gives the command back. -/
def Obligations.DecodeOfEncodeIsTheCommand : Prop :=
  ∀ i : Instr, i.wellFormed = true → decode (encode i) = .ok i

/-- A word that decodes is the word of the command it decodes to, which is well-formed. -/
def Obligations.EncodeOfDecodeIsTheWord : Prop :=
  ∀ (w : Word) (i : Instr), decode w = .ok i → i.wellFormed = true ∧ encode i = w

/-- R72: the opcode map; that a word is a row's command exactly when `w AND mask = match`; and the groups and
kind codes that `OP` is made of. -/
def Obligations.WordIsCommandIffMaskedMatch : Prop :=
  Opcode.all.map (fun o => (mnemonic o, o.code, o.matchBits, o.mask)) =
    [("LDI", 0x01, 0x00000001, 0x0000FFFF), ("LDS", 0x02, 0x00000002, 0x0000FFFF),
     ("CFG.TDL", 0x11, 0x00000011, 0x000000FF), ("CFG.FOF", 0x12, 0x00000012, 0xFFFF00FF),
     ("CFG.OPL", 0x13, 0x00000013, 0xFFFF00FF), ("CFG.FFC", 0x14, 0x00000014, 0xFFFF00FF),
     ("CFG.FBC", 0x15, 0x00000015, 0xFFFF00FF), ("CFG.TVD", 0x16, 0x00000016, 0xFFFF00FF),
     ("CFG.DFC", 0x17, 0x00000017, 0xFFFF00FF), ("CFG.OLA", 0x18, 0x00000018, 0xFFFF00FF),
     ("ADV.TDL", 0x21, 0x00000021, 0xFFFF00FF), ("ADV.FOF", 0x22, 0x00000022, 0xFFFF00FF),
     ("ADV.OPL", 0x23, 0x00000023, 0xFFFF00FF), ("ADV.FFC", 0x24, 0x00000024, 0xFFFF00FF),
     ("ADV.FBC", 0x25, 0x00000025, 0xFFFF00FF), ("ADV.TVD", 0x26, 0x00000026, 0xFFFF00FF),
     ("ADV.OLA", 0x28, 0x00000028, 0xFFFF00FF), ("DFC.WR", 0x30, 0x00000030, 0xFFFF00FF),
     ("DFC.RUN", 0x31, 0x00000031, 0xFFFF00FF), ("DFC.RD", 0x32, 0x00000032, 0xFFFF00FF),
     ("FREE", 0x40, 0x00000040, 0xFFFF00FF)] ∧
  (∀ (w : Word) (o : Opcode), (∃ i, decode w = .ok i ∧ i.opcode = o) ↔ w &&& o.mask = o.matchBits) ∧
  (∀ o k, buildsKind o = some k → o.code / 16 = 1 ∧ o.code % 16 = k.code) ∧
  ∀ o k, needsKind o = some k → (o.code / 16 = 2 ∧ o.code % 16 = k.code) ∨ (o.code / 16 = 3 ∧ k = .dfc)

/-- R73: which words are illegal, that executing one raises `ILLEGAL_OP`, and that a slot number at or above
`NSLOTS` is no illegal word but raises `SLOT_STATE`. -/
def Obligations.IllegalWordsAreExactlyThese : Prop :=
  ∀ w : Word,
    ((∃ e, decode w = .error e) ↔
      (opField w ∉ [0x01, 0x02, 0x11, 0x12, 0x13, 0x14, 0x15, 0x16, 0x17, 0x18, 0x21, 0x22, 0x23, 0x24, 0x25,
                    0x26, 0x28, 0x30, 0x31, 0x32, 0x40] ∨
       (opField w ∉ [0x01, 0x02, 0x11] ∧ idxField w ≠ 0) ∨
       (opField w ∈ [0x01, 0x02] ∧ slotField w ≠ 0))) ∧
    (∀ (s : State) (e : DecodeError), s.faulted = false → decode w = .error e →
      issue w s = .next (raise .illegalOp w s)) ∧
    ∀ (s : State) (i : Instr) (slot : Nat), s.faulted = false → decode w = .ok i → i.slot? = some slot →
      s.params.nslots ≤ slot → issue w s = .next (raise .slotState w s)

/-- Words written out from the opcode map decode to their commands, one of each group of R72. -/
def Obligations.SampleWordsDecodeToTheirCommands : Prop :=
  decode 0x000F0002 = .ok (.lds 15) ∧
  decode 0xFFFFFF11 = .ok (.cfgTdl 255 65535) ∧
  decode 0x00000214 = .ok (.cfgFfc 2) ∧
  decode 0x00000526 = .ok (.advTvd 5) ∧
  decode 0x0000FF28 = .ok (.advOla 255) ∧
  decode 0x00000331 = .ok (.dfcRun 3) ∧
  decode 0x00000140 = .ok (.free 1) ∧
  decode 0x00000027 = .error (.unassignedOp 0x27)

/-! ### A step of the machine (spec/10_state.md R20 to R25, spec/40 R93) -/

/-- Where the next host action is a word that decodes to a command and the block is not FAULTED, the step is
the command, and then `cp` is one more. The command always answers a next state where `S` is real; it never
ends in a fault of the model, and a refusal is the step's. -/
def Obligations.StepRunsTheDecodedCommand : Prop :=
  ∀ (s : State) (w : Word) (i : Instr), s.nextAction? = some (.command w) → s.faulted = false →
    decode w = .ok i →
    (∀ t, exec i s = .next t → step s = .next (t.withCp (s.cp + 1))) ∧
    (∀ r, exec i s = .refused r → step s = .refused r) ∧ (∀ f, exec i s ≠ .fault f) ∧
    (s.params.arith ≠ .complex → ∃ t, exec i s = .next t)

/-- The `SET` and `GET` actions, in the FAULTED state too: each writes or reads its register, and `cp` is
one more; and the read-back of an operand register, which R42 allows. That what the host reads is kept in a
field is the model's own (notes/assumptions/3.md). -/
def Obligations.StepPerformsSetAndGetActions : Prop :=
  ∀ s : State,
    (∀ v, s.nextAction? = some (.setIarg v) → step s = .next ((s.withIarg v).withCp (s.cp + 1))) ∧
    (∀ v, s.nextAction? = some (.setXin v) → step s = .next ((s.withXin v).withCp (s.cp + 1))) ∧
    (∀ v, s.nextAction? = some (.setDin v) → step s = .next ((s.withDin v).withCp (s.cp + 1))) ∧
    (s.nextAction? = some .getYout → step s = .next ((s.withOutput s.yout).withCp (s.cp + 1))) ∧
    (s.nextAction? = some .getFstat → step s = .next ((s.withStatusRead s.fstat).withCp (s.cp + 1))) ∧
    (s.nextAction? = some .getIarg → step s = .next ((s.withOperandRead (.iarg s.iarg)).withCp (s.cp + 1))) ∧
    (s.nextAction? = some .getXin → step s = .next ((s.withOperandRead (.xin s.xin)).withCp (s.cp + 1))) ∧
    (s.nextAction? = some .getDin → step s = .next ((s.withOperandRead (.din s.din)).withCp (s.cp + 1)))

/-- When the host's list is exhausted nothing changes any more: the model's choice of what a step is there
(notes/assumptions/3.md), after R246. -/
def Obligations.StepWaitsAtTheEndOfTheList : Prop :=
  ∀ s : State, s.program.length ≤ s.cp → step s = .next s

/-- Every step of the machine answers a next state where `S` is real. Where it is complex the one stop is that of a
command of a kind that is specified for a real `S` only (R8). -/
def Obligations.EveryStepAnswersANextState : Prop :=
  ∀ s : State,
    (s.params.arith ≠ .complex → ∃ t, step s = .next t) ∧
    ((∃ t, step s = .next t) ∨
      (step s = .refused .needsRealScalar ∧ s.faulted = false ∧
        ∃ w i, s.nextAction? = some (.command w) ∧ decode w = .ok i ∧ realOnlyCommand i.opcode = true))

/-- An illegal word raises `ILLEGAL_OP`: `FSTAT` holds its cause and the two fields of the word, and nothing
else changes but `cp`. -/
def Obligations.IllegalWordLatchesIllegalOp : Prop :=
  ∀ (s : State) (w : Word) (e : DecodeError), s.nextAction? = some (.command w) → s.faulted = false →
    decode w = .error e →
    ∃ f : Word, step s = .next ((s.withFstat f).withCp (s.cp + 1)) ∧
      bits f 7 0 = 1 ∧ bits f 15 8 = bits w 15 8 ∧ bits f 23 16 = bits w 7 0 ∧ bits f 31 24 = 0

/-! ### Faults (spec/60_exceptions.md) -/

/-- R212: what a fault records, with the codes of R211, and that it changes nothing else. -/
def Obligations.FstatRecordsTheFault : Prop :=
  [FaultCause.illegalOp, .slotState, .indexRange, .cfgSize, .cfgRange, .cfgStability, .cfgResource,
    .delayRange].map FaultCause.code = [1, 2, 3, 4, 5, 6, 7, 8] ∧
  ∀ (c : FaultCause) (w : Word) (s : State),
    ∃ f : Word, raise c w s = s.withFstat f ∧ bits f 7 0 = c.code ∧ bits f 15 8 = bits w 15 8 ∧
      bits f 23 16 = bits w 7 0 ∧ bits f 31 24 = 0 ∧ (raise c w s).faultO = true

/-- R213: a command word that leaves the block FAULTED has changed `FSTAT` alone, which holds one of the
eight causes and the two fields of the word, and `fault_o` is 1. -/
def Obligations.FaultsArePrecise : Prop :=
  ∀ (w : Word) (s t : State), s.faulted = false → issue w s = .next t → t.faulted = true →
    ∃ (c : FaultCause) (f : Word), t = s.withFstat f ∧ bits f 7 0 = c.code ∧ bits f 15 8 = bits w 15 8 ∧
      bits f 23 16 = bits w 7 0 ∧ bits f 31 24 = 0 ∧ t.faultO = true

/-- R93: what every command word does first, in its order: ignored in the FAULTED state; `ILLEGAL_OP`;
`SLOT_STATE`; then the command's own rule. -/
def Obligations.PreludeOfEveryCommand : Prop :=
  ∀ (w : Word) (s : State),
    (s.faulted = true → issue w s = .next s) ∧
    (s.faulted = false → (∃ e, decode w = .error e) → issue w s = .next (raise .illegalOp w s)) ∧
    (∀ i slot, s.faulted = false → decode w = .ok i → i.slot? = some slot →
      (s.params.nslots ≤ slot ∨
       (configures i.opcode = true ∧ s.kindAt slot ≠ .none) ∨
       (∃ k, needsKind i.opcode = some k ∧ s.kindAt slot ≠ k) ∨
       (i.opcode = .free ∧ s.kindAt slot = .none)) →
      issue w s = .next (raise .slotState w s)) ∧
    (∀ i, s.faulted = false → decode w = .ok i → issue w s = exec i s)

/-- R214: a FAULTED block ignores every command word, undecoded, and stays FAULTED with its first fault along
every run of the host's list; a reset ends it. -/
def Obligations.FaultedIsKeptAlongEveryRun : Prop :=
  ∀ s : State, s.faulted = true →
    (∀ w, issue w s = .next s) ∧ (∀ i, exec i s = .next s) ∧
    (∀ (n : Nat) (t : State), Host.Core.run core n s = .next t →
      t.faulted = true ∧ t.fstat = s.fstat ∧ t.yout = s.yout ∧ t.pi = s.pi ∧ t.ps = s.ps ∧
        t.slots = s.slots) ∧
    s.pulseReset.faulted = false

/-! ### Staging and slot commands (spec/40_staging_and_slots.md) -/

/-- R90. -/
def Obligations.LdiStagesOneInteger : Prop :=
  ∀ (s : State) (idx : Nat), s.faulted = false →
    encode (.ldi idx) = BitVec.ofNat 32 (0x01 + 65536 * idx) ∧
    (idx < s.params.npi → exec (.ldi idx) s = .next (s.withPi idx s.iarg)) ∧
    (s.params.npi ≤ idx → exec (.ldi idx) s = .next (raise .indexRange (encode (.ldi idx)) s))

/-- R91. -/
def Obligations.LdsStagesOneScalar : Prop :=
  ∀ (s : State) (idx : Nat), s.faulted = false →
    encode (.lds idx) = BitVec.ofNat 32 (0x02 + 65536 * idx) ∧
    (idx < s.params.nps → exec (.lds idx) s = .next (s.withPs idx s.xin)) ∧
    (s.params.nps ≤ idx → exec (.lds idx) s = .next (raise .indexRange (encode (.lds idx)) s))

/-- R92, with what reading the slots gives afterwards. -/
def Obligations.FreeEmptiesItsSlot : Prop :=
  ∀ (s : State) (slot : Nat), Ready s slot → s.kindAt slot ≠ .none →
    encode (.free slot) = BitVec.ofNat 32 (0x40 + 256 * slot) ∧
    ∃ t, exec (.free slot) s = .next t ∧ t = s.withSlot slot none ∧ t.slotAt slot = none ∧
      ∀ n, n ≠ slot → t.slotAt n = s.slotAt n

/-! ### The tapped delay line (spec/41_tapped_delay_line.md) -/

/-- R100: the unit that `CFG.TDL` builds, and the order of its checks. `K` is `IARG`, `l` is `IDX`. -/
def Obligations.CfgTdlBuildsTheStagedTaps : Prop :=
  ∀ (s : State) (slot l k : Nat), Ready s slot → s.slotAt slot = none → k = s.iarg.toNat →
    encode (.cfgTdl slot l) = BitVec.ofNat 32 (0x11 + 256 * slot + 65536 * l) ∧
    ((s.params.npi < k ∨ s.params.nps < l) →
      exec (.cfgTdl slot l) s = .next (raise .cfgSize (encode (.cfgTdl slot l)) s)) ∧
    (k ≤ s.params.npi → l ≤ s.params.nps → l ≠ k + 1 →
      exec (.cfgTdl slot l) s = .next (raise .cfgSize (encode (.cfgTdl slot l)) s)) ∧
    (k ≤ s.params.npi → l ≤ s.params.nps → l = k + 1 → 1 ≤ k → (∀ i < k, (s.piAt i).toNat = 0) →
      exec (.cfgTdl slot l) s = .next (raise .cfgRange (encode (.cfgTdl slot l)) s)) ∧
    (k ≤ s.params.npi → l ≤ s.params.nps → l = k + 1 → (k = 0 ∨ ∃ i < k, (s.piAt i).toNat ≠ 0) →
      ((k = 0 ∧ s.params.capmax < 1) ∨ ∃ i < k, s.params.capmax < (s.piAt i).toNat) →
      exec (.cfgTdl slot l) s = .next (raise .cfgResource (encode (.cfgTdl slot l)) s)) ∧
    (k ≤ s.params.npi → l ≤ s.params.nps → l = k + 1 → (k = 0 ∨ ∃ i < k, (s.piAt i).toNat ≠ 0) →
      (k = 0 → 1 ≤ s.params.capmax) → (∀ i < k, (s.piAt i).toNat ≤ s.params.capmax) →
      ∃ u : Tdl, exec (.cfgTdl slot l) s = .next (s.withSlot slot (some (.tdl u))) ∧
        u.k = k ∧ u.delays.length = k ∧ (∀ i < k, u.delays[i]? = some (s.piAt i).toNat) ∧
        u.coeffs.length = k + 1 ∧ (∀ i < k + 1, u.coeffs[i]? = some (s.psAt i)) ∧
        (k = 0 → u.cap = 1) ∧ (1 ≤ k → u.cap ∈ u.delays ∧ ∀ d ∈ u.delays, d ≤ u.cap) ∧
        (∀ a, cell u.buf a = Scalar.zero) ∧ u.w = 0)

/-- R101: the sample, the buffer and the write index after `ADV.TDL`. -/
def Obligations.AdvTdlSumsTheTapsThenWrites : Prop :=
  ∀ (s : State) (slot : Nat) (u : Tdl), Ready s slot → s.slotAt slot = some (.tdl u) →
    encode (.advTdl slot) = BitVec.ofNat 32 (0x21 + 256 * slot) ∧
    exec (.advTdl slot) s =
      .next ((s.withSlot slot
          (some (.tdl { u with buf := setCell u.buf u.w s.xin, w := (u.w + 1) % u.cap }))).withYout
        ((List.range u.k).foldl
          (fun acc i =>
            sadd s.params.arith acc
              (smul s.params.arith (u.coeffs.getD (i + 1) Scalar.zero)
                (cell u.buf (((u.w : Int) - (u.delays.getD i 0 : Int)) % (u.cap : Int)).toNat)))
          (smul s.params.arith (u.coeffs.getD 0 Scalar.zero) s.xin)))

/-- R102, R103: the outputs of a fresh TDL on successive samples, for any arithmetic of `S`: the FIR sum of
past inputs, where a listed delay of 0 acts as the delay `cap`. -/
def Obligations.TdlStreamIsTheFirSum : Prop :=
  ∀ (s : State) (slot : Nat) (delays : List Nat) (coeffs xs : List Scalar),
    Ready s slot → slot < 256 → coeffs.length = delays.length + 1 → 1 ≤ tdlCap delays →
    s.slotAt slot = some (.tdl (freshTdl delays coeffs)) →
    ∃ t ys, process .tdl slot xs 0 s = .next (t, ys) ∧ ys.length = xs.length ∧
      ∀ n < xs.length, ys.getD n Scalar.zero =
        (List.range delays.length).foldl
          (fun acc i =>
            sadd s.params.arith acc
              (smul s.params.arith (coeffs.getD (i + 1) Scalar.zero)
                (past xs n (if delays.getD i 0 = 0 then tdlCap delays else delays.getD i 0))))
          (smul s.params.arith (coeffs.getD 0 Scalar.zero) (xs.getD n Scalar.zero))

/-! ### The first-order filter and the one-pole lowpass (spec/42_first_order_and_one_pole.md) -/

/-- R110. -/
def Obligations.CfgFofBuildsTheStagedFilter : Prop :=
  ∀ (s : State) (slot : Nat), ReadyReal s slot → s.slotAt slot = none →
    encode (.cfgFof slot) = BitVec.ofNat 32 (0x12 + 256 * slot) ∧
    (4 < (s.piAt 0).toNat →
      exec (.cfgFof slot) s = .next (raise .cfgRange (encode (.cfgFof slot)) s)) ∧
    ((s.piAt 0).toNat ≤ 4 →
      ∃ u : Fof, exec (.cfgFof slot) s = .next (s.withSlot slot (some (.fof u))) ∧
        u.dry = s.psAt 0 ∧ u.wet = s.psAt 1 ∧ u.a0 = s.psAt 2 ∧ u.a1 = s.psAt 3 ∧ u.b1 = s.psAt 4 ∧
        [FofType.noType, .lowpass, .highpass, .lowshelf, .highshelf][(s.piAt 0).toNat]? = some u.type ∧
        u.xPrev = Scalar.zero ∧ u.yPrev = Scalar.zero)

/-- R111. -/
def Obligations.AdvFofComputesDryPlusWet : Prop :=
  ∀ (s : State) (slot : Nat) (u : Fof) (x y inner : Scalar), ReadyReal s slot →
    s.slotAt slot = some (.fof u) → x = s.xin →
    inner = ssub s.params.arith
      (sadd s.params.arith (smul s.params.arith u.a0 x) (smul s.params.arith u.a1 u.xPrev))
      (smul s.params.arith u.b1 u.yPrev) →
    y = sadd s.params.arith (smul s.params.arith u.dry x) (smul s.params.arith u.wet inner) →
    encode (.advFof slot) = BitVec.ofNat 32 (0x22 + 256 * slot) ∧
    exec (.advFof slot) s =
      .next ((s.withSlot slot (some (.fof { u with xPrev := x, yPrev := y }))).withYout y)

/-- R112, in exact arithmetic: the recurrence of a fresh first-order filter. -/
def Obligations.FofStreamIsTheRecurrence : Prop :=
  ∀ (s : State) (slot : Nat) (dry wet a0 a1 b1 : Rat) (type : FofType) (xs : List Rat),
    Ready s slot → slot < 256 → s.params.arith = .exact →
    s.slotAt slot = some (.fof (freshFof (.ofRat dry) (.ofRat wet) (.ofRat a0) (.ofRat a1) (.ofRat b1) type)) →
    ∃ (t : State) (ys : List Rat), process .fof slot (xs.map Scalar.ofRat) 0 s = .next (t, ys.map Scalar.ofRat) ∧
      ys.length = xs.length ∧
      ∀ n < xs.length, ys.getD n 0 =
        (dry + wet * a0) * xs.getD n 0 + wet * a1 * pastRat xs n 1 - wet * b1 * pastRat ys n 1

/-- R113. -/
def Obligations.CfgOplChecksStability : Prop :=
  ∀ (s : State) (slot : Nat), ReadyReal s slot → s.slotAt slot = none →
    encode (.cfgOpl slot) = BitVec.ofNat 32 (0x13 + 256 * slot) ∧
    (absLtOne (s.psAt 1) = false →
      exec (.cfgOpl slot) s = .next (raise .cfgStability (encode (.cfgOpl slot)) s)) ∧
    (absLtOne (s.psAt 1) = true →
      exec (.cfgOpl slot) s =
        .next (s.withSlot slot (some (.opl { alpha := s.psAt 0, beta := s.psAt 1, lp := Scalar.zero }))))

/-- The stability test of R113, R130 and R133: `|v| < 1` of a real, the modulus below 1 of a complex, and a value
with a NaN or an infinite part fails it; for the infinities that is the model's reading (PRESUMED,
notes/assumptions/8.md). -/
def Obligations.StabilityTestIsAbsBelowOne : Prop :=
  (∀ q : Rat, absLtOne (.real (.num q)) = true ↔ |q| < 1) ∧
  (∀ x y : Rat, absLtOne ⟨.num x, .num y⟩ = true ↔ ‖(⟨(x : ℝ), (y : ℝ)⟩ : ℂ)‖ < 1) ∧
  ∀ (v : Scalar) (r : RVal), (r = v.re ∨ r = v.im) → ((∃ n, r = .nan n) ∨ r = .posInf ∨ r = .negInf) →
    absLtOne v = false

/-- R114. -/
def Obligations.AdvOplComputesTheRecurrence : Prop :=
  ∀ (s : State) (slot : Nat) (u : Opl) (y : Scalar), ReadyReal s slot → s.slotAt slot = some (.opl u) →
    y = sadd s.params.arith (smul s.params.arith u.alpha s.xin) (smul s.params.arith u.beta u.lp) →
    encode (.advOpl slot) = BitVec.ofNat 32 (0x23 + 256 * slot) ∧
    exec (.advOpl slot) s = .next ((s.withSlot slot (some (.opl { u with lp := y }))).withYout y)

/-! ### The comb filters (spec/43_comb_filters.md) -/

/-- R130, with the order of its checks. -/
def Obligations.CfgFfcBuildsTheStagedComb : Prop :=
  ∀ (s : State) (slot m : Nat), Ready s slot → s.slotAt slot = none → m = (s.piAt 0).toNat →
    encode (.cfgFfc slot) = BitVec.ofNat 32 (0x14 + 256 * slot) ∧
    (m < 1 → exec (.cfgFfc slot) s = .next (raise .cfgRange (encode (.cfgFfc slot)) s)) ∧
    (1 ≤ m → absLtOne (s.psAt 2) = false →
      exec (.cfgFfc slot) s = .next (raise .cfgStability (encode (.cfgFfc slot)) s)) ∧
    (1 ≤ m → absLtOne (s.psAt 2) = true → s.params.capmax < 2 * m →
      exec (.cfgFfc slot) s = .next (raise .cfgResource (encode (.cfgFfc slot)) s)) ∧
    (1 ≤ m → absLtOne (s.psAt 2) = true → 2 * m ≤ s.params.capmax →
      exec (.cfgFfc slot) s =
        .next (s.withSlot slot (some (.ffc { b0 := s.psAt 0, b1 := s.psAt 1, a := s.psAt 2, m := m,
                                             bufIn := [], bufOut := [], w := 0 }))))

/-- R131. -/
def Obligations.AdvFfcComputesTheComb : Prop :=
  ∀ (s : State) (slot : Nat) (u : Ffc) (y : Scalar), Ready s slot → s.slotAt slot = some (.ffc u) →
    y = sadd s.params.arith
      (sadd s.params.arith (smul s.params.arith u.b0 s.xin)
        (smul s.params.arith u.b1 (cell u.bufIn u.w)))
      (smul s.params.arith u.a (cell u.bufOut u.w)) →
    encode (.advFfc slot) = BitVec.ofNat 32 (0x24 + 256 * slot) ∧
    exec (.advFfc slot) s =
      .next ((s.withSlot slot
        (some (.ffc { u with bufIn := setCell u.bufIn u.w s.xin, bufOut := setCell u.bufOut u.w y,
                             w := (u.w + 1) % u.m }))).withYout y)

/-- R132: a fresh FFC computes `y[n] = b_0·x[n] + b_1·x[n − m] + a·y[n − m]`, for any arithmetic of `S`. -/
def Obligations.FfcStreamIsTheCombRecurrence : Prop :=
  ∀ (s : State) (slot m : Nat) (b0 b1 a : Scalar) (xs : List Scalar),
    Ready s slot → slot < 256 → 1 ≤ m → s.slotAt slot = some (.ffc (freshFfc b0 b1 a m)) →
    ∃ t ys, process .ffc slot xs 0 s = .next (t, ys) ∧ ys.length = xs.length ∧
      ∀ n < xs.length, ys.getD n Scalar.zero =
        sadd s.params.arith
          (sadd s.params.arith (smul s.params.arith b0 (xs.getD n Scalar.zero))
            (smul s.params.arith b1 (past xs n m)))
          (smul s.params.arith a (past ys n m))

/-- R133, with the order of its checks. -/
def Obligations.CfgFbcBuildsTheStagedComb : Prop :=
  ∀ (s : State) (slot m : Nat), Ready s slot → s.slotAt slot = none → m = (s.piAt 0).toNat →
    encode (.cfgFbc slot) = BitVec.ofNat 32 (0x15 + 256 * slot) ∧
    (m < 1 → exec (.cfgFbc slot) s = .next (raise .cfgRange (encode (.cfgFbc slot)) s)) ∧
    (1 ≤ m → absLtOne (s.psAt 1) = false →
      exec (.cfgFbc slot) s = .next (raise .cfgStability (encode (.cfgFbc slot)) s)) ∧
    (1 ≤ m → absLtOne (s.psAt 1) = true → s.params.capmax < m →
      exec (.cfgFbc slot) s = .next (raise .cfgResource (encode (.cfgFbc slot)) s)) ∧
    (1 ≤ m → absLtOne (s.psAt 1) = true → m ≤ s.params.capmax →
      exec (.cfgFbc slot) s =
        .next (s.withSlot slot (some (.fbc { alpha := s.psAt 0, beta := s.psAt 1, m := m,
                                             lp := Scalar.zero, bufOut := [], w := 0 }))))

/-- R134: the embedded one-pole advances once and the write index wraps. -/
def Obligations.AdvFbcAddsTheFilteredFeedback : Prop :=
  ∀ (s : State) (slot : Nat) (u : Fbc) (v y : Scalar), Ready s slot → s.slotAt slot = some (.fbc u) →
    v = sadd s.params.arith (smul s.params.arith u.alpha (cell u.bufOut u.w))
      (smul s.params.arith u.beta u.lp) →
    y = sadd s.params.arith s.xin v →
    encode (.advFbc slot) = BitVec.ofNat 32 (0x25 + 256 * slot) ∧
    exec (.advFbc slot) s =
      .next ((s.withSlot slot
        (some (.fbc { u with lp := v, bufOut := setCell u.bufOut u.w y, w := (u.w + 1) % u.m }))).withYout y)

/-- R135: a fresh FBC computes `t[n] = α·y[n − m] + β·t[n − 1]`, `y[n] = x[n] + t[n]`, for any arithmetic of
`S`. -/
def Obligations.FbcStreamIsTheDampedRecurrence : Prop :=
  ∀ (s : State) (slot m : Nat) (α β : Scalar) (xs : List Scalar),
    Ready s slot → slot < 256 → 1 ≤ m → s.slotAt slot = some (.fbc (freshFbc α β m)) →
    ∃ t ys vs, process .fbc slot xs 0 s = .next (t, ys) ∧ ys.length = xs.length ∧ vs.length = xs.length ∧
      ∀ n < xs.length,
        vs.getD n Scalar.zero =
          sadd s.params.arith (smul s.params.arith α (past ys n m)) (smul s.params.arith β (past vs n 1)) ∧
        ys.getD n Scalar.zero = sadd s.params.arith (xs.getD n Scalar.zero) (vs.getD n Scalar.zero)

/-! ### The time-varying delay line (spec/44_time_varying_delay.md) -/

/-- R150, with the order of its checks. -/
def Obligations.CfgTvdBuildsTheStagedLine : Prop :=
  ∀ (s : State) (slot m : Nat), Ready s slot → s.slotAt slot = none → m = (s.piAt 0).toNat →
    encode (.cfgTvd slot) = BitVec.ofNat 32 (0x16 + 256 * slot) ∧
    (m < 1 → exec (.cfgTvd slot) s = .next (raise .cfgRange (encode (.cfgTvd slot)) s)) ∧
    (1 ≤ m → s.params.capmax < m →
      exec (.cfgTvd slot) s = .next (raise .cfgResource (encode (.cfgTvd slot)) s)) ∧
    (1 ≤ m → m ≤ s.params.capmax →
      exec (.cfgTvd slot) s =
        .next (s.withSlot slot (some (.tvd { a := s.psAt 0, b := s.psAt 1, maxDelay := m,
                                             buf := [], w := 0 }))))

/-- R151: an accepted delay blends the two neighbours, with `frac` on the difference; in exact arithmetic
`frac` is `d − d_lo`. A delay out of range (R152, see `AdvTvdAcceptsExactlyTheRange`) raises `DELAY_RANGE` and
changes nothing else. A negative zero has its own statement, `AdvTvdTakesNegativeZeroAsZero`. -/
def Obligations.AdvTvdBlendsTheNeighbours : Prop :=
  (∀ (s : State) (slot : Nat) (u : Tvd) (d : Rat) (dLo : Nat) (frac : RVal) (newer older y : Scalar),
    Ready s slot → s.slotAt slot = some (.tvd u) →
    s.din = .num d → 0 ≤ d → d < u.maxDelay →
    (dLo : Int) = ⌊d⌋ → frac = delayFrac s.params.arith (.num d) dLo →
    newer = (if dLo = 0 then s.xin else cell u.buf (((u.w : Int) - (dLo : Int)) % (u.maxDelay : Int)).toNat) →
    older = cell u.buf (((u.w : Int) - ((dLo + 1 : Nat) : Int)) % (u.maxDelay : Int)).toNat →
    y = sadd s.params.arith (smul s.params.arith u.a s.xin)
      (smul s.params.arith u.b (sadd s.params.arith older
        (smul s.params.arith (.real frac) (ssub s.params.arith newer older)))) →
    encode (.advTvd slot) = BitVec.ofNat 32 (0x26 + 256 * slot) ∧
    exec (.advTvd slot) s =
      .next ((s.withSlot slot
        (some (.tvd { u with buf := setCell u.buf u.w s.xin, w := (u.w + 1) % u.maxDelay }))).withYout y)) ∧
  (∀ (d : Rat) (n : Nat), delayFrac .exact (.num d) n = .num (d - n)) ∧
  ∀ (s : State) (slot : Nat) (u : Tvd), Ready s slot → s.slotAt slot = some (.tvd u) →
    delayInRange s.din u.maxDelay = false →
    exec (.advTvd slot) s = .next (raise .delayRange (encode (.advTvd slot)) s)

/-- R152: `ADV.TVD` accepts `d` exactly when `0 ≤ d < max_delay`, and otherwise raises `DELAY_RANGE`, for a NaN
and the infinities too. -/
def Obligations.AdvTvdAcceptsExactlyTheRange : Prop :=
  ∀ (s : State) (slot : Nat) (u : Tvd), Ready s slot → s.slotAt slot = some (.tvd u) →
    (((∃ d : Rat, s.din = .num d ∧ ¬(0 ≤ d ∧ d < u.maxDelay)) ∨ s.din = .posInf ∨ s.din = .negInf ∨
        (∃ n, s.din = .nan n)) →
      exec (.advTvd slot) s = .next (raise .delayRange (encode (.advTvd slot)) s)) ∧
    ((∃ d : Rat, s.din = .num d ∧ 0 ≤ d ∧ d < u.maxDelay) →
      ∃ t, exec (.advTvd slot) s = .next t ∧ t.faulted = false)

/-- R151 corner case 3, which the spec marks as general knowledge (PRESUMED, notes/assumptions/5.md): a negative
zero behaves as the delay 0. Its neighbours are `x` and the last sample, its fraction is that of 0 (which is 0
in exact arithmetic), and the command leaves what it would leave with `DIN` at 0, but for `DIN` itself. -/
def Obligations.AdvTvdTakesNegativeZeroAsZero : Prop :=
  (∀ (s : State) (slot : Nat) (u : Tvd) (older y : Scalar), Ready s slot → s.slotAt slot = some (.tvd u) →
    s.din = .negZero → 1 ≤ u.maxDelay →
    older = cell u.buf (((u.w : Int) - 1) % (u.maxDelay : Int)).toNat →
    y = sadd s.params.arith (smul s.params.arith u.a s.xin)
      (smul s.params.arith u.b (sadd s.params.arith older
        (smul s.params.arith (.real (delayFrac s.params.arith (.num 0) 0))
          (ssub s.params.arith s.xin older)))) →
    exec (.advTvd slot) s =
      .next ((s.withSlot slot
        (some (.tvd { u with buf := setCell u.buf u.w s.xin, w := (u.w + 1) % u.maxDelay }))).withYout y)) ∧
  (∀ (s t : State) (slot : Nat), s.din = .negZero → exec (.advTvd slot) (s.withDin (.num 0)) = .next t →
    t.faulted = false → exec (.advTvd slot) s = .next (t.withDin .negZero)) ∧
  delayFrac .exact (.num 0) 0 = .num 0

/-- R153, in exact arithmetic: a fresh TVD answers
`a·x[n] + b·((1 − frac)·x[n − d_lo − 1] + frac·x[n − d_lo])`. -/
def Obligations.TvdStreamInterpolatesPastInputs : Prop :=
  ∀ (s : State) (slot maxDelay : Nat) (a b : Rat) (xs ds : List Rat),
    Ready s slot → slot < 256 → s.params.arith = .exact → 1 ≤ maxDelay → ds.length = xs.length →
    (∀ d ∈ ds, 0 ≤ d ∧ d < maxDelay) →
    s.slotAt slot = some (.tvd (freshTvd (.ofRat a) (.ofRat b) maxDelay)) →
    ∃ (t : State) (ys : List Rat),
      processTvd slot (xs.map Scalar.ofRat) (ds.map RVal.ofRat) 0 s = .next (t, ys.map Scalar.ofRat) ∧
      ys.length = xs.length ∧
      ∀ n < xs.length, ∀ d, d = ds.getD n 0 →
        ys.getD n 0 = a * xs.getD n 0 +
          b * ((1 - Int.fract d) * pastRat xs n (⌊d⌋.toNat + 1) + Int.fract d * pastRat xs n ⌊d⌋.toNat)

/-! ### The DFT convolver (spec/45_dft_convolver.md) -/

/-- R160, with the order of its checks. -/
def Obligations.CfgDfcBuildsTheStagedConvolver : Prop :=
  ∀ (s : State) (slot n f : Nat), ReadyReal s slot → s.slotAt slot = none → n = (s.piAt 0).toNat →
    f = (s.piAt 1).toNat →
    encode (.cfgDfc slot) = BitVec.ofNat 32 (0x17 + 256 * slot) ∧
    (s.params.nps < f → exec (.cfgDfc slot) s = .next (raise .cfgSize (encode (.cfgDfc slot)) s)) ∧
    (f ≤ s.params.nps → (n < 1 ∨ f < 1) →
      exec (.cfgDfc slot) s = .next (raise .cfgRange (encode (.cfgDfc slot)) s)) ∧
    (f ≤ s.params.nps → 1 ≤ n → 1 ≤ f → s.params.capmax < 2 * nextPow2 (n + f - 1) →
      exec (.cfgDfc slot) s = .next (raise .cfgResource (encode (.cfgDfc slot)) s)) ∧
    (f ≤ s.params.nps → 1 ≤ n → 1 ≤ f → 2 * nextPow2 (n + f - 1) ≤ s.params.capmax →
      ∃ u : Dfc, exec (.cfgDfc slot) s = .next (s.withSlot slot (some (.dfc u))) ∧
        u.inputSize = n ∧ u.filterSize = f ∧ u.outputSize = n + f - 1 ∧ u.fftSize = nextPow2 (n + f - 1) ∧
        u.h.length = f ∧ (∀ j < f, u.h[j]? = some (s.psAt j)) ∧
        (∀ a, cell u.input a = Scalar.zero) ∧ (∀ a, cell u.output a = Scalar.zero))

/-- R164. -/
def Obligations.NextPow2IsTheLeastPowerOfTwo : Prop :=
  ∀ n : Nat, 1 ≤ n → n ≤ nextPow2 n ∧ (∃ e, nextPow2 n = 2 ^ e) ∧ ∀ e, n ≤ 2 ^ e → nextPow2 n ≤ 2 ^ e

/-- R161. -/
def Obligations.DfcWrWritesOneInputCell : Prop :=
  ∀ (s : State) (slot : Nat) (u : Dfc), ReadyReal s slot → s.slotAt slot = some (.dfc u) →
    encode (.dfcWr slot) = BitVec.ofNat 32 (0x30 + 256 * slot) ∧
    (s.iarg.toNat < u.inputSize →
      exec (.dfcWr slot) s =
        .next (s.withSlot slot (some (.dfc { u with input := setCell u.input s.iarg.toNat s.xin })))) ∧
    (u.inputSize ≤ s.iarg.toNat →
      exec (.dfcWr slot) s = .next (raise .indexRange (encode (.dfcWr slot)) s))

/-- R162: all `fft_size` cells of `out` take the value of `DFTCONV`, and `in` and `YOUT` are unchanged. -/
def Obligations.DfcRunReplacesTheOutputBuffer : Prop :=
  ∀ (s : State) (slot : Nat) (u : Dfc), ReadyReal s slot → s.slotAt slot = some (.dfc u) →
    encode (.dfcRun slot) = BitVec.ofNat 32 (0x31 + 256 * slot) ∧
    ∃ o : Memory Scalar,
      exec (.dfcRun slot) s = .next (s.withSlot slot (some (.dfc { u with output := o }))) ∧
      ∀ k < u.fftSize,
        cell o k = dftconv s.params.arith u.fftSize u.h ((List.range u.fftSize).map (cell u.input)) k

/-- R165, in exact arithmetic: after `DFC.RUN` the result is the linear convolution of R13, and zero from
`output_size` up. -/
def Obligations.ExactRunIsTheLinearConvolution : Prop :=
  ∀ (s : State) (slot : Nat) (u : Dfc) (h x : List Rat), Ready s slot → s.params.arith = .exact →
    s.slotAt slot = some (.dfc u) → 1 ≤ u.inputSize → 1 ≤ h.length → u.h = h.map Scalar.ofRat →
    u.outputSize = u.inputSize + h.length - 1 → u.outputSize ≤ u.fftSize → x.length = u.inputSize →
    (∀ a, cell u.input a = .ofRat (x.getD a 0)) →
    ∃ t v, exec (.dfcRun slot) s = .next t ∧ t.slotAt slot = some (.dfc v) ∧
      (∀ k < u.outputSize, cell v.output k = .ofRat (convRat h x k)) ∧
      (∀ k, u.outputSize ≤ k → k < u.fftSize → cell v.output k = Scalar.zero)

/-- R163. -/
def Obligations.DfcRdReadsOneOutputCell : Prop :=
  ∀ (s : State) (slot : Nat) (u : Dfc), ReadyReal s slot → s.slotAt slot = some (.dfc u) →
    encode (.dfcRd slot) = BitVec.ofNat 32 (0x32 + 256 * slot) ∧
    (s.iarg.toNat < u.outputSize →
      exec (.dfcRd slot) s = .next (s.withYout (cell u.output s.iarg.toNat))) ∧
    (u.outputSize ≤ s.iarg.toNat →
      exec (.dfcRd slot) s = .next (raise .indexRange (encode (.dfcRd slot)) s))

/-! ### The overlap-add convolver (spec/46_overlap_add.md) -/

/-- R180, with the order of its checks. -/
def Obligations.CfgOlaBuildsTheStagedConvolver : Prop :=
  ∀ (s : State) (slot w f : Nat), ReadyReal s slot → s.slotAt slot = none → w = (s.piAt 0).toNat →
    f = (s.piAt 1).toNat →
    encode (.cfgOla slot) = BitVec.ofNat 32 (0x18 + 256 * slot) ∧
    (s.params.nps < f → exec (.cfgOla slot) s = .next (raise .cfgSize (encode (.cfgOla slot)) s)) ∧
    (f ≤ s.params.nps → (w < 1 ∨ f < 1) →
      exec (.cfgOla slot) s = .next (raise .cfgRange (encode (.cfgOla slot)) s)) ∧
    (f ≤ s.params.nps → 1 ≤ w → 1 ≤ f → s.params.capmax < 2 * nextPow2 (w + f - 1) + (w + f - 1) →
      exec (.cfgOla slot) s = .next (raise .cfgResource (encode (.cfgOla slot)) s)) ∧
    (f ≤ s.params.nps → 1 ≤ w → 1 ≤ f → 2 * nextPow2 (w + f - 1) + (w + f - 1) ≤ s.params.capmax →
      ∃ u : Ola, exec (.cfgOla slot) s = .next (s.withSlot slot (some (.ola u))) ∧
        u.windowSize = w ∧ u.filterSize = f ∧ u.numTransients = f - 1 ∧ u.outputSize = w + f - 1 ∧
        u.dfc.inputSize = w ∧ u.dfc.filterSize = f ∧ u.dfc.outputSize = w + f - 1 ∧
        u.dfc.fftSize = nextPow2 (w + f - 1) ∧ u.dfc.h.length = f ∧
        (∀ j < f, u.dfc.h[j]? = some (s.psAt j)) ∧
        (∀ a, cell u.dfc.input a = Scalar.zero) ∧ (∀ a, cell u.dfc.output a = Scalar.zero) ∧
        (∀ a, cell u.ring a = Scalar.zero) ∧ u.writeIdx = 0 ∧ u.inputIdx = 0 ∧ u.outputIdx = 0)

/-- R181. A sample that does not complete the window goes into it, and the next ring cell is read without
being cleared. The sample that completes the window runs the convolver; each ring cell, at offset `o`
from the write index, is cleared if `T ≤ o` and then gains result `o`; the indices move; and the first
result of the block is read. -/
def Obligations.AdvOlaPushesRunsAndPops : Prop :=
  ∀ (s : State) (slot : Nat) (u : Ola), ReadyReal s slot → s.slotAt slot = some (.ola u) →
    encode (.advOla slot) = BitVec.ofNat 32 (0x28 + 256 * slot) ∧
    (u.inputIdx + 1 ≠ u.windowSize →
      exec (.advOla slot) s =
        .next ((s.withSlot slot
          (some (.ola { u with
            dfc := { u.dfc with input := setCell u.dfc.input u.inputIdx s.xin }
            inputIdx := u.inputIdx + 1
            outputIdx := (u.outputIdx + 1) % u.outputSize }))).withYout (cell u.ring u.outputIdx))) ∧
    (u.inputIdx + 1 = u.windowSize → u.outputSize = u.windowSize + u.numTransients →
      u.outputSize ≤ u.dfc.fftSize → u.writeIdx < u.outputSize →
      ∃ (v : Ola) (y : Scalar),
        exec (.advOla slot) s = .next ((s.withSlot slot (some (.ola v))).withYout y) ∧
        v.dfc.input = setCell u.dfc.input u.inputIdx s.xin ∧
        (∀ k < u.dfc.fftSize, cell v.dfc.output k =
          dftconv s.params.arith u.dfc.fftSize u.dfc.h
            ((List.range u.dfc.fftSize).map (cell v.dfc.input)) k) ∧
        (∀ o < u.outputSize, cell v.ring ((u.writeIdx + o) % u.outputSize) =
          sadd s.params.arith
            (if u.numTransients ≤ o then Scalar.zero else cell u.ring ((u.writeIdx + o) % u.outputSize))
            (cell v.dfc.output o)) ∧
        y = cell v.ring u.writeIdx ∧
        v = { u with
          dfc := { u.dfc with input := v.dfc.input, output := v.dfc.output }
          ring := v.ring
          inputIdx := 0
          outputIdx := (u.writeIdx + 1) % u.outputSize
          writeIdx := (u.writeIdx + u.windowSize) % u.outputSize })

/-- R182, in exact arithmetic: the outputs of a fresh OLA are the running linear convolution of its inputs,
`window_size − 1` commands late. -/
def Obligations.OlaStreamIsTheDelayedConvolution : Prop :=
  ∀ (s : State) (slot windowSize : Nat) (h xs : List Rat), Ready s slot → slot < 256 →
    s.params.arith = .exact → 1 ≤ windowSize → 1 ≤ h.length →
    s.slotAt slot = some (.ola (freshOla windowSize (h.map Scalar.ofRat))) →
    ∃ t ys, process .ola slot (xs.map Scalar.ofRat) 0 s = .next (t, ys) ∧ ys.length = xs.length ∧
      ∀ n < xs.length, ys.getD n Scalar.zero =
        .ofRat (if n + 1 < windowSize then 0 else convRat h xs (n + 1 - windowSize))

/-! ### The kinds for a real scalar type, and the ring buffers (spec/00_scope.md R8, spec/41 R102) -/

/-- In an instance whose `S` is complex, a command of a kind that R8 specifies for a real `S` only is refused once
the prelude of R93 has passed: the model's reading of what spec/91 N22 says must not be assumed (DESIGN CHOICE,
notes/assumptions/9.md). -/
def Obligations.RealOnlyKindsAreRefusedOverComplex : Prop :=
  ∀ (s : State) (slot : Nat), Ready s slot → s.params.arith = .complex →
    (s.kindAt slot = .none →
      exec (.cfgFof slot) s = .refused .needsRealScalar ∧ exec (.cfgOpl slot) s = .refused .needsRealScalar ∧
      exec (.cfgDfc slot) s = .refused .needsRealScalar ∧ exec (.cfgOla slot) s = .refused .needsRealScalar) ∧
    (s.kindAt slot = .fof → exec (.advFof slot) s = .refused .needsRealScalar) ∧
    (s.kindAt slot = .opl → exec (.advOpl slot) s = .refused .needsRealScalar) ∧
    (s.kindAt slot = .dfc →
      exec (.dfcWr slot) s = .refused .needsRealScalar ∧ exec (.dfcRun slot) s = .refused .needsRealScalar ∧
      exec (.dfcRd slot) s = .refused .needsRealScalar) ∧
    (s.kindAt slot = .ola → exec (.advOla slot) s = .refused .needsRealScalar)

/-- The ring-buffer invariant of R102, kept by `ADV.TDL`, `ADV.TVD`, `ADV.FFC` and `ADV.FBC` on their own unit, from
every state that has it: a buffer that holds the last samples `xs` (of its inputs, or of its outputs where it is a feedback buffer) holds
the last samples of `xs` and the new one afterwards. -/
def Obligations.AdvKeepsRingsAtTheLastSamples : Prop :=
  ∀ (s : State) (slot : Nat) (xs ys : List Scalar), Ready s slot →
    (∀ u : Tdl, s.slotAt slot = some (.tdl u) → u.w < u.cap → RingHolds u.buf u.w u.cap xs →
      ∃ t v, exec (.advTdl slot) s = .next t ∧ t.slotAt slot = some (.tdl v) ∧ v.cap = u.cap ∧ v.w < v.cap ∧
        RingHolds v.buf v.w v.cap (xs ++ [s.xin])) ∧
    (∀ u : Tvd, s.slotAt slot = some (.tvd u) → delayInRange s.din u.maxDelay = true → u.w < u.maxDelay →
      RingHolds u.buf u.w u.maxDelay xs →
      ∃ t v, exec (.advTvd slot) s = .next t ∧ t.slotAt slot = some (.tvd v) ∧ v.maxDelay = u.maxDelay ∧
        v.w < v.maxDelay ∧ RingHolds v.buf v.w v.maxDelay (xs ++ [s.xin])) ∧
    (∀ u : Ffc, s.slotAt slot = some (.ffc u) → u.w < u.m → RingHolds u.bufIn u.w u.m xs →
      RingHolds u.bufOut u.w u.m ys →
      ∃ t v, exec (.advFfc slot) s = .next t ∧ t.slotAt slot = some (.ffc v) ∧ v.m = u.m ∧ v.w < v.m ∧
        RingHolds v.bufIn v.w v.m (xs ++ [s.xin]) ∧ RingHolds v.bufOut v.w v.m (ys ++ [t.yout])) ∧
    (∀ u : Fbc, s.slotAt slot = some (.fbc u) → u.w < u.m → RingHolds u.bufOut u.w u.m ys →
      ∃ t v, exec (.advFbc slot) s = .next t ∧ t.slotAt slot = some (.fbc v) ∧ v.m = u.m ∧ v.w < v.m ∧
        RingHolds v.bufOut v.w v.m (ys ++ [t.yout]))

/-! ### What a command leaves alone (spec/10_state.md R29, spec/40 R94, R95) -/

/-- The frame of every command: the operand registers, the parameters and the host's own record never
change; `PI` changes in the cell that `LDI` names, `PS` in the cell that `LDS` names; no slot but the
command's own changes; `YOUT` changes by `ADV.*` and `DFC.RD` only. -/
def Obligations.EveryCommandKeepsItsFrame : Prop :=
  ∀ (i : Instr) (s t : State), exec i s = .next t →
    (t.iarg = s.iarg ∧ t.xin = s.xin ∧ t.din = s.din) ∧
    (t.params = s.params ∧ t.program = s.program ∧ t.cp = s.cp ∧ t.outputs = s.outputs ∧
      t.statusReads = s.statusReads ∧ t.operandReads = s.operandReads) ∧
    (∀ a, i ≠ .ldi a → t.piAt a = s.piAt a) ∧
    (∀ a, i ≠ .lds a → t.psAt a = s.psAt a) ∧
    (∀ n, i.slot? ≠ some n → t.slotAt n = s.slotAt n) ∧
    (writesYout i.opcode = false → t.yout = s.yout) ∧
    (t.faulted = false → t.fstat = s.fstat)

/-- The configuration fields of a unit never change after its `CFG`, until `FREE` drops it. -/
def Obligations.ConfigurationFieldsNeverChange : Prop :=
  ∀ (i : Instr) (s t : State) (n : Nat) (u : FilterUnit), exec i s = .next t → s.slotAt n = some u →
    i ≠ .free n → ∃ v, t.slotAt n = some v ∧ v.configPart = u.configPart

/-- R55: commands to different slots leave the same slots in either order, where neither order faults. -/
def Obligations.CommandsToDifferentSlotsCommute : Prop :=
  ∀ (i j : Instr) (a b : Nat) (s s1 s2 t1 t2 : State), i.slot? = some a → j.slot? = some b → a ≠ b →
    Memory.wf none s.slots →
    exec i s = .next s1 → exec j s1 = .next s2 → exec j s = .next t1 → exec i t1 = .next t2 →
    s2.faulted = false → t2.faulted = false →
    s2.slots = t2.slots ∧ s2.pi = t2.pi ∧ s2.ps = t2.ps ∧ s2.fstat = t2.fstat

/-! ### Invariants and reset (spec/10_state.md R39, R40; spec/70 R240) -/

/-- Every step keeps the invariant of R39 and the canonical form of every memory. -/
def Obligations.EveryStepKeepsTheInvariant : Prop := ∀ s t : State, Inv s → step s = .next t → Inv t

/-- Every step keeps the values of the instance: what a real instance holds stays real and what the exact one holds
stays rational (R7, R9), and a complex one never comes to hold a unit of a kind that R8 specifies for a real `S`
only. The last clause is no rule of the spec: it rests on the model's refusal of their `CFG` there (DESIGN CHOICE,
notes/assumptions/9.md). -/
def Obligations.EveryStepKeepsValuesOfTheInstance : Prop :=
  ∀ s t : State, ValuesOk s → step s = .next t → ValuesOk t

/-- The machine right after reset meets both invariants, with any admitted parameters and any host list of the
instance's values; the instance of `State.reset` is the model's choice (notes/assumptions/1.md). -/
def Obligations.ResetMeetsTheInvariant : Prop :=
  Inv State.reset ∧ ValuesOk State.reset ∧
  ∀ (p : Params) (l : List HostAction),
    (p.Ok → Inv (State.resetWith p l)) ∧
    ((∀ a ∈ l, a.valuesOk p.arith = true) → ValuesOk (State.resetWith p l))

/-- R40: what reset leaves, for any parameters. -/
def Obligations.ResetLeavesEverythingZeroAndEmpty : Prop :=
  ∀ (p : Params) (l : List HostAction) (s : State), s = State.resetWith p l →
    s.iarg = 0 ∧ s.xin = Scalar.zero ∧ s.din = RVal.zero ∧ s.yout = Scalar.zero ∧ s.fstat = 0 ∧
    s.faultO = false ∧ (∀ i, s.piAt i = 0) ∧ (∀ i, s.psAt i = Scalar.zero) ∧
    (∀ n, s.kindAt n = .none ∧ s.slotAt n = none) ∧ s.cp = 0

/-- R240: the reset event gives every piece of state its value of R40, from every state, the FAULTED ones too. No
step leaves the FAULTED state. -/
def Obligations.ResetEventEndsTheFaultedState : Prop :=
  ∀ s : State,
    (s.pulseReset.iarg = 0 ∧ s.pulseReset.xin = Scalar.zero ∧ s.pulseReset.din = RVal.zero ∧
      s.pulseReset.yout = Scalar.zero ∧ s.pulseReset.fstat = 0 ∧ s.pulseReset.faulted = false ∧
      s.pulseReset.faultO = false ∧ (∀ i, s.pulseReset.piAt i = 0) ∧
      (∀ i, s.pulseReset.psAt i = Scalar.zero) ∧ (∀ n, s.pulseReset.slotAt n = none)) ∧
    (s.faulted = true → ∀ t, step s = .next t → t.faulted = true)

/-! ### Host procedures (spec/49_host_composition.md) -/

/-- R198: the output matrix of one stereo sample of freeverb, from the two channels' results. -/
def Obligations.FreeverbSampleMixesTheChannels : Prop :=
  ∀ (f : Freeverb) (xl xr ul ur : Scalar) (s s1 s2 : State),
    advanceGraph (freeverbGraph 0) xl s = .next (s1, ul) →
    advanceGraph (freeverbGraph 12) xr s1 = .next (s2, ur) →
    mimoAdvance (freeverbMimo f) [xl, xr] s =
      .next (s2,
        [sadd s2.params.arith (smul s2.params.arith f.dry xl)
           (sadd s2.params.arith (smul s2.params.arith f.wet1 ul) (smul s2.params.arith f.wet2 ur)),
         sadd s2.params.arith (smul s2.params.arith f.dry xr)
           (sadd s2.params.arith (smul s2.params.arith f.wet2 ul) (smul s2.params.arith f.wet1 ur))])

/-- R192 and R76: `process` on a unit does what the machine does with the host list of `RUN` and then `FLUSH`.
For kind TVD, which R76 leaves out of `RUN` and `FLUSH`, both are the model's, with `DIN` as it stands (DESIGN CHOICE,
notes/assumptions/26.md). Where it is done: the same state, one output for each sample and each flushing zero, in
order. Where its run fails, the block is FAULTED and so the machine's run ends failed (R214, R246). A refusal is the machine's. -/
def Obligations.ProcessIsTheRunOfItsHostList : Prop :=
  ∀ (kind : AdvKind) (slot n : Nat) (xs : List Scalar) (s : State) (l : List HostAction),
    l = (Pseudo.run kind slot xs).expand ++ (Pseudo.flush kind slot n).expand → s.program = l → s.cp = 0 →
    (∀ t ys, process kind slot xs n s = .next (t, ys) →
      ys.length = xs.length + n ∧ t.outputs = s.outputs ++ ys ∧ t.faulted = false ∧
      Host.Core.run core l.length s = .next (t.withCp l.length)) ∧
    (∀ t f, process kind slot xs n s = .failed t f →
      f = .blockFaulted ∧ ∃ e : State, Host.Core.run core l.length s = .next e ∧ e.endsFailed) ∧
    (∀ r, process kind slot xs n s = .refused r → Host.Core.run core l.length s = .refused r) ∧
    (s.faulted = true → ∃ t, process kind slot xs n s = .failed t .blockFaulted)

/-- R193, R194, R210: a graph with an empty Series or a summation vector that does not match its children, at
whatever depth, is a failed run before any command, so that the state is as it was; a MIMO filter over such a
graph likewise, also where no sample is run; and a graph without one never fails so. That it is found where a
procedure is given the graph is the model's reading (DEDUCED, notes/assumptions/25.md). -/
def Obligations.MisconfiguredGraphsFailBeforeAnyCommand : Prop :=
  (∀ (g : Graph) (x : Scalar) (s : State), g.configured = false →
    advanceGraph g x s = .failed s .hostConfiguration) ∧
  (∀ (g : Graph) (x : Scalar) (s t : State), g.configured = true →
    advanceGraph g x s ≠ .failed t .hostConfiguration) ∧
  ∀ (m : Mimo) (s : State), m.outputLt.length = m.filters.length → allConfigured m.filters = false →
    (∀ x, mimoAdvance m x s = .failed s .hostConfiguration) ∧
    ∀ sources sinks n, mimoProcess m sources sinks n s = .failed s .hostConfiguration

/-- R214 and R219: a host procedure that is done has left a block that is not FAULTED; and where the sink is bounded
(R191), `process` fills it or, if the outputs are more than there is room for, is a failed run. -/
def Obligations.HostRunsFailOnAFaultOrAFullSink : Prop :=
  (∀ kind slot xs n s t ys, process kind slot xs n s = .next (t, ys) → t.faulted = false) ∧
  (∀ slot xs ds n s t ys, processTvd slot xs ds n s = .next (t, ys) → t.faulted = false) ∧
  (∀ g x s t y, advanceGraph g x s = .next (t, y) → t.faulted = false) ∧
  (∀ m x s t y, mimoAdvance m x s = .next (t, y) → t.faulted = false) ∧
  (∀ m xs ks n s t y, mimoProcess m xs ks n s = .next (t, y) → t.faulted = false) ∧
  ∀ kind slot xs n s t ys c items, process kind slot xs n s = .next (t, ys) →
    (items.length + ys.length ≤ c →
      processTo kind slot xs { capacity := some c, items := items } n s =
        .next (t, { capacity := some c, items := items ++ ys })) ∧
    (items.length ≤ c → c < items.length + ys.length →
      ∃ e, processTo kind slot xs { capacity := some c, items := items } n s = .failed e .sinkOverflow)
end

