-- ==== Sys2Proof/Laws/Arith.lean ====
section
/-!
SUPPORT. The small lemmas of the arithmetic: exact operations are the operations of the rationals, and
what the range tests decide.
-/

namespace Sys2Proof.Machine

variable (x y : Rat) (a b : RVal)

@[simp] theorem sadd_exact : sadd .exact (.real (.num x)) (.real (.num y)) = .real (.num (x + y)) := rfl
@[simp] theorem ssub_exact : ssub .exact (.real (.num x)) (.real (.num y)) = .real (.num (x - y)) := rfl
@[simp] theorem smul_exact : smul .exact (.real (.num x)) (.real (.num y)) = .real (.num (x * y)) := rfl
@[simp] theorem sneg_exact : sneg .exact (.real (.num x)) = .real (.num (-x)) := rfl

@[simp] theorem sadd_real : sadd .real (.real a) (.real b) = .real (Config.realAdd a b) := rfl
@[simp] theorem ssub_real : ssub .real (.real a) (.real b) = .real (Config.realSub a b) := rfl
@[simp] theorem smul_real : smul .real (.real a) (.real b) = .real (Config.realMul a b) := rfl
@[simp] theorem sneg_real : sneg .real (.real a) = .real (Config.realNeg a) := rfl

@[simp] theorem sadd_complex (u v : Scalar) : sadd .complex u v = Config.scalarAdd u v := rfl
@[simp] theorem ssub_complex (u v : Scalar) : ssub .complex u v = Config.scalarSub u v := rfl
@[simp] theorem smul_complex (u v : Scalar) : smul .complex u v = Config.scalarMul u v := rfl
@[simp] theorem sneg_complex (u : Scalar) : sneg .complex u = Config.scalarNeg u := rfl

/-- Where `S` is real, its subtraction is that of `R` (R7). -/
theorem ssub_eq_rsub {ar : Arith} (h : ar ≠ .complex) : ssub ar (.real a) (.real b) = .real (rsub ar a b) := by
  cases ar with
  | exact => rfl
  | real => rfl
  | complex => exact absurd rfl h

section
variable {ar : Arith}

theorem hasReal_realOp {f : Rat → Rat → Rat} {g : RVal → RVal → RVal} {a b : RVal}
    (ha : hasReal ar a = true) (hb : hasReal ar b = true) : hasReal ar (realOp ar f g a b) = true := by
  cases ar with
  | exact => cases a <;> cases b <;> simp_all [hasReal, realOp]
  | real => rfl
  | complex => rfl

theorem hasScalar_real {r : RVal} (h : hasReal ar r = true) : hasScalar ar (.real r) = true := by
  cases ar <;> simp_all [hasScalar]

theorem hasReal_re {v : Scalar} (h : hasScalar ar v = true) : hasReal ar v.re = true := by
  cases ar <;> simp_all [hasScalar, hasReal]

/-- An operation of `S` stays within the values of the instance. -/
theorem hasScalar_scalarOp {f : Rat → Rat → Rat} {g : RVal → RVal → RVal} {k : Scalar → Scalar → Scalar}
    {u v : Scalar} (hu : hasScalar ar u = true) (hv : hasScalar ar v = true) :
    hasScalar ar (scalarOp ar f g k u v) = true := by
  cases ar with
  | exact => exact hasScalar_real (hasReal_realOp (hasReal_re hu) (hasReal_re hv))
  | real => exact hasScalar_real rfl
  | complex => rfl

theorem hasScalar_ofRat : hasScalar ar (.ofRat x) = true := by cases ar <;> rfl

end

@[simp] theorem delayFrac_exact (n : Nat) : delayFrac .exact (.num x) n = .num (x - n) := rfl

@[simp] theorem delayFrac_negZero (ar : Arith) (n : Nat) : delayFrac ar .negZero n = delayFrac ar (.num 0) n := rfl

@[simp] theorem scaleBy_exact : scaleBy .exact (.num x) (.real (.num y)) = .real (.num (x * y)) := rfl

/-- The stability test compares the square of the modulus. -/
theorem absLtOne_num : absLtOne ⟨.num x, .num y⟩ = true ↔ x * x + y * y < 1 := by
  simp [absLtOne, finite?]

theorem delayInRange_num (cap : Nat) : delayInRange (.num x) cap = true ↔ 0 ≤ x ∧ x < cap := by
  simp [delayInRange, finite?]

theorem ringBack_lt (w back n : Nat) (hn : 1 ≤ n) : ringBack w back n < n := by
  unfold ringBack
  have h1 := Int.emod_nonneg ((w : Int) - back) (b := n) (by omega)
  have h2 := Int.emod_lt_of_pos ((w : Int) - back) (b := n) (by omega)
  omega

@[simp] theorem piRange_length (s : State) (n : Nat) : (s.piRange n).length = n := by simp [State.piRange]

@[simp] theorem psRange_length (s : State) (n : Nat) : (s.psRange n).length = n := by simp [State.psRange]

@[simp] theorem cells_length (m : Memory Scalar) (n : Nat) : (cells m n).length = n := by simp [cells]

end Sys2Proof.Machine
end

