-- ==== Sys2Proof/Laws/Decode.lean ====
section
/-!
SUPPORT. The fields of a packed word, and the opcode map read both ways.
-/

namespace Sys2Proof

section
variable (op slot idx : Nat)

theorem packWord_toNat (ho : op < 256) (hs : slot < 256) (hi : idx < 65536) :
    (packWord op slot idx).toNat = op + 256 * slot + 65536 * idx := by
  simp only [packWord, BitVec.toNat_ofNat]
  omega

theorem opField_packWord (ho : op < 256) (hs : slot < 256) (hi : idx < 65536) :
    opField (packWord op slot idx) = op := by
  simp only [opField, bits, packWord_toNat op slot idx ho hs hi]
  omega

theorem slotField_packWord (ho : op < 256) (hs : slot < 256) (hi : idx < 65536) :
    slotField (packWord op slot idx) = slot := by
  simp only [slotField, bits, packWord_toNat op slot idx ho hs hi]
  omega

theorem idxField_packWord (ho : op < 256) (hs : slot < 256) (hi : idx < 65536) :
    idxField (packWord op slot idx) = idx := by
  simp only [idxField, bits, packWord_toNat op slot idx ho hs hi]
  omega

end

theorem opField_lt (w : Word) : opField w < 256 := Nat.mod_lt _ (by decide)

theorem slotField_lt (w : Word) : slotField w < 256 := Nat.mod_lt _ (by decide)

theorem idxField_lt (w : Word) : idxField w < 65536 := Nat.mod_lt _ (by decide)

/-- A word is its three fields. -/
theorem packWord_fields (w : Word) : packWord (opField w) (slotField w) (idxField w) = w := by
  apply BitVec.eq_of_toNat_eq
  rw [packWord_toNat _ _ _ (opField_lt w) (slotField_lt w) (idxField_lt w)]
  have := w.isLt
  simp only [opField, slotField, idxField, bits]
  omega

theorem Opcode.code_lt (o : Opcode) : o.code < 256 := by cases o <;> decide

theorem Opcode.ofCode?_code (o : Opcode) : Opcode.ofCode? o.code = some o := by cases o <;> rfl

theorem Opcode.code_of_ofCode? {op : Nat} {o : Opcode} (h : Opcode.ofCode? op = some o) : o.code = op := by
  have := List.find?_some h
  simpa using this

/-- The operands of a well-formed command fit their fields. -/
theorem Instr.wellFormed_bounds {i : Instr} (h : i.wellFormed = true) :
    i.slot?.getD 0 < 256 ∧ i.idxValue < 65536 := by
  cases i <;> simp [Instr.wellFormed, slotFits, idxFits, Instr.slot?, Instr.idxValue] at h ⊢ <;> omega

end Sys2Proof
end

