-- ==== Sys2Proof/Laws/HostProcedures.lean ====
section
/-!
SUPPORT. The small lemmas of the host procedures: how procedures follow one another, that none is done on a
FAULTED block, and what a sink receives.
-/

namespace Sys2Proof.Machine

section
variable {α β : Type}

@[simp] theorem andThen_next (s : State) (v : α) (k : State → α → HostOutcome β) :
    andThen (.next (s, v)) k = k s v := rfl

@[simp] theorem andThen_failed (s : State) (f : Fault) (k : State → α → HostOutcome β) :
    andThen (.failed s f) k = .failed s f := rfl

@[simp] theorem andThen_refused (r : Refusal) (k : State → α → HostOutcome β) :
    andThen (.refused r) k = .refused r := rfl

/-- A sequence that is done has done both parts. -/
theorem andThen_eq_next {p : HostOutcome α} {k : State → α → HostOutcome β} {r : State × β}
    (h : andThen p k = .next r) : ∃ s v, p = .next (s, v) ∧ k s v = .next r := by
  cases p with
  | next q => exact ⟨q.1, q.2, rfl, h⟩
  | failed s f => cases h
  | refused e => cases h

theorem unlessFaulted_of_running {s : State} (v : α) (h : s.faulted = false) :
    unlessFaulted s v = .next (s, v) := by simp [unlessFaulted, h]

theorem unlessFaulted_of_faulted {s : State} (v : α) (h : s.faulted = true) :
    unlessFaulted s v = .failed s .blockFaulted := by simp [unlessFaulted, h]

theorem unlessFaulted_eq_next {s t : State} {u v : α} (h : unlessFaulted s u = .next (t, v)) :
    t = s ∧ v = u ∧ s.faulted = false := by
  unfold unlessFaulted at h
  split at h
  · cases h
  · rename_i hf
    cases h
    exact ⟨rfl, rfl, by simpa using hf⟩

theorem unlessAliased_of_nodup {gs : List Graph} (p : HostOutcome α) (h : (slotsOf gs).Nodup) :
    unlessAliased gs p = p := by simp [unlessAliased, h]

theorem unlessAliased_of_twice {gs : List Graph} (p : HostOutcome α) (h : ¬(slotsOf gs).Nodup) :
    unlessAliased gs p = .refused .aliasedUnit := by simp [unlessAliased, h]

/-- Graphs that could be constructed and name each slot once. -/
theorem constructed_of_ok {gs : List Graph} (s : State) (p : HostOutcome α) (h : allConfigured gs = true)
    (hs : (slotsOf gs).Nodup) : constructed gs s p = p := by
  simp [constructed, h, unlessAliased_of_nodup p hs]

theorem constructed_of_violation {gs : List Graph} (s : State) (p : HostOutcome α)
    (h : allConfigured gs = false) : constructed gs s p = .failed s .hostConfiguration := by
  simp [constructed, h]

/-- A procedure over graphs that is done has had its graphs constructed. -/
theorem constructed_eq_next {gs : List Graph} {s : State} {p : HostOutcome α} {r : State × α}
    (h : constructed gs s p = .next r) :
    allConfigured gs = true ∧ (slotsOf gs).Nodup ∧ p = .next r := by
  unfold constructed unlessAliased at h
  split at h
  · rename_i hc
    split at h
    · rename_i hs
      exact ⟨hc, hs, h⟩
    · cases h
  · cases h

end

@[simp] theorem performAll_nil (s : State) : performAll [] s = .next (s, ()) := rfl

theorem performAll_cons {a : HostAction} {s t : State} (rest : List HostAction) (h : perform a s = .next t) :
    performAll (a :: rest) s = performAll rest t := by simp [performAll, h]

/-- What a procedure reads of `YOUT` it reads of a block that is not FAULTED (R214). -/
theorem readingYout_eq_next {actions : List HostAction} {s t : State} {y : Scalar}
    (h : readingYout actions s = .next (t, y)) :
    ∃ u, performAll actions s = .next (u, ()) ∧ u.faulted = false ∧ y = u.yout ∧ t = u.withOutput y := by
  obtain ⟨u, _, hu, h⟩ := andThen_eq_next h
  obtain ⟨v, z, hv, h⟩ := andThen_eq_next h
  obtain ⟨rfl, rfl, hf⟩ := unlessFaulted_eq_next hv
  cases h
  exact ⟨v, hu, hf, rfl, rfl⟩

/-- In exact arithmetic a Parallel of ones adds its results as they are: R194 and R198 agree. -/
theorem weightedSum_ones_exact (rs : List Rat) :
    weightedSum .exact (List.replicate rs.length (.ofRat 1)) (rs.map Scalar.ofRat) =
      sumUp .exact (rs.map Scalar.ofRat) := by
  have h : List.zipWith (smul .exact) (List.replicate rs.length (.ofRat 1)) (rs.map Scalar.ofRat) =
      rs.map Scalar.ofRat := by
    induction rs with
    | nil => rfl
    | cons r rs ih => simp [List.replicate_succ, ih, smul, scalarOp, realOp]
  rw [weightedSum, h]

@[simp] theorem writeNext_unbounded (items : List Scalar) (v : Scalar) :
    writeNext { capacity := none, items := items } v = .ok { capacity := none, items := items ++ [v] } := rfl

theorem writeNext_of_room {n : Nat} {items : List Scalar} (v : Scalar) (h : items.length < n) :
    writeNext { capacity := some n, items := items } v = .ok { capacity := some n, items := items ++ [v] } := by
  simp [writeNext, h]

theorem writeNext_of_full {n : Nat} {items : List Scalar} (v : Scalar) (h : n ≤ items.length) :
    writeNext { capacity := some n, items := items } v = .error .sinkOverflow := by
  simp [writeNext, Nat.not_lt.mpr h]

section
variable {α : Type} (one : α → State → HostOutcome Scalar)

@[simp] theorem drain_nil (k : Sink) (s : State) : drain one [] k s = .next (s, k) := rfl

theorem drain_cons {x : α} {s t : State} {y : Scalar} (xs : List α) {k k1 : Sink}
    (h : one x s = .next (t, y)) (hk : writeNext k y = .ok k1) :
    drain one (x :: xs) k s = drain one xs k1 t := by simp [drain, h, hk]

/-- An unbounded sink receives after what it holds what an empty one receives. -/
theorem drain_unbounded (xs : List α) (items : List Scalar) (s : State) :
    drain one xs { capacity := none, items := items } s =
      andThen (drain one xs Sink.unbounded s)
        (fun t k => .next (t, { capacity := none, items := items ++ k.items })) := by
  induction xs generalizing items s with
  | nil => simp [Sink.unbounded]
  | cons x xs ih =>
    cases h : one x s with
    | next r =>
      obtain ⟨t, y⟩ := r
      rw [drain_cons one xs h (writeNext_unbounded items y),
        drain_cons one xs h (show writeNext Sink.unbounded y = _ from writeNext_unbounded [] y),
        ih (items ++ [y]), ih ([] ++ [y])]
      cases drain one xs Sink.unbounded t <;> simp [andThen]
    | failed t f => simp [drain, h]
    | refused r => simp [drain, h]

end

end Sys2Proof.Machine
end

