-- ==== Sys2Proof/Laws/Memory.lean ====
section
/-!
SUPPORT. The laws of a memory of whole cells: a read after a write, what a write leaves alone, that every
operation keeps the canonical form, and that canonical memories that read alike are equal.
-/

namespace Sys2Proof.Machine

section
variable {α : Type} (z : α) (m : Memory α) (i j : Nat) (v : α)

@[simp] theorem Memory.read_nil : Memory.read z ([] : Memory α) i = z := rfl

theorem Memory.nil_wf : Memory.wf z ([] : Memory α) := ⟨List.Pairwise.nil, by simp⟩

theorem Memory.read_cons (a : Nat) (x : α) :
    Memory.read z ((a, x) :: m) i = if a = i then x else Memory.read z m i := rfl

theorem Memory.read_of_not_listed (h : ∀ c ∈ m, c.1 ≠ i) : Memory.read z m i = z := by
  induction m with
  | nil => rfl
  | cons c rest ih =>
    obtain ⟨a, x⟩ := c
    have ha : a ≠ i := h (a, x) (by simp)
    simp only [Memory.read_cons, ha, if_false]
    exact ih (fun c hc => h c (List.mem_cons_of_mem _ hc))

theorem Memory.read_erase_same : Memory.read z (Memory.erase m i) i = z :=
  Memory.read_of_not_listed z _ i (by simp [Memory.erase])

theorem Memory.read_erase_other (h : j ≠ i) : Memory.read z (Memory.erase m i) j = Memory.read z m j := by
  induction m with
  | nil => rfl
  | cons c rest ih =>
    obtain ⟨a, x⟩ := c
    by_cases ha : a = i
    · have hj : a ≠ j := fun e => h (e.symm.trans ha)
      simp only [Memory.erase, List.filter, ha, bne_self_eq_false, Memory.read_cons] at ih ⊢
      simp only [show i ≠ j from fun e => h e.symm, if_false]
      exact ih
    · simp only [Memory.erase, List.filter, show (a != i) = true by simp [ha], Memory.read_cons] at ih ⊢
      rw [ih]

theorem Memory.read_insert_same (h : ∀ c ∈ m, c.1 ≠ i) : Memory.read z (Memory.insert i v m) i = v := by
  induction m with
  | nil => simp [Memory.insert, Memory.read]
  | cons c rest ih =>
    obtain ⟨a, x⟩ := c
    have ha : a ≠ i := h (a, x) (by simp)
    simp only [Memory.insert]
    split
    · simp [Memory.read]
    · simp only [Memory.read_cons, ha, if_false]
      exact ih (fun c hc => h c (List.mem_cons_of_mem _ hc))

theorem Memory.read_insert_other (h : j ≠ i) :
    Memory.read z (Memory.insert i v m) j = Memory.read z m j := by
  induction m with
  | nil => simp [Memory.insert, Memory.read, Ne.symm h]
  | cons c rest ih =>
    obtain ⟨a, x⟩ := c
    simp only [Memory.insert]
    split
    · simp [Memory.read_cons, Ne.symm h]
    · simp only [Memory.read_cons, ih]

theorem Memory.mem_insert (c : Nat × α) : c ∈ Memory.insert i v m ↔ c = (i, v) ∨ c ∈ m := by
  induction m with
  | nil => simp [Memory.insert]
  | cons d rest ih =>
    obtain ⟨a, x⟩ := d
    simp only [Memory.insert]
    split
    · simp
    · simp only [List.mem_cons, ih]
      tauto

theorem Memory.mem_erase (c : Nat × α) : c ∈ Memory.erase m i ↔ c ∈ m ∧ c.1 ≠ i := by
  simp [Memory.erase]

theorem Memory.insert_rising (hm : m.Pairwise (fun a b => a.1 < b.1)) (h : ∀ c ∈ m, c.1 ≠ i) :
    (Memory.insert i v m).Pairwise (fun a b => a.1 < b.1) := by
  induction m with
  | nil => simp [Memory.insert]
  | cons c rest ih =>
    obtain ⟨a, x⟩ := c
    obtain ⟨hlt, hrest⟩ := List.pairwise_cons.mp hm
    have ha : a ≠ i := h (a, x) (by simp)
    simp only [Memory.insert]
    split
    · rename_i hia
      refine List.pairwise_cons.mpr ⟨fun c hc => ?_, hm⟩
      rcases List.mem_cons.mp hc with rfl | hc
      · exact hia
      · exact Nat.lt_trans hia (hlt c hc)
    · rename_i hia
      refine List.pairwise_cons.mpr ⟨fun c hc => ?_, ih hrest (fun c hc => h c (List.mem_cons_of_mem _ hc))⟩
      rcases (Memory.mem_insert rest i v c).mp hc with rfl | hc
      · simp only; omega
      · exact hlt c hc

theorem Memory.erase_rising (hm : m.Pairwise (fun a b => a.1 < b.1)) :
    (Memory.erase m i).Pairwise (fun a b => a.1 < b.1) := hm.filter _

theorem Memory.within_of_le {n k : Nat} (h : Memory.within m n) (hk : n ≤ k) : Memory.within m k :=
  fun c hc => Nat.lt_of_lt_of_le (h c hc) hk

end

section
variable {α : Type} [DecidableEq α] (z : α) (m : Memory α) (i j : Nat) (v : α)

@[simp] theorem Memory.read_write_same : Memory.read z (Memory.write z m i v) i = v := by
  simp only [Memory.write]
  split
  · rename_i hv
    rw [Memory.read_erase_same, hv]
  · exact Memory.read_insert_same z _ i v (fun c hc => ((Memory.mem_erase m i c).mp hc).2)

theorem Memory.read_write_other (h : j ≠ i) :
    Memory.read z (Memory.write z m i v) j = Memory.read z m j := by
  simp only [Memory.write]
  split
  · exact Memory.read_erase_other z m i j h
  · rw [Memory.read_insert_other z _ i j v h, Memory.read_erase_other z m i j h]

theorem Memory.read_write :
    Memory.read z (Memory.write z m i v) j = if j = i then v else Memory.read z m j := by
  split
  · rename_i h
    rw [h, Memory.read_write_same]
  · rename_i h
    exact Memory.read_write_other z m i j v h

theorem Memory.mem_write {c : Nat × α} (h : c ∈ Memory.write z m i v) : c = (i, v) ∨ c ∈ m := by
  simp only [Memory.write] at h
  split at h
  · exact Or.inr ((Memory.mem_erase m i c).mp h).1
  · rcases (Memory.mem_insert _ i v c).mp h with h | h
    · exact Or.inl h
    · exact Or.inr ((Memory.mem_erase m i c).mp h).1

/-- A write keeps the canonical form. -/
theorem Memory.write_wf (hm : Memory.wf z m) : Memory.wf z (Memory.write z m i v) := by
  refine ⟨?_, ?_⟩
  · simp only [Memory.write]
    split
    · exact Memory.erase_rising m i hm.1
    · exact Memory.insert_rising _ i v (Memory.erase_rising m i hm.1)
        (fun c hc => ((Memory.mem_erase m i c).mp hc).2)
  · intro c hc
    simp only [Memory.write] at hc
    split at hc
    · exact hm.2 c ((Memory.mem_erase m i c).mp hc).1
    · rename_i hv
      rcases (Memory.mem_insert _ i v c).mp hc with rfl | h
      · exact hv
      · exact hm.2 c ((Memory.mem_erase m i c).mp h).1

theorem Memory.write_within {n : Nat} (hm : Memory.within m n) (hi : i < n) :
    Memory.within (Memory.write z m i v) n := by
  intro c hc
  rcases Memory.mem_write z m i v hc with rfl | h
  · exact hi
  · exact hm c h

theorem Memory.ofFn_wf (n : Nat) (f : Nat → α) : Memory.wf z (Memory.ofFn z n f) := by
  refine ⟨?_, ?_⟩
  · refine List.Pairwise.filter _ ?_
    rw [List.pairwise_map]
    exact List.pairwise_lt_range
  · intro c hc
    simpa using (List.mem_filter.mp hc).2

theorem Memory.ofFn_within (n : Nat) (f : Nat → α) : Memory.within (Memory.ofFn z n f) n := by
  intro c hc
  obtain ⟨k, hk, rfl⟩ := List.mem_map.mp (List.mem_filter.mp hc).1
  exact List.mem_range.mp hk

end

theorem Memory.read_eq_of_mem {α : Type} (z : α) (m : Memory α) (hm : m.Pairwise (fun a b => a.1 < b.1))
    {i : Nat} {v : α} (h : (i, v) ∈ m) : Memory.read z m i = v := by
  induction m with
  | nil => simp at h
  | cons c rest ih =>
    obtain ⟨a, x⟩ := c
    obtain ⟨hlt, hrest⟩ := List.pairwise_cons.mp hm
    rcases List.mem_cons.mp h with h | h
    · obtain ⟨rfl, rfl⟩ := Prod.mk.inj h
      simp [Memory.read]
    · have := hlt _ h
      simp only [Memory.read_cons, show a ≠ i from by simp only at this; omega, if_false]
      exact ih hrest h

/-- In canonical form a cell is listed exactly when it does not read as `z`. -/
theorem Memory.mem_iff_read {α : Type} (z : α) (m : Memory α) (hm : Memory.wf z m) (i : Nat) (v : α) :
    (i, v) ∈ m ↔ Memory.read z m i = v ∧ v ≠ z := by
  constructor
  · intro h
    exact ⟨Memory.read_eq_of_mem z m hm.1 h, hm.2 _ h⟩
  · rintro ⟨h, hv⟩
    by_cases hl : ∀ c ∈ m, c.1 ≠ i
    · exact absurd ((Memory.read_of_not_listed z m i hl).symm.trans h).symm hv
    · simp only [not_forall, not_not] at hl
      obtain ⟨⟨a, x⟩, hc, rfl⟩ := hl
      have := Memory.read_eq_of_mem z m hm.1 hc
      rw [h] at this
      rwa [this]

/-- Canonical memories that read alike are equal. -/
theorem Memory.ext_of_wf {α : Type} (z : α) (m n : Memory α) (hm : Memory.wf z m) (hn : Memory.wf z n)
    (h : ∀ i, Memory.read z m i = Memory.read z n i) : m = n := by
  refine List.Perm.eq_of_pairwise (le := fun a b => a.1 < b.1) ?_ hm.1 hn.1 ?_
  · intro a b _ _ hab hba
    omega
  · refine (List.perm_ext_iff_of_nodup ?_ ?_).mpr ?_
    · exact hm.1.imp (fun h e => by rw [e] at h; exact Nat.lt_irrefl _ h)
    · exact hn.1.imp (fun h e => by rw [e] at h; exact Nat.lt_irrefl _ h)
    · rintro ⟨i, v⟩
      rw [Memory.mem_iff_read z m hm, Memory.mem_iff_read z n hn, h]

/-- In canonical form, writes to different cells commute. -/
theorem Memory.write_comm {α : Type} [DecidableEq α] (z : α) (m : Memory α) (hm : Memory.wf z m)
    (i j : Nat) (u v : α) (hij : i ≠ j) :
    Memory.write z (Memory.write z m i u) j v = Memory.write z (Memory.write z m j v) i u := by
  refine Memory.ext_of_wf z _ _ (Memory.write_wf z _ j v (Memory.write_wf z m i u hm))
    (Memory.write_wf z _ i u (Memory.write_wf z m j v hm)) (fun k => ?_)
  simp only [Memory.read_write]
  by_cases hk : k = i
  · simp [hk, hij]
  · simp [hk]

theorem Memory.read_ofFn {α : Type} [DecidableEq α] (z : α) (n : Nat) (f : Nat → α) (i : Nat) :
    Memory.read z (Memory.ofFn z n f) i = if i < n then f i else z := by
  split
  · rename_i h
    by_cases hz : f i = z
    · rw [hz]
      refine Memory.read_of_not_listed z _ i (fun c hc e => ?_)
      obtain ⟨hc, hne⟩ := List.mem_filter.mp hc
      obtain ⟨k, _, rfl⟩ := List.mem_map.mp hc
      simp only at e
      subst e
      simp [hz] at hne
    · refine Memory.read_eq_of_mem z _ (Memory.ofFn_wf z n f).1 (List.mem_filter.mpr ⟨?_, by simpa using hz⟩)
      exact List.mem_map.mpr ⟨i, List.mem_range.mpr h, rfl⟩
  · rename_i h
    refine Memory.read_of_not_listed z _ i (fun c hc e => h ?_)
    exact e ▸ Memory.ofFn_within z n f c hc

section
variable (m : Memory Scalar) (i j : Nat) (v : Scalar) (s : State)

@[simp] theorem cell_nil : cell [] i = Scalar.zero := rfl

@[simp] theorem cell_setCell_same : cell (setCell m i v) i = v := Memory.read_write_same Scalar.zero m i v

theorem cell_setCell : cell (setCell m i v) j = if j = i then v else cell m j :=
  Memory.read_write Scalar.zero m i j v

theorem cell_setCell_other (h : j ≠ i) : cell (setCell m i v) j = cell m j :=
  Memory.read_write_other Scalar.zero m i j v h

end

end Sys2Proof.Machine
end

