-- ==== Sys2Proof/Laws/State.lean ====
section
/-!
SUPPORT. One lemma per field per update of `State`, true by rfl, so that no later proof unfolds a record
update; the same for `raise` and `advanceCp`.
-/

namespace Sys2Proof.Machine

variable (s : State)

@[simp] theorem State.withIarg_params (v : Word) : (s.withIarg v).params = s.params := rfl
@[simp] theorem State.withIarg_iarg (v : Word) : (s.withIarg v).iarg = v := rfl
@[simp] theorem State.withIarg_xin (v : Word) : (s.withIarg v).xin = s.xin := rfl
@[simp] theorem State.withIarg_din (v : Word) : (s.withIarg v).din = s.din := rfl
@[simp] theorem State.withIarg_yout (v : Word) : (s.withIarg v).yout = s.yout := rfl
@[simp] theorem State.withIarg_fstat (v : Word) : (s.withIarg v).fstat = s.fstat := rfl
@[simp] theorem State.withIarg_pi (v : Word) : (s.withIarg v).pi = s.pi := rfl
@[simp] theorem State.withIarg_ps (v : Word) : (s.withIarg v).ps = s.ps := rfl
@[simp] theorem State.withIarg_slots (v : Word) : (s.withIarg v).slots = s.slots := rfl
@[simp] theorem State.withIarg_program (v : Word) : (s.withIarg v).program = s.program := rfl
@[simp] theorem State.withIarg_cp (v : Word) : (s.withIarg v).cp = s.cp := rfl
@[simp] theorem State.withIarg_outputs (v : Word) : (s.withIarg v).outputs = s.outputs := rfl
@[simp] theorem State.withIarg_statusReads (v : Word) : (s.withIarg v).statusReads = s.statusReads := rfl
@[simp] theorem State.withIarg_operandReads (v : Word) : (s.withIarg v).operandReads = s.operandReads := rfl

@[simp] theorem State.withXin_params (v : Scalar) : (s.withXin v).params = s.params := rfl
@[simp] theorem State.withXin_iarg (v : Scalar) : (s.withXin v).iarg = s.iarg := rfl
@[simp] theorem State.withXin_xin (v : Scalar) : (s.withXin v).xin = v := rfl
@[simp] theorem State.withXin_din (v : Scalar) : (s.withXin v).din = s.din := rfl
@[simp] theorem State.withXin_yout (v : Scalar) : (s.withXin v).yout = s.yout := rfl
@[simp] theorem State.withXin_fstat (v : Scalar) : (s.withXin v).fstat = s.fstat := rfl
@[simp] theorem State.withXin_pi (v : Scalar) : (s.withXin v).pi = s.pi := rfl
@[simp] theorem State.withXin_ps (v : Scalar) : (s.withXin v).ps = s.ps := rfl
@[simp] theorem State.withXin_slots (v : Scalar) : (s.withXin v).slots = s.slots := rfl
@[simp] theorem State.withXin_program (v : Scalar) : (s.withXin v).program = s.program := rfl
@[simp] theorem State.withXin_cp (v : Scalar) : (s.withXin v).cp = s.cp := rfl
@[simp] theorem State.withXin_outputs (v : Scalar) : (s.withXin v).outputs = s.outputs := rfl
@[simp] theorem State.withXin_statusReads (v : Scalar) : (s.withXin v).statusReads = s.statusReads := rfl
@[simp] theorem State.withXin_operandReads (v : Scalar) : (s.withXin v).operandReads = s.operandReads := rfl

@[simp] theorem State.withDin_params (v : RVal) : (s.withDin v).params = s.params := rfl
@[simp] theorem State.withDin_iarg (v : RVal) : (s.withDin v).iarg = s.iarg := rfl
@[simp] theorem State.withDin_xin (v : RVal) : (s.withDin v).xin = s.xin := rfl
@[simp] theorem State.withDin_din (v : RVal) : (s.withDin v).din = v := rfl
@[simp] theorem State.withDin_yout (v : RVal) : (s.withDin v).yout = s.yout := rfl
@[simp] theorem State.withDin_fstat (v : RVal) : (s.withDin v).fstat = s.fstat := rfl
@[simp] theorem State.withDin_pi (v : RVal) : (s.withDin v).pi = s.pi := rfl
@[simp] theorem State.withDin_ps (v : RVal) : (s.withDin v).ps = s.ps := rfl
@[simp] theorem State.withDin_slots (v : RVal) : (s.withDin v).slots = s.slots := rfl
@[simp] theorem State.withDin_program (v : RVal) : (s.withDin v).program = s.program := rfl
@[simp] theorem State.withDin_cp (v : RVal) : (s.withDin v).cp = s.cp := rfl
@[simp] theorem State.withDin_outputs (v : RVal) : (s.withDin v).outputs = s.outputs := rfl
@[simp] theorem State.withDin_statusReads (v : RVal) : (s.withDin v).statusReads = s.statusReads := rfl
@[simp] theorem State.withDin_operandReads (v : RVal) : (s.withDin v).operandReads = s.operandReads := rfl

@[simp] theorem State.withYout_params (v : Scalar) : (s.withYout v).params = s.params := rfl
@[simp] theorem State.withYout_iarg (v : Scalar) : (s.withYout v).iarg = s.iarg := rfl
@[simp] theorem State.withYout_xin (v : Scalar) : (s.withYout v).xin = s.xin := rfl
@[simp] theorem State.withYout_din (v : Scalar) : (s.withYout v).din = s.din := rfl
@[simp] theorem State.withYout_yout (v : Scalar) : (s.withYout v).yout = v := rfl
@[simp] theorem State.withYout_fstat (v : Scalar) : (s.withYout v).fstat = s.fstat := rfl
@[simp] theorem State.withYout_pi (v : Scalar) : (s.withYout v).pi = s.pi := rfl
@[simp] theorem State.withYout_ps (v : Scalar) : (s.withYout v).ps = s.ps := rfl
@[simp] theorem State.withYout_slots (v : Scalar) : (s.withYout v).slots = s.slots := rfl
@[simp] theorem State.withYout_program (v : Scalar) : (s.withYout v).program = s.program := rfl
@[simp] theorem State.withYout_cp (v : Scalar) : (s.withYout v).cp = s.cp := rfl
@[simp] theorem State.withYout_outputs (v : Scalar) : (s.withYout v).outputs = s.outputs := rfl
@[simp] theorem State.withYout_statusReads (v : Scalar) : (s.withYout v).statusReads = s.statusReads := rfl
@[simp] theorem State.withYout_operandReads (v : Scalar) : (s.withYout v).operandReads = s.operandReads := rfl

@[simp] theorem State.withFstat_params (v : Word) : (s.withFstat v).params = s.params := rfl
@[simp] theorem State.withFstat_iarg (v : Word) : (s.withFstat v).iarg = s.iarg := rfl
@[simp] theorem State.withFstat_xin (v : Word) : (s.withFstat v).xin = s.xin := rfl
@[simp] theorem State.withFstat_din (v : Word) : (s.withFstat v).din = s.din := rfl
@[simp] theorem State.withFstat_yout (v : Word) : (s.withFstat v).yout = s.yout := rfl
@[simp] theorem State.withFstat_fstat (v : Word) : (s.withFstat v).fstat = v := rfl
@[simp] theorem State.withFstat_pi (v : Word) : (s.withFstat v).pi = s.pi := rfl
@[simp] theorem State.withFstat_ps (v : Word) : (s.withFstat v).ps = s.ps := rfl
@[simp] theorem State.withFstat_slots (v : Word) : (s.withFstat v).slots = s.slots := rfl
@[simp] theorem State.withFstat_program (v : Word) : (s.withFstat v).program = s.program := rfl
@[simp] theorem State.withFstat_cp (v : Word) : (s.withFstat v).cp = s.cp := rfl
@[simp] theorem State.withFstat_outputs (v : Word) : (s.withFstat v).outputs = s.outputs := rfl
@[simp] theorem State.withFstat_statusReads (v : Word) : (s.withFstat v).statusReads = s.statusReads := rfl
@[simp] theorem State.withFstat_operandReads (v : Word) : (s.withFstat v).operandReads = s.operandReads := rfl

@[simp] theorem State.withPi_params (i : Nat) (v : Word) : (s.withPi i v).params = s.params := rfl
@[simp] theorem State.withPi_iarg (i : Nat) (v : Word) : (s.withPi i v).iarg = s.iarg := rfl
@[simp] theorem State.withPi_xin (i : Nat) (v : Word) : (s.withPi i v).xin = s.xin := rfl
@[simp] theorem State.withPi_din (i : Nat) (v : Word) : (s.withPi i v).din = s.din := rfl
@[simp] theorem State.withPi_yout (i : Nat) (v : Word) : (s.withPi i v).yout = s.yout := rfl
@[simp] theorem State.withPi_fstat (i : Nat) (v : Word) : (s.withPi i v).fstat = s.fstat := rfl
@[simp] theorem State.withPi_pi (i : Nat) (v : Word) : (s.withPi i v).pi = Memory.write 0 s.pi i v := rfl
@[simp] theorem State.withPi_ps (i : Nat) (v : Word) : (s.withPi i v).ps = s.ps := rfl
@[simp] theorem State.withPi_slots (i : Nat) (v : Word) : (s.withPi i v).slots = s.slots := rfl
@[simp] theorem State.withPi_program (i : Nat) (v : Word) : (s.withPi i v).program = s.program := rfl
@[simp] theorem State.withPi_cp (i : Nat) (v : Word) : (s.withPi i v).cp = s.cp := rfl
@[simp] theorem State.withPi_outputs (i : Nat) (v : Word) : (s.withPi i v).outputs = s.outputs := rfl
@[simp] theorem State.withPi_statusReads (i : Nat) (v : Word) : (s.withPi i v).statusReads = s.statusReads := rfl
@[simp] theorem State.withPi_operandReads (i : Nat) (v : Word) : (s.withPi i v).operandReads = s.operandReads := rfl

@[simp] theorem State.withPs_params (i : Nat) (v : Scalar) : (s.withPs i v).params = s.params := rfl
@[simp] theorem State.withPs_iarg (i : Nat) (v : Scalar) : (s.withPs i v).iarg = s.iarg := rfl
@[simp] theorem State.withPs_xin (i : Nat) (v : Scalar) : (s.withPs i v).xin = s.xin := rfl
@[simp] theorem State.withPs_din (i : Nat) (v : Scalar) : (s.withPs i v).din = s.din := rfl
@[simp] theorem State.withPs_yout (i : Nat) (v : Scalar) : (s.withPs i v).yout = s.yout := rfl
@[simp] theorem State.withPs_fstat (i : Nat) (v : Scalar) : (s.withPs i v).fstat = s.fstat := rfl
@[simp] theorem State.withPs_pi (i : Nat) (v : Scalar) : (s.withPs i v).pi = s.pi := rfl
@[simp] theorem State.withPs_ps (i : Nat) (v : Scalar) : (s.withPs i v).ps = Memory.write Scalar.zero s.ps i v := rfl
@[simp] theorem State.withPs_slots (i : Nat) (v : Scalar) : (s.withPs i v).slots = s.slots := rfl
@[simp] theorem State.withPs_program (i : Nat) (v : Scalar) : (s.withPs i v).program = s.program := rfl
@[simp] theorem State.withPs_cp (i : Nat) (v : Scalar) : (s.withPs i v).cp = s.cp := rfl
@[simp] theorem State.withPs_outputs (i : Nat) (v : Scalar) : (s.withPs i v).outputs = s.outputs := rfl
@[simp] theorem State.withPs_statusReads (i : Nat) (v : Scalar) : (s.withPs i v).statusReads = s.statusReads := rfl
@[simp] theorem State.withPs_operandReads (i : Nat) (v : Scalar) : (s.withPs i v).operandReads = s.operandReads := rfl

@[simp] theorem State.withSlot_params (n : Nat) (u : Option FilterUnit) : (s.withSlot n u).params = s.params := rfl
@[simp] theorem State.withSlot_iarg (n : Nat) (u : Option FilterUnit) : (s.withSlot n u).iarg = s.iarg := rfl
@[simp] theorem State.withSlot_xin (n : Nat) (u : Option FilterUnit) : (s.withSlot n u).xin = s.xin := rfl
@[simp] theorem State.withSlot_din (n : Nat) (u : Option FilterUnit) : (s.withSlot n u).din = s.din := rfl
@[simp] theorem State.withSlot_yout (n : Nat) (u : Option FilterUnit) : (s.withSlot n u).yout = s.yout := rfl
@[simp] theorem State.withSlot_fstat (n : Nat) (u : Option FilterUnit) : (s.withSlot n u).fstat = s.fstat := rfl
@[simp] theorem State.withSlot_pi (n : Nat) (u : Option FilterUnit) : (s.withSlot n u).pi = s.pi := rfl
@[simp] theorem State.withSlot_ps (n : Nat) (u : Option FilterUnit) : (s.withSlot n u).ps = s.ps := rfl
@[simp] theorem State.withSlot_slots (n : Nat) (u : Option FilterUnit) : (s.withSlot n u).slots = Memory.write none s.slots n u := rfl
@[simp] theorem State.withSlot_program (n : Nat) (u : Option FilterUnit) : (s.withSlot n u).program = s.program := rfl
@[simp] theorem State.withSlot_cp (n : Nat) (u : Option FilterUnit) : (s.withSlot n u).cp = s.cp := rfl
@[simp] theorem State.withSlot_outputs (n : Nat) (u : Option FilterUnit) : (s.withSlot n u).outputs = s.outputs := rfl
@[simp] theorem State.withSlot_statusReads (n : Nat) (u : Option FilterUnit) : (s.withSlot n u).statusReads = s.statusReads := rfl
@[simp] theorem State.withSlot_operandReads (n : Nat) (u : Option FilterUnit) : (s.withSlot n u).operandReads = s.operandReads := rfl

@[simp] theorem State.withCp_params (n : Nat) : (s.withCp n).params = s.params := rfl
@[simp] theorem State.withCp_iarg (n : Nat) : (s.withCp n).iarg = s.iarg := rfl
@[simp] theorem State.withCp_xin (n : Nat) : (s.withCp n).xin = s.xin := rfl
@[simp] theorem State.withCp_din (n : Nat) : (s.withCp n).din = s.din := rfl
@[simp] theorem State.withCp_yout (n : Nat) : (s.withCp n).yout = s.yout := rfl
@[simp] theorem State.withCp_fstat (n : Nat) : (s.withCp n).fstat = s.fstat := rfl
@[simp] theorem State.withCp_pi (n : Nat) : (s.withCp n).pi = s.pi := rfl
@[simp] theorem State.withCp_ps (n : Nat) : (s.withCp n).ps = s.ps := rfl
@[simp] theorem State.withCp_slots (n : Nat) : (s.withCp n).slots = s.slots := rfl
@[simp] theorem State.withCp_program (n : Nat) : (s.withCp n).program = s.program := rfl
@[simp] theorem State.withCp_cp (n : Nat) : (s.withCp n).cp = n := rfl
@[simp] theorem State.withCp_outputs (n : Nat) : (s.withCp n).outputs = s.outputs := rfl
@[simp] theorem State.withCp_statusReads (n : Nat) : (s.withCp n).statusReads = s.statusReads := rfl
@[simp] theorem State.withCp_operandReads (n : Nat) : (s.withCp n).operandReads = s.operandReads := rfl

@[simp] theorem State.withOutput_params (v : Scalar) : (s.withOutput v).params = s.params := rfl
@[simp] theorem State.withOutput_iarg (v : Scalar) : (s.withOutput v).iarg = s.iarg := rfl
@[simp] theorem State.withOutput_xin (v : Scalar) : (s.withOutput v).xin = s.xin := rfl
@[simp] theorem State.withOutput_din (v : Scalar) : (s.withOutput v).din = s.din := rfl
@[simp] theorem State.withOutput_yout (v : Scalar) : (s.withOutput v).yout = s.yout := rfl
@[simp] theorem State.withOutput_fstat (v : Scalar) : (s.withOutput v).fstat = s.fstat := rfl
@[simp] theorem State.withOutput_pi (v : Scalar) : (s.withOutput v).pi = s.pi := rfl
@[simp] theorem State.withOutput_ps (v : Scalar) : (s.withOutput v).ps = s.ps := rfl
@[simp] theorem State.withOutput_slots (v : Scalar) : (s.withOutput v).slots = s.slots := rfl
@[simp] theorem State.withOutput_program (v : Scalar) : (s.withOutput v).program = s.program := rfl
@[simp] theorem State.withOutput_cp (v : Scalar) : (s.withOutput v).cp = s.cp := rfl
@[simp] theorem State.withOutput_outputs (v : Scalar) : (s.withOutput v).outputs = s.outputs ++ [v] := rfl
@[simp] theorem State.withOutput_statusReads (v : Scalar) : (s.withOutput v).statusReads = s.statusReads := rfl
@[simp] theorem State.withOutput_operandReads (v : Scalar) : (s.withOutput v).operandReads = s.operandReads := rfl

@[simp] theorem State.withStatusRead_params (v : Word) : (s.withStatusRead v).params = s.params := rfl
@[simp] theorem State.withStatusRead_iarg (v : Word) : (s.withStatusRead v).iarg = s.iarg := rfl
@[simp] theorem State.withStatusRead_xin (v : Word) : (s.withStatusRead v).xin = s.xin := rfl
@[simp] theorem State.withStatusRead_din (v : Word) : (s.withStatusRead v).din = s.din := rfl
@[simp] theorem State.withStatusRead_yout (v : Word) : (s.withStatusRead v).yout = s.yout := rfl
@[simp] theorem State.withStatusRead_fstat (v : Word) : (s.withStatusRead v).fstat = s.fstat := rfl
@[simp] theorem State.withStatusRead_pi (v : Word) : (s.withStatusRead v).pi = s.pi := rfl
@[simp] theorem State.withStatusRead_ps (v : Word) : (s.withStatusRead v).ps = s.ps := rfl
@[simp] theorem State.withStatusRead_slots (v : Word) : (s.withStatusRead v).slots = s.slots := rfl
@[simp] theorem State.withStatusRead_program (v : Word) : (s.withStatusRead v).program = s.program := rfl
@[simp] theorem State.withStatusRead_cp (v : Word) : (s.withStatusRead v).cp = s.cp := rfl
@[simp] theorem State.withStatusRead_outputs (v : Word) : (s.withStatusRead v).outputs = s.outputs := rfl
@[simp] theorem State.withStatusRead_statusReads (v : Word) : (s.withStatusRead v).statusReads = s.statusReads ++ [v] := rfl
@[simp] theorem State.withStatusRead_operandReads (v : Word) : (s.withStatusRead v).operandReads = s.operandReads := rfl

@[simp] theorem State.withOperandRead_params (v : OperandRead) : (s.withOperandRead v).params = s.params := rfl
@[simp] theorem State.withOperandRead_iarg (v : OperandRead) : (s.withOperandRead v).iarg = s.iarg := rfl
@[simp] theorem State.withOperandRead_xin (v : OperandRead) : (s.withOperandRead v).xin = s.xin := rfl
@[simp] theorem State.withOperandRead_din (v : OperandRead) : (s.withOperandRead v).din = s.din := rfl
@[simp] theorem State.withOperandRead_yout (v : OperandRead) : (s.withOperandRead v).yout = s.yout := rfl
@[simp] theorem State.withOperandRead_fstat (v : OperandRead) : (s.withOperandRead v).fstat = s.fstat := rfl
@[simp] theorem State.withOperandRead_pi (v : OperandRead) : (s.withOperandRead v).pi = s.pi := rfl
@[simp] theorem State.withOperandRead_ps (v : OperandRead) : (s.withOperandRead v).ps = s.ps := rfl
@[simp] theorem State.withOperandRead_slots (v : OperandRead) : (s.withOperandRead v).slots = s.slots := rfl
@[simp] theorem State.withOperandRead_program (v : OperandRead) : (s.withOperandRead v).program = s.program := rfl
@[simp] theorem State.withOperandRead_cp (v : OperandRead) : (s.withOperandRead v).cp = s.cp := rfl
@[simp] theorem State.withOperandRead_outputs (v : OperandRead) : (s.withOperandRead v).outputs = s.outputs := rfl
@[simp] theorem State.withOperandRead_statusReads (v : OperandRead) : (s.withOperandRead v).statusReads = s.statusReads := rfl
@[simp] theorem State.withOperandRead_operandReads (v : OperandRead) : (s.withOperandRead v).operandReads = s.operandReads ++ [v] := rfl

@[simp] theorem raise_params (c : FaultCause) (w : Word) : (raise c w s).params = s.params := rfl
@[simp] theorem raise_iarg (c : FaultCause) (w : Word) : (raise c w s).iarg = s.iarg := rfl
@[simp] theorem raise_xin (c : FaultCause) (w : Word) : (raise c w s).xin = s.xin := rfl
@[simp] theorem raise_din (c : FaultCause) (w : Word) : (raise c w s).din = s.din := rfl
@[simp] theorem raise_yout (c : FaultCause) (w : Word) : (raise c w s).yout = s.yout := rfl
@[simp] theorem raise_fstat (c : FaultCause) (w : Word) : (raise c w s).fstat = fstatImage c w := rfl
@[simp] theorem raise_pi (c : FaultCause) (w : Word) : (raise c w s).pi = s.pi := rfl
@[simp] theorem raise_ps (c : FaultCause) (w : Word) : (raise c w s).ps = s.ps := rfl
@[simp] theorem raise_slots (c : FaultCause) (w : Word) : (raise c w s).slots = s.slots := rfl
@[simp] theorem raise_program (c : FaultCause) (w : Word) : (raise c w s).program = s.program := rfl
@[simp] theorem raise_cp (c : FaultCause) (w : Word) : (raise c w s).cp = s.cp := rfl
@[simp] theorem raise_outputs (c : FaultCause) (w : Word) : (raise c w s).outputs = s.outputs := rfl
@[simp] theorem raise_statusReads (c : FaultCause) (w : Word) : (raise c w s).statusReads = s.statusReads := rfl
@[simp] theorem raise_operandReads (c : FaultCause) (w : Word) : (raise c w s).operandReads = s.operandReads := rfl

@[simp] theorem State.advanceCp_params : s.advanceCp.params = s.params := rfl
@[simp] theorem State.advanceCp_iarg : s.advanceCp.iarg = s.iarg := rfl
@[simp] theorem State.advanceCp_xin : s.advanceCp.xin = s.xin := rfl
@[simp] theorem State.advanceCp_din : s.advanceCp.din = s.din := rfl
@[simp] theorem State.advanceCp_yout : s.advanceCp.yout = s.yout := rfl
@[simp] theorem State.advanceCp_fstat : s.advanceCp.fstat = s.fstat := rfl
@[simp] theorem State.advanceCp_pi : s.advanceCp.pi = s.pi := rfl
@[simp] theorem State.advanceCp_ps : s.advanceCp.ps = s.ps := rfl
@[simp] theorem State.advanceCp_slots : s.advanceCp.slots = s.slots := rfl
@[simp] theorem State.advanceCp_program : s.advanceCp.program = s.program := rfl
@[simp] theorem State.advanceCp_cp : s.advanceCp.cp = s.cp + 1 := rfl
@[simp] theorem State.advanceCp_outputs : s.advanceCp.outputs = s.outputs := rfl
@[simp] theorem State.advanceCp_statusReads : s.advanceCp.statusReads = s.statusReads := rfl
@[simp] theorem State.advanceCp_operandReads : s.advanceCp.operandReads = s.operandReads := rfl

@[simp] theorem State.withIarg_faulted (v : Word) : (s.withIarg v).faulted = s.faulted := rfl
@[simp] theorem State.withIarg_slotAt (v : Word) (k : Nat) : (s.withIarg v).slotAt k = s.slotAt k := rfl
@[simp] theorem State.withIarg_piAt (v : Word) (k : Nat) : (s.withIarg v).piAt k = s.piAt k := rfl
@[simp] theorem State.withIarg_psAt (v : Word) (k : Nat) : (s.withIarg v).psAt k = s.psAt k := rfl
@[simp] theorem State.withXin_faulted (v : Scalar) : (s.withXin v).faulted = s.faulted := rfl
@[simp] theorem State.withXin_slotAt (v : Scalar) (k : Nat) : (s.withXin v).slotAt k = s.slotAt k := rfl
@[simp] theorem State.withXin_piAt (v : Scalar) (k : Nat) : (s.withXin v).piAt k = s.piAt k := rfl
@[simp] theorem State.withXin_psAt (v : Scalar) (k : Nat) : (s.withXin v).psAt k = s.psAt k := rfl
@[simp] theorem State.withDin_faulted (v : RVal) : (s.withDin v).faulted = s.faulted := rfl
@[simp] theorem State.withDin_slotAt (v : RVal) (k : Nat) : (s.withDin v).slotAt k = s.slotAt k := rfl
@[simp] theorem State.withDin_piAt (v : RVal) (k : Nat) : (s.withDin v).piAt k = s.piAt k := rfl
@[simp] theorem State.withDin_psAt (v : RVal) (k : Nat) : (s.withDin v).psAt k = s.psAt k := rfl
@[simp] theorem State.withYout_faulted (v : Scalar) : (s.withYout v).faulted = s.faulted := rfl
@[simp] theorem State.withYout_slotAt (v : Scalar) (k : Nat) : (s.withYout v).slotAt k = s.slotAt k := rfl
@[simp] theorem State.withYout_piAt (v : Scalar) (k : Nat) : (s.withYout v).piAt k = s.piAt k := rfl
@[simp] theorem State.withYout_psAt (v : Scalar) (k : Nat) : (s.withYout v).psAt k = s.psAt k := rfl
@[simp] theorem State.withFstat_slotAt (v : Word) (k : Nat) : (s.withFstat v).slotAt k = s.slotAt k := rfl
@[simp] theorem State.withFstat_piAt (v : Word) (k : Nat) : (s.withFstat v).piAt k = s.piAt k := rfl
@[simp] theorem State.withFstat_psAt (v : Word) (k : Nat) : (s.withFstat v).psAt k = s.psAt k := rfl
@[simp] theorem State.withPi_faulted (i : Nat) (v : Word) : (s.withPi i v).faulted = s.faulted := rfl
@[simp] theorem State.withPi_slotAt (i : Nat) (v : Word) (k : Nat) : (s.withPi i v).slotAt k = s.slotAt k := rfl
@[simp] theorem State.withPi_psAt (i : Nat) (v : Word) (k : Nat) : (s.withPi i v).psAt k = s.psAt k := rfl
@[simp] theorem State.withPs_faulted (i : Nat) (v : Scalar) : (s.withPs i v).faulted = s.faulted := rfl
@[simp] theorem State.withPs_slotAt (i : Nat) (v : Scalar) (k : Nat) : (s.withPs i v).slotAt k = s.slotAt k := rfl
@[simp] theorem State.withPs_piAt (i : Nat) (v : Scalar) (k : Nat) : (s.withPs i v).piAt k = s.piAt k := rfl
@[simp] theorem State.withSlot_faulted (n : Nat) (u : Option FilterUnit) : (s.withSlot n u).faulted = s.faulted := rfl
@[simp] theorem State.withSlot_piAt (n : Nat) (u : Option FilterUnit) (k : Nat) : (s.withSlot n u).piAt k = s.piAt k := rfl
@[simp] theorem State.withSlot_psAt (n : Nat) (u : Option FilterUnit) (k : Nat) : (s.withSlot n u).psAt k = s.psAt k := rfl
@[simp] theorem State.withCp_faulted (n : Nat) : (s.withCp n).faulted = s.faulted := rfl
@[simp] theorem State.withCp_slotAt (n : Nat) (k : Nat) : (s.withCp n).slotAt k = s.slotAt k := rfl
@[simp] theorem State.withCp_piAt (n : Nat) (k : Nat) : (s.withCp n).piAt k = s.piAt k := rfl
@[simp] theorem State.withCp_psAt (n : Nat) (k : Nat) : (s.withCp n).psAt k = s.psAt k := rfl
@[simp] theorem State.withOutput_faulted (v : Scalar) : (s.withOutput v).faulted = s.faulted := rfl
@[simp] theorem State.withOutput_slotAt (v : Scalar) (k : Nat) : (s.withOutput v).slotAt k = s.slotAt k := rfl
@[simp] theorem State.withOutput_piAt (v : Scalar) (k : Nat) : (s.withOutput v).piAt k = s.piAt k := rfl
@[simp] theorem State.withOutput_psAt (v : Scalar) (k : Nat) : (s.withOutput v).psAt k = s.psAt k := rfl
@[simp] theorem State.withStatusRead_faulted (v : Word) : (s.withStatusRead v).faulted = s.faulted := rfl
@[simp] theorem State.withStatusRead_slotAt (v : Word) (k : Nat) : (s.withStatusRead v).slotAt k = s.slotAt k := rfl
@[simp] theorem State.withStatusRead_piAt (v : Word) (k : Nat) : (s.withStatusRead v).piAt k = s.piAt k := rfl
@[simp] theorem State.withStatusRead_psAt (v : Word) (k : Nat) : (s.withStatusRead v).psAt k = s.psAt k := rfl
@[simp] theorem State.withOperandRead_faulted (v : OperandRead) : (s.withOperandRead v).faulted = s.faulted := rfl
@[simp] theorem State.withOperandRead_slotAt (v : OperandRead) (k : Nat) : (s.withOperandRead v).slotAt k = s.slotAt k := rfl
@[simp] theorem State.withOperandRead_piAt (v : OperandRead) (k : Nat) : (s.withOperandRead v).piAt k = s.piAt k := rfl
@[simp] theorem State.withOperandRead_psAt (v : OperandRead) (k : Nat) : (s.withOperandRead v).psAt k = s.psAt k := rfl
@[simp] theorem State.advanceCp_faulted : s.advanceCp.faulted = s.faulted := rfl
@[simp] theorem State.advanceCp_slotAt (k : Nat) : s.advanceCp.slotAt k = s.slotAt k := rfl
@[simp] theorem raise_slotAt (c : FaultCause) (w : Word) (k : Nat) : (raise c w s).slotAt k = s.slotAt k := rfl

@[simp] theorem State.resetWith_params (p : Params) (l : List HostAction) : (State.resetWith p l).params = p := rfl
@[simp] theorem State.resetWith_iarg (p : Params) (l : List HostAction) : (State.resetWith p l).iarg = 0 := rfl
@[simp] theorem State.resetWith_xin (p : Params) (l : List HostAction) : (State.resetWith p l).xin = Scalar.zero := rfl
@[simp] theorem State.resetWith_din (p : Params) (l : List HostAction) : (State.resetWith p l).din = RVal.zero := rfl
@[simp] theorem State.resetWith_yout (p : Params) (l : List HostAction) : (State.resetWith p l).yout = Scalar.zero := rfl
@[simp] theorem State.resetWith_fstat (p : Params) (l : List HostAction) : (State.resetWith p l).fstat = 0 := rfl
@[simp] theorem State.resetWith_pi (p : Params) (l : List HostAction) : (State.resetWith p l).pi = [] := rfl
@[simp] theorem State.resetWith_ps (p : Params) (l : List HostAction) : (State.resetWith p l).ps = [] := rfl
@[simp] theorem State.resetWith_slots (p : Params) (l : List HostAction) : (State.resetWith p l).slots = [] := rfl
@[simp] theorem State.resetWith_program (p : Params) (l : List HostAction) : (State.resetWith p l).program = l := rfl
@[simp] theorem State.resetWith_cp (p : Params) (l : List HostAction) : (State.resetWith p l).cp = 0 := rfl
@[simp] theorem State.resetWith_outputs (p : Params) (l : List HostAction) : (State.resetWith p l).outputs = [] := rfl
@[simp] theorem State.resetWith_statusReads (p : Params) (l : List HostAction) : (State.resetWith p l).statusReads = [] := rfl
@[simp] theorem State.resetWith_operandReads (p : Params) (l : List HostAction) : (State.resetWith p l).operandReads = [] := rfl

end Sys2Proof.Machine
end

