-- ==== Sys2Proof/Laws/Ops.lean ====
section
/-!
SUPPORT. What the shared operations can do, said once: the frame of every command, the checked access to
the unit in a slot, configuring, advancing, and the slots after a write.
-/

namespace Sys2Proof.Machine

variable (s t : State)

@[simp] theorem State.withSlot_slotAt_same (n : Nat) (u : Option FilterUnit) :
    (s.withSlot n u).slotAt n = u := Memory.read_write_same none s.slots n u

theorem State.withSlot_slotAt (n k : Nat) (u : Option FilterUnit) :
    (s.withSlot n u).slotAt k = if k = n then u else s.slotAt k := Memory.read_write none s.slots n k u

theorem State.withSlot_slotAt_other {n k : Nat} (u : Option FilterUnit) (h : k ≠ n) :
    (s.withSlot n u).slotAt k = s.slotAt k := Memory.read_write_other none s.slots n k u h

theorem State.withPi_piAt (i k : Nat) (v : Word) : (s.withPi i v).piAt k = if k = i then v else s.piAt k :=
  Memory.read_write 0 s.pi i k v

theorem State.withPs_psAt (i k : Nat) (v : Scalar) :
    (s.withPs i v).psAt k = if k = i then v else s.psAt k := Memory.read_write Scalar.zero s.ps i k v

theorem command_of_faulted (i : Instr) (body : Except FaultCause State) (h : s.faulted = true) :
    command i body s = .next s := by simp [command, h]

theorem command_of_ok (i : Instr) {body : Except FaultCause State} (h : s.faulted = false)
    (hb : body = .ok t) : command i body s = .next t := by simp [command, h, hb]

theorem command_of_error (i : Instr) {body : Except FaultCause State} {c : FaultCause}
    (h : s.faulted = false) (hb : body = .error c) : command i body s = .next (raise c (encode i) s) := by
  simp [command, h, hb]

/-- A command always answers a next state: the same one in the FAULTED state, the one its rule gives,
or the one with the fault latched. -/
theorem command_cases (i : Instr) (body : Except FaultCause State) :
    (s.faulted = true ∧ command i body s = .next s) ∨
    (s.faulted = false ∧ ∃ u, body = .ok u ∧ command i body s = .next u) ∨
    (s.faulted = false ∧ ∃ c, body = .error c ∧ command i body s = .next (raise c (encode i) s)) := by
  cases h : s.faulted with
  | true => exact .inl ⟨rfl, command_of_faulted s i body h⟩
  | false =>
    cases hb : body with
    | ok u => exact .inr (.inl ⟨rfl, u, rfl, command_of_ok s u i h rfl⟩)
    | error c => exact .inr (.inr ⟨rfl, c, rfl, command_of_error s i h rfl⟩)

section
variable {α : Type} (slot : Nat) (sel : FilterUnit → Option α) (k : α → Except FaultCause State)

theorem withUnit_of_noSlot (h : s.params.nslots ≤ slot) : withUnit slot sel k s = .error .slotState := by
  simp [withUnit, h]

theorem withUnit_of_wrong (h : (s.slotAt slot).bind sel = none) :
    withUnit slot sel k s = .error .slotState := by
  simp [withUnit, h]

theorem withUnit_of_unit {u : α} (hs : slot < s.params.nslots) (h : (s.slotAt slot).bind sel = some u) :
    withUnit slot sel k s = k u := by
  simp [withUnit, h, Nat.not_le.mpr hs]

theorem withUnit_ok {t : State} (h : withUnit slot sel k s = .ok t) :
    slot < s.params.nslots ∧ ∃ u, (s.slotAt slot).bind sel = some u ∧ k u = .ok t := by
  unfold withUnit at h
  split at h
  · cases h
  · rename_i hs
    split at h
    · cases h
    · rename_i u hu
      exact ⟨Nat.lt_of_not_le hs, u, hu, h⟩

end

/-- What `CFG.*` can do. -/
theorem configure_cases (i : Instr) (slot : Nat) (built : Except FaultCause FilterUnit) :
    (s.faulted = true ∧ configure i slot built s = .next s) ∨
    (s.faulted = false ∧ ∃ c, configure i slot built s = .next (raise c (encode i) s)) ∨
    (s.faulted = false ∧ slot < s.params.nslots ∧ s.slotAt slot = none ∧
      ∃ u, built = .ok u ∧ configure i slot built s = .next (s.withSlot slot (some u))) := by
  unfold configure
  rcases command_cases s i
      (if s.params.nslots ≤ slot then .error .slotState
       else if (s.slotAt slot).isSome then .error .slotState
       else match built with
         | .error c => .error c
         | .ok u => .ok (s.withSlot slot (some u))) with ⟨h, e⟩ | ⟨h, u, hb, e⟩ | ⟨h, c, _, e⟩
  · exact .inl ⟨h, e⟩
  · refine .inr (.inr ?_)
    split at hb
    · cases hb
    · rename_i hs
      split at hb
      · cases hb
      · rename_i ho
        cases built with
        | error c => cases hb
        | ok v =>
          cases hb
          exact ⟨h, Nat.lt_of_not_le hs, by simpa using ho, v, rfl, e⟩
  · exact .inr (.inl ⟨h, c, e⟩)

/-- `CFG.*` on an empty slot whose checks pass. -/
theorem configure_of_ok (i : Instr) {slot : Nat} {built : Except FaultCause FilterUnit} {u : FilterUnit}
    (h : s.faulted = false) (hs : slot < s.params.nslots) (he : s.slotAt slot = none) (hb : built = .ok u) :
    configure i slot built s = .next (s.withSlot slot (some u)) := by
  simp [configure, command, h, Nat.not_le.mpr hs, he, hb]

/-- `CFG.*` on an empty slot with a failing check. -/
theorem configure_of_error (i : Instr) {slot : Nat} {built : Except FaultCause FilterUnit} {c : FaultCause}
    (h : s.faulted = false) (hs : slot < s.params.nslots) (he : s.slotAt slot = none) (hb : built = .error c) :
    configure i slot built s = .next (raise c (encode i) s) := by
  simp [configure, command, h, Nat.not_le.mpr hs, he, hb]

section
variable {α : Type} (i : Instr) (slot : Nat) (sel : FilterUnit → Option α) (wrap : α → FilterUnit)
  (adv : α → Except FaultCause (α × Scalar))

/-- What `ADV.*` can do. -/
theorem advance_cases :
    (s.faulted = true ∧ advance i slot sel wrap adv s = .next s) ∨
    (s.faulted = false ∧ ∃ c, advance i slot sel wrap adv s = .next (raise c (encode i) s)) ∨
    (s.faulted = false ∧ slot < s.params.nslots ∧ ∃ u r, (s.slotAt slot).bind sel = some u ∧ adv u = .ok r ∧
      advance i slot sel wrap adv s = .next ((s.withSlot slot (some (wrap r.1))).withYout r.2)) := by
  unfold advance
  rcases command_cases s i
      (withUnit slot sel
        (fun u => match adv u with
          | .error c => .error c
          | .ok r => .ok ((s.withSlot slot (some (wrap r.1))).withYout r.2)) s) with
    ⟨h, e⟩ | ⟨h, t, hb, e⟩ | ⟨h, c, _, e⟩
  · exact .inl ⟨h, e⟩
  · obtain ⟨hs, u, hu, hk⟩ := withUnit_ok s slot sel _ hb
    refine .inr (.inr ⟨h, hs, u, ?_⟩)
    cases hr : adv u with
    | error c => rw [hr] at hk; cases hk
    | ok r =>
      rw [hr] at hk
      cases hk
      exact ⟨r, hu, rfl, e⟩
  · exact .inr (.inl ⟨h, c, e⟩)

/-- `ADV.*` on a unit of its kind whose own check passes. -/
theorem advance_of_ok {u : α} {r : α × Scalar} (h : s.faulted = false) (hs : slot < s.params.nslots)
    (hu : (s.slotAt slot).bind sel = some u) (hr : adv u = .ok r) :
    advance i slot sel wrap adv s = .next ((s.withSlot slot (some (wrap r.1))).withYout r.2) := by
  simp [advance, command, h, withUnit_of_unit s slot sel _ hs hu, hr]

end

section
variable (slot : Nat) (needs : Kind) (run : StepOutcome)

theorem realScalarOnly_of_real (h : s.params.arith ≠ .complex) : realScalarOnly slot needs run s = run := by
  simp [realScalarOnly, h]

theorem realScalarOnly_of_faulted (h : s.faulted = true) : realScalarOnly slot needs run s = run := by
  simp [realScalarOnly, h]

theorem realScalarOnly_of_noSlot (h : s.params.nslots ≤ slot) : realScalarOnly slot needs run s = run := by
  simp [realScalarOnly, Nat.not_lt.mpr h]

theorem realScalarOnly_of_kind (h : s.kindAt slot ≠ needs) : realScalarOnly slot needs run s = run := by
  simp [realScalarOnly, h]

/-- A kind for a real `S` only, in an instance whose `S` is complex, once the prelude has passed. -/
theorem realScalarOnly_of_complex (h : s.params.arith = .complex) (hf : s.faulted = false)
    (hs : slot < s.params.nslots) (hk : s.kindAt slot = needs) :
    realScalarOnly slot needs run s = .refused .needsRealScalar := by
  simp [realScalarOnly, h, hf, hs, hk]

/-- What a command of a kind for a real `S` only can do. -/
theorem realScalarOnly_cases :
    realScalarOnly slot needs run s = run ∨
    (s.params.arith = .complex ∧ s.faulted = false ∧ slot < s.params.nslots ∧ s.kindAt slot = needs ∧
      realScalarOnly slot needs run s = .refused .needsRealScalar) := by
  unfold realScalarOnly
  split
  · rename_i h
    exact .inr ⟨h.1, h.2.1, h.2.2.1, h.2.2.2, rfl⟩
  · exact .inl rfl

/-- A next state of such a command is one of its own rule. -/
theorem realScalarOnly_next {t : State} (h : realScalarOnly slot needs run s = .next t) : run = .next t := by
  rcases realScalarOnly_cases s slot needs run with e | ⟨-, -, -, -, e⟩
  · exact e ▸ h
  · rw [e] at h
    cases h

end

theorem issue_of_faulted (w : Word) (h : s.faulted = true) : issue w s = .next s := by simp [issue, h]

theorem issue_of_command {w : Word} {i : Instr} (h : s.faulted = false) (hw : decode w = .ok i) :
    issue w s = exec i s := by simp [issue, h, hw]

theorem issue_of_illegal {w : Word} {e : DecodeError} (h : s.faulted = false) (hw : decode w = .error e) :
    issue w s = .next (raise .illegalOp w s) := by simp [issue, h, hw]

theorem step_of_action {a : HostAction} (h : s.nextAction? = some a) : step s = performAt a s := by
  simp [step, h]

theorem step_of_end (h : s.nextAction? = none) : step s = .next s := by simp [step, h]

theorem performAt_of_next {a : HostAction} (h : perform a s = .next t) :
    performAt a s = .next t.advanceCp := by simp [performAt, h]

theorem placeAction_get (a : HostAction) (l : List HostAction) (n : Nat) :
    (placeAction a l n)[n]? = some a := by
  induction n generalizing l with
  | zero => cases l <;> rfl
  | succ n ih => cases l <;> exact ih _

/-- The word that `withFetchWord` places is the next host action. -/
theorem withFetchWord_nextAction (nbits w : Nat) :
    (s.withFetchWord nbits w).nextAction? = some (.command (BitVec.ofNat 32 (w % 2 ^ nbits))) :=
  placeAction_get _ s.program s.cp

end Sys2Proof.Machine
end

