-- ==== Sys2Proof/Laws/PerInstr.lean ====
section
/-!
SUPPORT. A law of every command as syntax, one lemma per constructor: the low byte of a command's word is
the opcode of its row (spec/30_encoding.md R70, R72).
-/

namespace Sys2Proof.Laws.LowByte

/-- The low byte of the word of a well-formed command is its row's `OP`. -/
def Statement (i : Instr) : Prop := i.wellFormed = true → opField (encode i) = i.opcode.code

theorem of_wellFormed (i : Instr) : Statement i := fun h =>
  opField_packWord _ _ _ i.opcode.code_lt (Instr.wellFormed_bounds h).1 (Instr.wellFormed_bounds h).2

theorem ldi (idx : Nat) : Statement (.ldi idx) := of_wellFormed _
theorem lds (idx : Nat) : Statement (.lds idx) := of_wellFormed _
theorem cfgTdl (slot count : Nat) : Statement (.cfgTdl slot count) := of_wellFormed _
theorem cfgFof (slot : Nat) : Statement (.cfgFof slot) := of_wellFormed _
theorem cfgOpl (slot : Nat) : Statement (.cfgOpl slot) := of_wellFormed _
theorem cfgFfc (slot : Nat) : Statement (.cfgFfc slot) := of_wellFormed _
theorem cfgFbc (slot : Nat) : Statement (.cfgFbc slot) := of_wellFormed _
theorem cfgTvd (slot : Nat) : Statement (.cfgTvd slot) := of_wellFormed _
theorem cfgDfc (slot : Nat) : Statement (.cfgDfc slot) := of_wellFormed _
theorem cfgOla (slot : Nat) : Statement (.cfgOla slot) := of_wellFormed _
theorem advTdl (slot : Nat) : Statement (.advTdl slot) := of_wellFormed _
theorem advFof (slot : Nat) : Statement (.advFof slot) := of_wellFormed _
theorem advOpl (slot : Nat) : Statement (.advOpl slot) := of_wellFormed _
theorem advFfc (slot : Nat) : Statement (.advFfc slot) := of_wellFormed _
theorem advFbc (slot : Nat) : Statement (.advFbc slot) := of_wellFormed _
theorem advTvd (slot : Nat) : Statement (.advTvd slot) := of_wellFormed _
theorem advOla (slot : Nat) : Statement (.advOla slot) := of_wellFormed _
theorem dfcWr (slot : Nat) : Statement (.dfcWr slot) := of_wellFormed _
theorem dfcRun (slot : Nat) : Statement (.dfcRun slot) := of_wellFormed _
theorem dfcRd (slot : Nat) : Statement (.dfcRd slot) := of_wellFormed _
theorem free (slot : Nat) : Statement (.free slot) := of_wellFormed _

end Sys2Proof.Laws.LowByte
end

