-- ==== Sys2Proof/Machine/AssemblerText.lean ====
section
/-!
DEFINITION. Reading the assembler syntax of host actions and pseudo-instructions (spec/30_encoding.md R75,
R76): one line of text to the host actions it stands for. Blanks, commas and brackets separate words.
-/

namespace Sys2Proof.Machine

/-- The text before the `;` that starts a comment (R75). -/
def withoutComment (l : List Char) : List Char := l.takeWhile (· != ';')

/-- Whether a character separates words: a blank, or the comma and the brackets of a list (R75, R76). -/
def separates (c : Char) : Bool := c == ' ' || c == ',' || c == '[' || c == ']' || c == '\t'

/-- The words of a line, in order; `word` holds the letters of the word being read, the last first. -/
def wordsOf : List Char → List Char → List (List Char)
  | [], word => if word.isEmpty then [] else [word.reverse]
  | c :: rest, word =>
    if separates c then (if word.isEmpty then wordsOf rest [] else word.reverse :: wordsOf rest [])
    else wordsOf rest (c :: word)

/-- The value of a digit, decimal or hexadecimal. -/
def digitValue (c : Char) : Nat :=
  if '0' ≤ c ∧ c ≤ '9' then c.toNat - 48
  else if 'a' ≤ c ∧ c ≤ 'f' then c.toNat - 87
  else if 'A' ≤ c ∧ c ≤ 'F' then c.toNat - 55
  else 99

/-- A non-empty run of digits of a base. -/
def readDigits (base : Nat) (l : List Char) : Option Nat :=
  if l.isEmpty || l.any (fun c => base ≤ digitValue c) then none
  else some (l.foldl (fun acc c => base * acc + digitValue c) 0)

/-- An unsigned integer, decimal or with `0x` hexadecimal (R75). -/
def readNat : List Char → Option Nat
  | '0' :: 'x' :: rest => readDigits 16 rest
  | l => readDigits 10 l

/-- A non-negative number: an integer, a decimal fraction, or `p/q` (R75). -/
def readUnsigned (l : List Char) : Option Rat :=
  if l.contains '/' then
    match readNat (l.takeWhile (· != '/')), readNat ((l.dropWhile (· != '/')).drop 1) with
    | some p, some d => if d = 0 then none else some ((p : Rat) / (d : Rat))
    | _, _ => none
  else if l.contains '.' then
    let fraction := (l.dropWhile (· != '.')).drop 1
    match readDigits 10 (l.takeWhile (· != '.')), readDigits 10 fraction with
    | some p, some f => some ((p : Rat) + (f : Rat) / (10 ^ fraction.length : Rat))
    | _, _ => none
  else (readNat l).map (fun p => (p : Rat))

/-- A scalar or a real as R75 writes it, with a sign. DESIGN CHOICE (notes/assumptions/30.md): it is the rational it
denotes, unrounded, in every instance; how a number that a floating-point `S` cannot hold is converted the spec
leaves open. -/
def readNumber : List Char → Option Rat
  | '-' :: rest => (readUnsigned rest).map (fun x => -x)
  | l => readUnsigned l

/-- A slot operand, `s` and its number. -/
def readSlot : List Char → Option Nat
  | 's' :: rest => readNat rest
  | _ => none

/-- A kind name that has an `ADV` command (R72, R75). -/
def readAdvKind (l : List Char) : Option AdvKind :=
  if l == "TDL".toList then some .tdl
  else if l == "FOF".toList then some .fof
  else if l == "OPL".toList then some .opl
  else if l == "FFC".toList then some .ffc
  else if l == "FBC".toList then some .fbc
  else if l == "TVD".toList then some .tvd
  else if l == "OLA".toList then some .ola
  else none

/-- The opcode of a mnemonic (R72). -/
def readMnemonic (l : List Char) : Option Opcode := Opcode.all.find? (fun o => (mnemonic o).toList == l)

/-- The action of a command whose operands fit their fields (R70). -/
def commandIfFits (i : Instr) : Option (List HostAction) :=
  if i.wellFormed then some [commandOf i] else none

/-- The actions of a pseudo-instruction all of whose operands fit their fields and registers. -/
def Pseudo.expandIfFits (p : Pseudo) : Option (List HostAction) :=
  let fits := fun (i : Instr) => i.wellFormed
  let ok : Bool :=
    match p with
    | .ldi idx v => fits (.ldi idx) && decide (v < 2 ^ 32)
    | .lds idx _ => fits (.lds idx)
    | .ldiv base vs => fits (.ldi (base + vs.length - 1)) && vs.all (fun v => decide (v < 2 ^ 32))
    | .ldsv base vs => fits (.lds (base + vs.length - 1))
    | .cfgTdl slot k l => fits (.cfgTdl slot l) && decide (k < 2 ^ 32)
    | .adv kind slot _ => fits (kind.instr slot)
    | .advTvd slot _ _ => fits (.advTvd slot)
    | .run kind slot _ => fits (kind.instr slot)
    | .flush kind slot _ => fits (kind.instr slot)
    | .dfcWr slot i _ => fits (.dfcWr slot) && decide (i < 2 ^ 32)
    | .dfcRd slot i => fits (.dfcRd slot) && decide (i < 2 ^ 32)
  if ok then some p.expand else none

/-- A line whose first word is a command mnemonic: a command, or the pseudo-instruction of R76 with that
mnemonic and further operands. -/
def readCommand (o : Opcode) (operands : List (List Char)) : Option (List HostAction) :=
  match o, operands with
  | .ldi, [i] => (readNat i).bind (fun i => commandIfFits (.ldi i))
  | .ldi, [i, v] => (readNat i).bind (fun i => (readNat v).bind (fun v => (Pseudo.ldi i v).expandIfFits))
  | .lds, [i] => (readNat i).bind (fun i => commandIfFits (.lds i))
  | .lds, [i, v] =>
    (readNat i).bind (fun i => (readNumber v).bind (fun v => (Pseudo.lds i (.ofRat v)).expandIfFits))
  | .cfgTdl, [s, l] => (readSlot s).bind (fun s => (readNat l).bind (fun l => commandIfFits (.cfgTdl s l)))
  | .cfgTdl, [s, k, l] =>
    (readSlot s).bind (fun s => (readNat k).bind (fun k => (readNat l).bind (fun l =>
      (Pseudo.cfgTdl s k l).expandIfFits)))
  | .advTvd, [s, x, d] =>
    (readSlot s).bind (fun s => (readNumber x).bind (fun x => (readNumber d).bind (fun d =>
      (Pseudo.advTvd s (.ofRat x) (.ofRat d)).expandIfFits)))
  | .dfcWr, [s, i, v] =>
    (readSlot s).bind (fun s => (readNat i).bind (fun i => (readNumber v).bind (fun v =>
      (Pseudo.dfcWr s i (.ofRat v)).expandIfFits)))
  | .dfcRd, [s, i] => (readSlot s).bind (fun s => (readNat i).bind (fun i => (Pseudo.dfcRd s i).expandIfFits))
  | o, [s] => if o.slotMustBeZero || !o.idxMustBeZero then none
              else (readSlot s).bind (fun s => commandIfFits (o.command s 0))
  | o, [s, x] =>
    match readAdvKind ((mnemonic o).toList.drop 4) with
    | none => none
    | some kind =>
      if kind = .tvd || configures o then none
      else (readSlot s).bind (fun s => (readNumber x).bind (fun x => (Pseudo.adv kind s (.ofRat x)).expandIfFits))
  | _, _ => none
where
  /-- The `CFG` group of the opcode map (R72). -/
  configures (o : Opcode) : Bool := o.code / 16 == 1

/-- A line whose first word is no command mnemonic: `SET`, `GET` (R75), or one of the pseudo-instructions
`LDIV`, `LDSV`, `RUN` and `FLUSH` (R76). A scalar is written unrounded (notes/assumptions/30.md). -/
def readOther (word : List Char) (operands : List (List Char)) : Option (List HostAction) :=
  match String.ofList word, operands.map String.ofList, operands with
  | "SET", ["IARG", _], [_, v] =>
    (readNat v).bind (fun v => if v < 2 ^ 32 then some [iargOf v] else none)
  | "SET", ["XIN", _], [_, v] => (readNumber v).map (fun v => [.setXin (.ofRat v)])
  | "SET", ["DIN", _], [_, v] => (readNumber v).map (fun v => [.setDin (.ofRat v)])
  | "GET", ["YOUT"], _ => some [.getYout]
  | "GET", ["FSTAT"], _ => some [.getFstat]
  | "LDIV", _, base :: v :: vs =>
    (readNat base).bind (fun b => ((v :: vs).mapM readNat).bind (fun vs => (Pseudo.ldiv b vs).expandIfFits))
  | "LDSV", _, base :: v :: vs =>
    (readNat base).bind (fun b => ((v :: vs).mapM readNumber).bind (fun vs =>
      (Pseudo.ldsv b (vs.map Scalar.ofRat)).expandIfFits))
  | _, _, s :: vs =>
    if word.take 4 == "RUN.".toList then
      (readAdvKind (word.drop 4)).bind (fun kind => (readSlot s).bind (fun s => (vs.mapM readNumber).bind (fun vs =>
        if kind = .tvd then none else (Pseudo.run kind s (vs.map Scalar.ofRat)).expandIfFits)))
    else if word.take 6 == "FLUSH.".toList then
      match vs with
      | [n] =>
        (readAdvKind (word.drop 6)).bind (fun kind => (readSlot s).bind (fun s => (readNat n).bind (fun n =>
          if kind = .tvd then none else (Pseudo.flush kind s n).expandIfFits)))
      | _ => none
    else none
  | _, _, _ => none

/-- The host actions of one line of text (R75, R76); a blank line and a comment stand for none; `none` for a
line that is not of the syntax. -/
def readLine (line : String) : Option (List HostAction) :=
  match wordsOf (withoutComment line.toList) [] with
  | [] => some []
  | word :: operands =>
    match readMnemonic word with
    | some o => readCommand o operands
    | none => readOther word operands

/-- The host actions of a program, one line after another (R75). -/
def readProgram (lines : List String) : Option (List HostAction) := (lines.mapM readLine).map List.flatten

end Sys2Proof.Machine
end

