-- ==== Sys2Proof/Tests/Slice0.lean ====
section
/-!
SUPPORT. The model's own tests, each on one step of a small state: the well-formedness smoke test, the words
of the opcode map written out from spec/30_encoding.md, the vectors of spec/95_test_vectors.md (each test
names its V number), and for every statement with hypotheses a witness that meets them.
-/

namespace Sys2Proof.Tests

-- one theorem after another: the kernel evaluations below each wait for all that stands before them
set_option Elab.async false

open Sys2Proof.Machine

/-! ### The well-formedness smoke test -/

theorem test_idx_too_wide : (Instr.ldi 65536).wellFormed = false := by decide
theorem test_idx_widest : (Instr.lds 65535).wellFormed = true := by decide
theorem test_count_too_wide : (Instr.cfgTdl 0 65536).wellFormed = false := by decide
theorem test_slot_too_wide : (Instr.free 256).wellFormed = false := by decide
theorem test_slot_widest : (Instr.advOla 255).wellFormed = true := by decide

/-! ### Words written out from the opcode map (R72, V45, V46, V50) -/

theorem test_decode_ldi : decode 0x00030001 = .ok (.ldi 3) := rfl
theorem test_decode_lds : decode 0x000F0002 = .ok (.lds 15) := rfl
theorem test_decode_cfgTdl : decode 0x00050211 = .ok (.cfgTdl 2 5) := rfl
theorem test_decode_cfgFof : decode 0x00000712 = .ok (.cfgFof 7) := rfl
theorem test_decode_cfgOpl : decode 0x00000113 = .ok (.cfgOpl 1) := rfl
theorem test_decode_cfgFfc : decode 0x00000214 = .ok (.cfgFfc 2) := rfl
theorem test_decode_cfgFbc : decode 0x00001715 = .ok (.cfgFbc 23) := rfl
theorem test_decode_cfgTvd : decode 0x00000516 = .ok (.cfgTvd 5) := rfl
theorem test_decode_cfgDfc : decode 0x00000317 = .ok (.cfgDfc 3) := rfl
theorem test_decode_cfgOla : decode 0x00000018 = .ok (.cfgOla 0) := rfl
theorem test_decode_advTdl : decode 0x00000721 = .ok (.advTdl 7) := rfl
theorem test_decode_advFof : decode 0x00000722 = .ok (.advFof 7) := rfl
theorem test_decode_advOpl : decode 0x00000123 = .ok (.advOpl 1) := rfl
theorem test_decode_advFfc : decode 0x00000224 = .ok (.advFfc 2) := rfl
theorem test_decode_advFbc : decode 0x00001725 = .ok (.advFbc 23) := rfl
theorem test_decode_advTvd : decode 0x00000526 = .ok (.advTvd 5) := rfl
theorem test_decode_advOla : decode 0x0000FF28 = .ok (.advOla 255) := rfl
theorem test_decode_dfcWr : decode 0x00000330 = .ok (.dfcWr 3) := rfl
theorem test_decode_dfcRun : decode 0x00000331 = .ok (.dfcRun 3) := rfl
theorem test_decode_dfcRd : decode 0x00000332 = .ok (.dfcRd 3) := rfl
theorem test_decode_free : decode 0x00000140 = .ok (.free 1) := rfl
theorem test_encode_widest : encode (.cfgTdl 255 65535) = 0xFFFFFF11 := by decide
theorem test_illegal_zero : decode 0x00000000 = .error (.unassignedOp 0) := rfl
theorem test_illegal_advDfc : decode 0x00000027 = .error (.unassignedOp 0x27) := rfl
theorem test_illegal_idx : decode 0x00010021 = .error (.idxNotZero .advTdl 1) := rfl
theorem test_illegal_slot : decode 0x00000101 = .error (.slotNotZero .ldi 1) := rfl
theorem test_table_word : decodeTableWord 32 0x00000526 = some (.advTvd 5) := by decide

/-! ### Small states -/

/-- A rational as a scalar. -/
def q (x : Rat) : Scalar := .ofRat x

/-- The reset state with staged integers and scalars from cell 0 upward. -/
def staged (ints : List Nat) (scalars : List Rat) : State :=
  { State.reset with
    pi := Memory.ofFn 0 ints.length (fun i => BitVec.ofNat 32 (ints.getD i 0))
    ps := Memory.ofFn Scalar.zero scalars.length (fun i => q (scalars.getD i 0)) }

/-- The reset state with one unit and an input sample. -/
def holding (slot : Nat) (u : FilterUnit) (x : Rat) : State :=
  { State.reset with slots := [(slot, some u)], xin := q x }

/-- The cells of a buffer, from cell 0 upward. -/
def buffer (xs : List Rat) : Memory Scalar := Memory.ofFn Scalar.zero xs.length (fun i => q (xs.getD i 0))

/-- A test of the next state. -/
def next (o : StepOutcome) (f : State → Bool) : Bool :=
  match o with
  | .next t => f t
  | .fault _ => false
  | .refused _ => false

/-- The unit and the sample that a command leaves. -/
def leaves (o : StepOutcome) (slot : Nat) (u : FilterUnit) (y : Rat) : Bool :=
  next o (fun t => decide (t.slotAt slot = some u ∧ t.yout = q y ∧ t.fstat = 0))

/-- The value a command leaves in `FSTAT`. -/
def faults (o : StepOutcome) (f : Word) : Bool := next o (fun t => t.fstat == f)

/-- A FAULTED block (V54). -/
def faultedBlock : State := raise .illegalOp 0x00000027 State.reset

/-! ### One step of each command, from spec/95 -/

/-- V7. -/
theorem test_ldi : next (exec (.ldi 15) { State.reset with iarg := 7 }) (fun t => t.pi == [(15, 7)]) = true := by
  decide

/-- V52. -/
theorem test_ldi_range : faults (exec (.ldi 16) { State.reset with iarg := 7 }) 0x00010003 = true := by decide

/-- V7. -/
theorem test_lds : next (exec (.lds 5) { State.reset with xin := q (3 / 4) })
    (fun t => decide (t.ps = [(5, q (3 / 4))])) = true := by decide +kernel

/-- V52. -/
theorem test_lds_range : faults (exec (.lds 65535) State.reset) 0x00020003 = true := by decide

/-- V1: `cap = 2`. -/
theorem test_cfgTdl :
    leaves (exec (.cfgTdl 0 3) { staged [1, 2] [4, 5, 7] with iarg := 2 }) 0
      (.tdl { k := 2, delays := [1, 2], coeffs := [q 4, q 5, q 7], cap := 2, buf := [], w := 0 }) 0 = true := by
  decide +kernel

/-- V6, third line. -/
theorem test_cfgTdl_resource :
    faults (exec (.cfgTdl 0 2) { staged [5000] [1, 1] with iarg := 1 }) 0x00110007 = true := by decide +kernel

/-- V1, n = 2. -/
theorem test_advTdl :
    leaves (exec (.advTdl 0) (holding 0
        (.tdl { k := 2, delays := [1, 2], coeffs := [q 4, q 5, q 7], cap := 2, buf := buffer [1, 2], w := 0 }) 3)) 0
      (.tdl { k := 2, delays := [1, 2], coeffs := [q 4, q 5, q 7], cap := 2, buf := buffer [3, 2], w := 1 }) 29
      = true := by decide +kernel

/-- V4, n = 3: a listed delay of 0 reads the oldest cell. -/
theorem test_advTdl_zero_delay :
    leaves (exec (.advTdl 0) (holding 0
        (.tdl { k := 2, delays := [0, 3], coeffs := [q 1, q 10, q 100], cap := 3, buf := buffer [1, 2, 3], w := 0 }) 4)) 0
      (.tdl { k := 2, delays := [0, 3], coeffs := [q 1, q 10, q 100], cap := 3, buf := buffer [4, 2, 3], w := 1 }) 114
      = true := by decide +kernel

/-- V12: type 4. -/
theorem test_cfgFof :
    leaves (exec (.cfgFof 1) (staged [4] [1 / 2, 2, 3, 5, 1 / 4])) 1
      (.fof (freshFof (q (1 / 2)) (q 2) (q 3) (q 5) (q (1 / 4)) .highshelf)) 0 = true := by decide +kernel

/-- V16. -/
theorem test_cfgFof_range : faults (exec (.cfgFof 0) (staged [5] [])) 0x00120005 = true := by decide

/-- V12, third sample: `y_prev` is the whole output. -/
theorem test_advFof :
    leaves (exec (.advFof 0) (holding 0
        (.fof { freshFof (q (1 / 2)) (q 2) (q 3) (q 5) (q (1 / 4)) .highshelf with yPrev := q (27 / 2) }) (-1))) 0
      (.fof { freshFof (q (1 / 2)) (q 2) (q 3) (q 5) (q (1 / 4)) .highshelf with
        xPrev := q (-1), yPrev := q (-53 / 4) }) (-53 / 4) = true := by decide +kernel

/-- V15: 127/128 is accepted. -/
theorem test_cfgOpl :
    leaves (exec (.cfgOpl 2) (staged [] [1 / 2, 127 / 128])) 2 (.opl (freshOpl (q (1 / 2)) (q (127 / 128)))) 0
      = true := by decide +kernel

/-- V15: −1 is not. -/
theorem test_cfgOpl_stability : faults (exec (.cfgOpl 0) (staged [] [0, -1])) 0x00130006 = true := by
  decide +kernel

/-- V14, last sample. -/
theorem test_advOpl :
    leaves (exec (.advOpl 3) (holding 3 (.opl { alpha := q (1 / 2), beta := q (1 / 2), lp := q (1 / 16) }) 4)) 3
      (.opl { alpha := q (1 / 2), beta := q (1 / 2), lp := q (65 / 32) }) (65 / 32) = true := by decide +kernel

/-- V23: `2m = 4096` is accepted. -/
theorem test_cfgFfc :
    leaves (exec (.cfgFfc 0) (staged [2048] [1, 1, 1 / 2])) 0 (.ffc (freshFfc (q 1) (q 1) (q (1 / 2)) 2048)) 0
      = true := by decide +kernel

/-- V23: range is tested before stability. -/
theorem test_cfgFfc_priority : faults (exec (.cfgFfc 0) (staged [0] [0, 0, 2])) 0x00140005 = true := by
  decide +kernel

/-- V17, n = 3. -/
theorem test_advFfc :
    leaves (exec (.advFfc 0) (holding 0
        (.ffc { b0 := q 1, b1 := q 1, a := q (-1 / 2), m := 3, bufIn := buffer [1, 2, 3],
                bufOut := buffer [1, 2, 3], w := 0 }) 4)) 0
      (.ffc { b0 := q 1, b1 := q 1, a := q (-1 / 2), m := 3, bufIn := buffer [4, 2, 3],
              bufOut := buffer [9 / 2, 2, 3], w := 1 }) (9 / 2) = true := by decide +kernel

/-- V23: `m = 4096` is accepted. -/
theorem test_cfgFbc :
    leaves (exec (.cfgFbc 0) (staged [4096] [1 / 2, 1 / 2])) 0 (.fbc (freshFbc (q (1 / 2)) (q (1 / 2)) 4096)) 0
      = true := by decide +kernel

/-- V23: `m = 4097` is not. -/
theorem test_cfgFbc_resource : faults (exec (.cfgFbc 0) (staged [4097] [1 / 2, 1 / 2])) 0x00150007 = true := by
  decide +kernel

/-- V21, n = 3: the index wraps. -/
theorem test_advFbc :
    leaves (exec (.advFbc 0) (holding 0
        (.fbc { alpha := q (1 / 2), beta := q (1 / 2), m := 2, lp := q (1 / 2), bufOut := buffer [1 / 2, 0], w := 1 }) 0)) 0
      (.fbc { alpha := q (1 / 2), beta := q (1 / 2), m := 2, lp := q (1 / 4), bufOut := buffer [1 / 2, 1 / 4], w := 0 })
      (1 / 4) = true := by decide +kernel

/-- spec/95 section 2.5: `max_delay = 4096` is accepted. -/
theorem test_cfgTvd :
    leaves (exec (.cfgTvd 5) (staged [4096] [1, -1])) 5 (.tvd (freshTvd (q 1) (q (-1)) 4096)) 0 = true := by
  decide +kernel

/-- V26, second sample: the weight `frac` falls on the newer sample. -/
theorem test_advTvd :
    leaves (exec (.advTvd 5) { holding 5 (.tvd { freshTvd (q 0) (q 1) 3 with buf := buffer [4], w := 1 }) 8 with
        din := .num (1 / 4) }) 5
      (.tvd { freshTvd (q 0) (q 1) 3 with buf := buffer [4, 8], w := 2 }) 5 = true := by decide +kernel

/-- V55: `d = max_delay` is refused. -/
theorem test_advTvd_range :
    faults (exec (.advTvd 5) { holding 5 (.tvd (freshTvd (q 1) (q (-1)) 3)) 8 with din := .num 3 }) 0x00260508
      = true := by decide +kernel

/-- V30: `output_size = 7`, `fft_size = 8`. -/
theorem test_cfgDfc :
    leaves (exec (.cfgDfc 3) (staged [5, 3] [-1, 1, 3])) 3
      (.dfc { inputSize := 5, filterSize := 3, outputSize := 7, fftSize := 8, h := [q (-1), q 1, q 3],
              input := [], output := [] }) 0 = true := by decide +kernel

/-- V32 (d): size before range. -/
theorem test_cfgDfc_size : faults (exec (.cfgDfc 0) (staged [0, 17] [])) 0x00170004 = true := by decide

/-- V30. -/
theorem test_dfcWr :
    leaves (exec (.dfcWr 0) { holding 0 (.dfc (freshDfc 5 [q (-1), q 1, q 3])) 5 with iarg := 4 }) 0
      (.dfc { freshDfc 5 [q (-1), q 1, q 3] with input := buffer [0, 0, 0, 0, 5] }) 0 = true := by decide +kernel

/-- V30. -/
theorem test_dfcWr_range :
    faults (exec (.dfcWr 0) { holding 0 (.dfc (freshDfc 5 [q (-1), q 1, q 3])) 5 with iarg := 5 }) 0x00300003
      = true := by decide

/-- V30. -/
theorem test_dfcRun :
    leaves (exec (.dfcRun 0) (holding 0
        (.dfc { freshDfc 5 [q (-1), q 1, q 3] with input := buffer [1, 2, 3, 4, 5] }) 0)) 0
      (.dfc { freshDfc 5 [q (-1), q 1, q 3] with
        input := buffer [1, 2, 3, 4, 5], output := buffer [-1, -1, 2, 5, 8, 17, 15] }) 0 = true := by
  decide +kernel

/-- V30, P5. -/
theorem test_dfcRd :
    next (exec (.dfcRd 0) { holding 0 (.dfc { freshDfc 5 [q (-1), q 1, q 3] with
        output := buffer [-1, -1, 2, 5, 8, 17, 15] }) 0 with iarg := 5 })
      (fun t => decide (t.yout = q 17)) = true := by decide +kernel

/-- V30. -/
theorem test_dfcRd_range :
    faults (exec (.dfcRd 0) { holding 0 (.dfc (freshDfc 5 [q (-1), q 1, q 3])) 0 with iarg := 7 }) 0x00320003
      = true := by decide

/-- V33. -/
theorem test_cfgOla :
    leaves (exec (.cfgOla 0) (staged [2, 3] [-1, 1, 3])) 0
      (.ola { windowSize := 2, filterSize := 3, numTransients := 2, outputSize := 4,
              dfc := { inputSize := 2, filterSize := 3, outputSize := 4, fftSize := 4,
                       h := [q (-1), q 1, q 3], input := [], output := [] },
              ring := [], writeIdx := 0, inputIdx := 0, outputIdx := 0 }) 0 = true := by decide +kernel

/-- V38 (c). -/
theorem test_cfgOla_resource : faults (exec (.cfgOla 0) (staged [2000, 3] [])) 0x00180007 = true := by
  decide

/-- The unit of V33 before n = 3. -/
def olaBefore : Ola :=
  { freshOla 2 [q (-1), q 1, q 3] with
    dfc := { freshDfc 2 [q (-1), q 1, q 3] with input := buffer [3, 2], output := buffer [-1, -1, 5, 6] }
    ring := buffer [-1, -1, 5, 6], writeIdx := 2, inputIdx := 1, outputIdx := 2 }

/-- V33, n = 3: a block. -/
theorem test_advOla_block :
    leaves (exec (.advOla 0) (holding 0 (.ola olaBefore) 4)) 0
      (.ola { olaBefore with
        dfc := { olaBefore.dfc with input := buffer [3, 4], output := buffer [-3, -1, 13, 12] }
        ring := buffer [13, 12, 2, 5], writeIdx := 0, inputIdx := 0, outputIdx := 3 }) 2 = true := by
  decide +kernel

/-- V33, n = 4: within a window. -/
theorem test_advOla_window :
    next (exec (.advOla 0) (holding 0 (.ola { olaBefore with inputIdx := 0, ring := buffer [13, 12, 2, 5], outputIdx := 3 }) 5))
      (fun t => decide (t.yout = q 5)) = true := by decide +kernel

/-- V8. -/
theorem test_free :
    next (exec (.free 3) (holding 3 (.opl (freshOpl (q (1 / 2)) (q (1 / 2)))) 0))
      (fun t => decide (t.slots = [] ∧ t.fstat = 0)) = true := by decide +kernel

/-- V51. -/
theorem test_free_empty : faults (exec (.free 3) State.reset) 0x00400302 = true := by decide

/-- V51: a CFG of an occupied slot. -/
theorem test_slotState_occupied :
    faults (exec (.cfgOpl 2) (holding 2 (.opl (freshOpl (q 0) (q 0))) 0)) 0x00130202 = true := by decide

/-- V51: an ADV of a slot that is not there. -/
theorem test_slotState_noSlot : faults (exec (.advFof 8) State.reset) 0x00220802 = true := by decide

/-- V50, V53: `ILLEGAL_OP` comes before `SLOT_STATE`. -/
theorem test_issue_illegal : faults (issue 0x00010821 State.reset) 0x00210801 = true := by decide

/-- V54: `SET` works in the FAULTED state, commands do not. -/
theorem test_faulted_ignores :
    (next (step { faultedBlock with program := [.command 0x00000001], iarg := 9 })
      (fun t => t.pi == [] && t.fstat == 0x00270001 && t.cp == 1)) = true := by decide

theorem test_set_get :
    next (step { State.reset with program := [.getYout], yout := q 7 }) (fun t => decide (t.outputs = [q 7]))
      = true := by decide +kernel

theorem test_withFetchWord :
    next (step ((State.reset).withFetchWord 32 0x00000340)) (fun t => t.fstat == 0x00400302 && t.cp == 1)
      = true := by decide

/-- V45, R75. -/
theorem test_asm : asmInstr (.cfgTdl 2 5) = "CFG.TDL s2, 5" := by decide +kernel

/-- R75: hexadecimal, a comment, a fraction, a list. -/
theorem test_readProgram :
    readProgram ["SET IARG, 0x10 ; K", "", "LDS 2, -3/4", "CFG.TDL s2, 5", "RUN.TDL s0, [0.25]", "FREE s1"] =
      some [.setIarg 16, .setXin (.ofRat (-3 / 4)), .command 0x00020002, .command 0x00050211,
            .setXin (.ofRat (1 / 4)), .command 0x00000021, .getYout, .command 0x00000140] := by decide +kernel

/-- R75: there is no `ADV.DFC`, and slot 256 does not fit. -/
theorem test_readLine_refuses : readLine "ADV.DFC s0" = none ∧ readLine "FREE s256" = none := by decide +kernel

/-- R117: the degenerate lowpass at `γ = −1`. -/
theorem test_designer :
    (designLowpass (passGamma (-1) 0)).a0 = 1 ∧ (designLowpass (passGamma (-1) 0)).b1 = 1 ∧
    (designHighpass (passGamma (-1) 0)).a1 = 0 := by decide +kernel

/-- V48. -/
theorem test_pseudo :
    (Pseudo.flush .tdl 0 1).expand = [.setXin Scalar.zero, .command 0x00000021, .getYout] := by decide +kernel

/-- Whether a host procedure is done, with an answer that passes a test. -/
def answers {α : Type} (o : HostOutcome α) (f : State → α → Bool) : Bool :=
  match o with
  | .next r => f r.1 r.2
  | .failed _ _ => false
  | .refused _ => false

/-- Whether the run of a host procedure has failed, and how. -/
def failsWith {α : Type} (o : HostOutcome α) (f : Fault) : Bool :=
  match o with
  | .next _ => false
  | .failed _ g => g == f
  | .refused _ => false

/-- V41, first sample of the Parallel: `2·(1/2) + 3·0 = 1`. -/
theorem test_parallel :
    answers (advanceGraph (.parallel [q 2, q 3] [.single .opl 0, .single .tdl 1]) (q 1)
        { State.reset with slots := [(0, some (.opl (freshOpl (q (1 / 2)) (q (1 / 2))))),
                                     (1, some (.tdl (freshTdl [1] [q 0, q 1])))] })
      (fun _ y => decide (y = q 1)) = true := by decide +kernel

/-- R198: what a comb answers is added with no product, over an unspecified real `S` too. -/
theorem test_summing (a b c : RVal) :
    sumUp .real [.real a, .real b, .real c] = .real (Config.realAdd (Config.realAdd a b) c) := rfl

/-- R199, U17: one slot stands for two children. -/
theorem test_aliased :
    (match advanceGraph (.series [.single .opl 0, .parallel [q 1] [.single .opl 0]]) (q 1) State.reset with
      | .next _ => false
      | .failed _ _ => false
      | .refused r => r == .aliasedUnit) = true := by decide +kernel

/-- R210: an empty Series behind a unit is found before the unit is advanced, and where no sample is run. -/
theorem test_misconfigured :
    (match advanceGraph (.series [.single .opl 0, .series []]) (q 1)
        (holding 0 (.opl (freshOpl (q 1) (q (1 / 2)))) 7) with
      | .next _ => false
      | .failed t f => f == .hostConfiguration && decide (t = holding 0 (.opl (freshOpl (q 1) (q (1 / 2)))) 7)
      | .refused _ => false) = true ∧
    failsWith (mimoProcess { inputScale := q 0, outputLt := [[q 1]], filters := [.series []] } [[]]
      [Sink.unbounded] 0 State.reset) .hostConfiguration = true := by decide +kernel

/-- A MIMO filter of two channels. -/
def twoChannels : Mimo :=
  { inputScale := q 0, outputLt := [[q 1, q 0], [q 0, q 1]], filters := [.single .opl 0, .single .opl 1] }

/-- R219: one source ends before the other. -/
theorem test_mimo_mismatch :
    failsWith (mimoProcess twoChannels [[], [q 1]] [Sink.unbounded, Sink.unbounded] 0 State.reset)
      .streamLengthMismatch = true := by decide +kernel

/-- R219: a sink of one cell receives two samples. -/
theorem test_sink_overflow :
    failsWith (processTo .opl 7 [q 1] { capacity := some 1, items := [] } 1
        (holding 7 (.opl (freshOpl (q 1) (q 0))) 0)) .sinkOverflow = true := by decide +kernel

/-- R214: there is no unit in the slot, so the run fails. -/
theorem test_process_fails : failsWith (process .opl 7 [q 1] 0 State.reset) .blockFaulted = true := by
  decide +kernel

/-- U25, R10: a spread that makes a delay negative, and one that makes it 2^32. -/
theorem test_freeverb_spread :
    channelDelays (-225) [225, 224] = .error .negativeDelay ∧
    channelDelays (2 ^ 32 - 225) [225] = .error .delayTooLarge ∧
    channelDelays (2 ^ 32 - 226) [225] = .ok [2 ^ 32 - 1] := ⟨rfl, rfl, rfl⟩

/-- R8: an instance whose `S` is complex has no first-order filter, and R93 comes first. -/
theorem test_complex_refuses :
    (match exec (.cfgFof 0) { State.reset with params := { Config.testInstance with arith := .complex } } with
      | .next _ => false
      | .fault _ => false
      | .refused r => r == .needsRealScalar) = true ∧
    faults (exec (.advOla 0) { State.reset with params := { Config.testInstance with arith := .complex } })
      0x00280002 = true := by decide

/-- R42: the host reads back what it wrote. -/
theorem test_read_back :
    next (step { State.reset with program := [.getIarg], iarg := 9 })
      (fun t => t.operandReads == [.iarg 9] && t.cp == 1) = true := by decide

/-! ### Witnesses: for each statement with hypotheses, states and operands that meet all of them together,
one for each clause, at the boundary values of its ranges -/

/-- An outcome that passes a test of its next state is a next state that passes it. -/
theorem next_exists {o : StepOutcome} {f : State → Bool} (h : next o f = true) :
    ∃ t, o = .next t ∧ f t = true := by
  cases o with
  | next t => exact ⟨t, rfl, h⟩
  | fault r => exact absurd h (by simp [next])
  | refused r => exact absurd h (by simp [next])

/-- A reset state whose host list is one action. -/
def listing (a : HostAction) : State := { State.reset with program := [a] }

theorem witness_DecodeOfEncodeIsTheCommand :
    (Instr.cfgTdl 255 65535).wellFormed = true ∧ (Instr.ldi 0).wellFormed = true := by decide

theorem witness_EncodeOfDecodeIsTheWord : decode 0xFFFFFF11 = .ok (.cfgTdl 255 65535) := by decide

theorem witness_IllegalWordsAreExactlyThese :
    State.reset.faulted = false ∧ decode 0x00000101 = .error (.slotNotZero .ldi 1) := by decide

/-- A block of the test instance's sizes whose `S` is complex. -/
def complexly (s : State) : State := { s with params := { s.params with arith := .complex } }

theorem witness_StepRunsTheDecodedCommand :
    (listing (.command 0x00000340)).nextAction? = some (.command 0x00000340) ∧
    (listing (.command 0x00000340)).faulted = false ∧ decode 0x00000340 = .ok (.free 3) ∧
    (listing (.command 0x00000340)).params.arith ≠ .complex ∧
    (∃ t, exec (.free 3) (listing (.command 0x00000340)) = .next t) ∧
    decode 0x00000012 = .ok (.cfgFof 0) ∧
    exec (.cfgFof 0) (complexly (listing (.command 0x00000012))) = .refused .needsRealScalar :=
  ⟨by decide, by decide, by decide, by decide, ⟨_, rfl⟩, by decide, rfl⟩

theorem witness_StepPerformsSetAndGetActions :
    (listing (.setIarg 7)).nextAction? = some (.setIarg 7) ∧
    (listing (.setXin (q 7))).nextAction? = some (.setXin (q 7)) ∧
    (listing (.setDin (.num 7))).nextAction? = some (.setDin (.num 7)) ∧
    (listing .getYout).nextAction? = some .getYout ∧ (listing .getFstat).nextAction? = some .getFstat ∧
    (listing .getIarg).nextAction? = some .getIarg ∧ (listing .getXin).nextAction? = some .getXin ∧
    (listing .getDin).nextAction? = some .getDin := by
  decide +kernel

theorem witness_EveryStepAnswersANextState :
    State.reset.params.arith ≠ .complex ∧
    (complexly (listing (.command 0x00000012))).nextAction? = some (.command 0x00000012) ∧
    decode 0x00000012 = .ok (.cfgFof 0) ∧ realOnlyCommand .cfgFof = true := by decide

theorem witness_StepWaitsAtTheEndOfTheList :
    State.reset.program.length ≤ State.reset.cp ∧
    { listing .getYout with cp := 1 }.program.length ≤ { listing .getYout with cp := 1 }.cp := by decide

theorem witness_IllegalWordLatchesIllegalOp :
    (listing (.command 0x00010821)).nextAction? = some (.command 0x00010821) ∧
    (listing (.command 0x00010821)).faulted = false ∧
    decode 0x00010821 = .error (.idxNotZero .advTdl 1) := by decide

theorem witness_FaultsArePrecise :
    State.reset.faulted = false ∧ ∃ t, issue 0x00100001 State.reset = .next t ∧ t.faulted = true :=
  ⟨by decide, next_exists (by decide)⟩

theorem witness_PreludeOfEveryCommand :
    faultedBlock.faulted = true ∧
    (State.reset.faulted = false ∧ ∃ e, decode 0x00000000 = .error e) ∧
    (decode 0x00000812 = .ok (.cfgFof 8) ∧ State.reset.params.nslots ≤ 8) ∧
    (decode 0x00000212 = .ok (.cfgFof 2) ∧ configures .cfgFof = true ∧
      (holding 2 (.opl (freshOpl (q 0) (q 0))) 0).kindAt 2 ≠ .none) ∧
    (decode 0x00000221 = .ok (.advTdl 2) ∧ needsKind .advTdl = some .tdl ∧
      (holding 2 (.opl (freshOpl (q 0) (q 0))) 0).kindAt 2 ≠ .tdl) ∧
    (decode 0x00000730 = .ok (.dfcWr 7) ∧ needsKind .dfcWr = some .dfc ∧ State.reset.kindAt 7 ≠ .dfc) ∧
    (decode 0x00000740 = .ok (.free 7) ∧ State.reset.kindAt 7 = .none) :=
  ⟨by decide, ⟨by decide, _, rfl⟩, by decide, by decide, by decide, by decide, by decide⟩

theorem witness_FaultedIsKeptAlongEveryRun :
    faultedBlock.faulted = true ∧ { faultedBlock with program := [.setIarg 1, .command 1] }.faulted = true ∧
    ∃ t, Host.Core.run core 2 { faultedBlock with program := [.setIarg 1, .command 1] } = .next t :=
  ⟨by decide, by decide, _, rfl⟩

theorem witness_LdiStagesOneInteger :
    State.reset.faulted = false ∧ 15 < State.reset.params.npi ∧ State.reset.params.npi ≤ 16 := by decide

theorem witness_LdsStagesOneScalar :
    State.reset.faulted = false ∧ 15 < State.reset.params.nps ∧ State.reset.params.nps ≤ 16 := by decide

theorem witness_FreeEmptiesItsSlot :
    Ready (holding 7 (.opl (freshOpl (q 0) (q 0))) 0) 7 ∧
    (holding 7 (.opl (freshOpl (q 0) (q 0))) 0).kindAt 7 ≠ .none := by decide

/-- The hypotheses that every `CFG.*` statement shares. -/
abbrev Free (s : State) (slot : Nat) : Prop := Ready s slot ∧ s.slotAt slot = none

/-- The hypotheses that the `CFG.*` statements of the kinds for a real `S` share. -/
abbrev FreeReal (s : State) (slot : Nat) : Prop := ReadyReal s slot ∧ s.slotAt slot = none

/-- A staged state with `IARG`. -/
def tdlStaged (k : Nat) (ints : List Nat) : State := { staged ints [1, 2] with iarg := BitVec.ofNat 32 k }

/-- A staged state whose instance has `CAPMAX = n`. -/
def capped (n : Nat) (s : State) : State := { s with params := { s.params with capmax := n } }

theorem witness_CfgTdlBuildsTheStagedTaps :
    (Free (tdlStaged 17 []) 7 ∧ 17 = (tdlStaged 17 []).iarg.toNat ∧ (tdlStaged 17 []).params.npi < 17) ∧
    (Free (tdlStaged 0 []) 7 ∧ 0 = (tdlStaged 0 []).iarg.toNat ∧ (tdlStaged 0 []).params.nps < 17) ∧
    (Free (tdlStaged 1 [1]) 7 ∧ 1 = (tdlStaged 1 [1]).iarg.toNat ∧ 1 ≤ (tdlStaged 1 [1]).params.npi ∧
      1 ≤ (tdlStaged 1 [1]).params.nps ∧ 1 ≠ 1 + 1) ∧
    (Free (tdlStaged 1 [0]) 7 ∧ 1 = (tdlStaged 1 [0]).iarg.toNat ∧ 2 ≤ (tdlStaged 1 [0]).params.nps ∧
      2 = 1 + 1 ∧ ∀ i < 1, ((tdlStaged 1 [0]).piAt i).toNat = 0) ∧
    (Free (tdlStaged 1 [4097]) 7 ∧ 1 = (tdlStaged 1 [4097]).iarg.toNat ∧
      (tdlStaged 1 [4097]).params.capmax < ((tdlStaged 1 [4097]).piAt 0).toNat) ∧
    (Free (capped 0 (tdlStaged 0 [])) 7 ∧ 0 = (capped 0 (tdlStaged 0 [])).iarg.toNat ∧
      (capped 0 (tdlStaged 0 [])).params.capmax < 1) ∧
    (Free (tdlStaged 1 [4096]) 7 ∧ 1 = (tdlStaged 1 [4096]).iarg.toNat ∧
      ((tdlStaged 1 [4096]).piAt 0).toNat ≠ 0 ∧
      ∀ i < 1, ((tdlStaged 1 [4096]).piAt i).toNat ≤ (tdlStaged 1 [4096]).params.capmax) ∧
    (Free (tdlStaged 0 []) 7 ∧ 0 = (tdlStaged 0 []).iarg.toNat ∧ 1 ≤ (tdlStaged 0 []).params.capmax) := by
  decide +kernel

theorem witness_AdvTdlSumsTheTapsThenWrites :
    Ready (holding 7 (.tdl (freshTdl [1] [q 1, q 2])) 3) 7 ∧
    (holding 7 (.tdl (freshTdl [1] [q 1, q 2])) 3).slotAt 7 = some (.tdl (freshTdl [1] [q 1, q 2])) := by
  decide +kernel

theorem witness_TdlStreamIsTheFirSum :
    Ready (holding 7 (.tdl (freshTdl [0, 1] [q 1, q 2, q 3])) 0) 7 ∧ 7 < 256 ∧
    [q 1, q 2, q 3].length = [0, 1].length + 1 ∧ 1 ≤ tdlCap [0, 1] ∧
    (holding 7 (.tdl (freshTdl [0, 1] [q 1, q 2, q 3])) 0).slotAt 7 =
      some (.tdl (freshTdl [0, 1] [q 1, q 2, q 3])) := by decide +kernel

theorem witness_CfgFofBuildsTheStagedFilter :
    (FreeReal (staged [5] []) 7 ∧ 4 < ((staged [5] []).piAt 0).toNat) ∧
    (FreeReal (staged [4] []) 7 ∧ ((staged [4] []).piAt 0).toNat ≤ 4) := by decide

/-- A fresh first-order filter. -/
def fof : Fof := freshFof (.ofRat 1) (.ofRat 2) (.ofRat 3) (.ofRat 4) (.ofRat 5) .lowshelf

theorem witness_AdvFofComputesDryPlusWet :
    ReadyReal (holding 7 (.fof fof) 3) 7 ∧ (holding 7 (.fof fof) 3).slotAt 7 = some (.fof fof) := by
  decide +kernel

theorem witness_FofStreamIsTheRecurrence :
    Ready (holding 7 (.fof fof) 3) 7 ∧ 7 < 256 ∧ (holding 7 (.fof fof) 3).params.arith = .exact ∧
    (holding 7 (.fof fof) 3).slotAt 7 =
      some (.fof (freshFof (.ofRat 1) (.ofRat 2) (.ofRat 3) (.ofRat 4) (.ofRat 5) .lowshelf)) := by
  decide +kernel

theorem witness_CfgOplChecksStability :
    (FreeReal (staged [] [0, 1]) 7 ∧ absLtOne ((staged [] [0, 1]).psAt 1) = false) ∧
    (FreeReal (staged [] [0, -127 / 128]) 7 ∧ absLtOne ((staged [] [0, -127 / 128]).psAt 1) = true) := by
  decide +kernel

theorem witness_StabilityTestIsAbsBelowOne :
    absLtOne ⟨.num (3 / 5), .num (4 / 5)⟩ = false ∧ absLtOne ⟨.num (3 / 5), .num (-3 / 5)⟩ = true ∧
    (Scalar.mk (.num 0) (.nan 3)).im = .nan 3 ∧ (Scalar.real .negInf).re = .negInf := by decide +kernel

theorem witness_AdvOplComputesTheRecurrence :
    ReadyReal (holding 7 (.opl (freshOpl (q 1) (q 0))) 3) 7 ∧
    (holding 7 (.opl (freshOpl (q 1) (q 0))) 3).slotAt 7 = some (.opl (freshOpl (q 1) (q 0))) := by
  decide +kernel

theorem witness_CfgFfcBuildsTheStagedComb :
    (Free (staged [] []) 7 ∧ 0 = ((staged [] []).piAt 0).toNat ∧ 0 < 1) ∧
    (Free (staged [1] [0, 0, 1]) 7 ∧ 1 = ((staged [1] [0, 0, 1]).piAt 0).toNat ∧
      absLtOne ((staged [1] [0, 0, 1]).psAt 2) = false) ∧
    (Free (staged [2049] []) 7 ∧ 2049 = ((staged [2049] []).piAt 0).toNat ∧
      absLtOne ((staged [2049] []).psAt 2) = true ∧ (staged [2049] []).params.capmax < 2 * 2049) ∧
    (Free (staged [2048] []) 7 ∧ 2048 = ((staged [2048] []).piAt 0).toNat ∧
      absLtOne ((staged [2048] []).psAt 2) = true ∧ 2 * 2048 ≤ (staged [2048] []).params.capmax) := by
  decide +kernel

/-- A fresh feedforward-feedback comb. -/
def ffc : Ffc := freshFfc (q (-1)) (q (3 / 2)) (q (1 / 2)) 1

theorem witness_AdvFfcComputesTheComb :
    Ready (holding 7 (.ffc ffc) 3) 7 ∧ (holding 7 (.ffc ffc) 3).slotAt 7 = some (.ffc ffc) := by
  decide +kernel

theorem witness_FfcStreamIsTheCombRecurrence :
    Ready (holding 7 (.ffc ffc) 3) 7 ∧ 7 < 256 ∧ 1 ≤ 1 ∧
    (holding 7 (.ffc ffc) 3).slotAt 7 = some (.ffc (freshFfc (q (-1)) (q (3 / 2)) (q (1 / 2)) 1)) := by
  decide +kernel

theorem witness_CfgFbcBuildsTheStagedComb :
    (Free (staged [] []) 7 ∧ 0 = ((staged [] []).piAt 0).toNat ∧ 0 < 1) ∧
    (Free (staged [1] [0, -1]) 7 ∧ 1 = ((staged [1] [0, -1]).piAt 0).toNat ∧
      absLtOne ((staged [1] [0, -1]).psAt 1) = false) ∧
    (Free (staged [4097] []) 7 ∧ 4097 = ((staged [4097] []).piAt 0).toNat ∧
      absLtOne ((staged [4097] []).psAt 1) = true ∧ (staged [4097] []).params.capmax < 4097) ∧
    (Free (staged [4096] []) 7 ∧ 4096 = ((staged [4096] []).piAt 0).toNat ∧
      absLtOne ((staged [4096] []).psAt 1) = true ∧ 4096 ≤ (staged [4096] []).params.capmax) := by
  decide +kernel

/-- A fresh filtered-feedback comb. -/
def fbc : Fbc := freshFbc (q (1 / 2)) (q (1 / 5)) 1

theorem witness_AdvFbcAddsTheFilteredFeedback :
    Ready (holding 7 (.fbc fbc) 3) 7 ∧ (holding 7 (.fbc fbc) 3).slotAt 7 = some (.fbc fbc) := by
  decide +kernel

theorem witness_FbcStreamIsTheDampedRecurrence :
    Ready (holding 7 (.fbc fbc) 3) 7 ∧ 7 < 256 ∧ 1 ≤ 1 ∧
    (holding 7 (.fbc fbc) 3).slotAt 7 = some (.fbc (freshFbc (q (1 / 2)) (q (1 / 5)) 1)) := by
  decide +kernel

theorem witness_CfgTvdBuildsTheStagedLine :
    (Free (staged [] []) 7 ∧ 0 = ((staged [] []).piAt 0).toNat ∧ 0 < 1) ∧
    (Free (staged [4097] []) 7 ∧ 4097 = ((staged [4097] []).piAt 0).toNat ∧
      (staged [4097] []).params.capmax < 4097) ∧
    (Free (staged [4096] []) 7 ∧ 4096 = ((staged [4096] []).piAt 0).toNat ∧
      4096 ≤ (staged [4096] []).params.capmax) := by decide

/-- A time-varying delay line of three cells in slot 7, with `DIN = d`. -/
def tvdAt (d : RVal) : State := { holding 7 (.tvd (freshTvd (q 1) (q (-1)) 3)) 8 with din := d }

theorem witness_AdvTvdBlendsTheNeighbours :
    (Ready (tvdAt (.num (11 / 4))) 7 ∧
      (tvdAt (.num (11 / 4))).slotAt 7 = some (.tvd (freshTvd (q 1) (q (-1)) 3)) ∧
      (tvdAt (.num (11 / 4))).din = .num (11 / 4) ∧ (0 : Rat) ≤ 11 / 4 ∧ (11 / 4 : Rat) < (3 : Nat) ∧
      ((2 : Nat) : Int) = ⌊(11 / 4 : Rat)⌋) ∧
    (Ready (tvdAt (.num 3)) 7 ∧ delayInRange (tvdAt (.num 3)).din 3 = false) := by decide +kernel

theorem witness_AdvTvdAcceptsExactlyTheRange :
    (tvdAt (.num 3)).slotAt 7 = some (.tvd (freshTvd (q 1) (q (-1)) 3)) ∧
    (Ready (tvdAt (.num 3)) 7 ∧ (tvdAt (.num 3)).din = .num 3 ∧ ¬((0 : Rat) ≤ 3 ∧ (3 : Rat) < (3 : Nat))) ∧
    (Ready (tvdAt (.num (-1 / 8))) 7 ∧ ¬((0 : Rat) ≤ -1 / 8 ∧ (-1 / 8 : Rat) < (3 : Nat))) ∧
    (Ready (tvdAt .posInf) 7 ∧ (tvdAt .posInf).din = .posInf) ∧
    (Ready (tvdAt .negInf) 7 ∧ (tvdAt .negInf).din = .negInf) ∧
    (Ready (tvdAt (.nan 0)) 7 ∧ (tvdAt (.nan 0)).din = .nan 0) ∧
    (Ready (tvdAt (.num 0)) 7 ∧ (0 : Rat) ≤ 0 ∧ (0 : Rat) < (3 : Nat)) ∧
    (Ready (tvdAt (.num (23 / 8))) 7 ∧ (0 : Rat) ≤ 23 / 8 ∧ (23 / 8 : Rat) < (3 : Nat)) := by
  decide +kernel

theorem witness_AdvTvdTakesNegativeZeroAsZero :
    Ready (tvdAt .negZero) 7 ∧ (tvdAt .negZero).slotAt 7 = some (.tvd (freshTvd (q 1) (q (-1)) 3)) ∧
    (tvdAt .negZero).din = .negZero ∧ 1 ≤ 3 ∧
    ∃ t, exec (.advTvd 7) ((tvdAt .negZero).withDin (.num 0)) = .next t ∧ t.faulted = false := by
  obtain ⟨t, h, ht⟩ := next_exists (o := exec (.advTvd 7) ((tvdAt .negZero).withDin (.num 0)))
    (f := fun t => !t.faulted) (by decide +kernel)
  exact ⟨by decide, by decide +kernel, by decide, by decide, t, h, by simpa using ht⟩

theorem witness_TvdStreamInterpolatesPastInputs :
    Ready (tvdAt (.num 0)) 7 ∧ 7 < 256 ∧ (tvdAt (.num 0)).params.arith = .exact ∧ 1 ≤ 3 ∧
    [(0 : Rat), 23 / 8].length = [(1 : Rat), 2].length ∧
    (∀ d ∈ [(0 : Rat), 23 / 8], 0 ≤ d ∧ d < (3 : Nat)) ∧
    (tvdAt (.num 0)).slotAt 7 = some (.tvd (freshTvd (.ofRat 1) (.ofRat (-1)) 3)) := by decide +kernel

theorem witness_CfgDfcBuildsTheStagedConvolver :
    (FreeReal (staged [1, 17] []) 7 ∧ (staged [1, 17] []).params.nps < ((staged [1, 17] []).piAt 1).toNat) ∧
    (FreeReal (staged [0, 16] []) 7 ∧ ((staged [0, 16] []).piAt 1).toNat ≤ (staged [0, 16] []).params.nps ∧
      ((staged [0, 16] []).piAt 0).toNat < 1) ∧
    (FreeReal (staged [1, 0] []) 7 ∧ ((staged [1, 0] []).piAt 1).toNat < 1) ∧
    (FreeReal (staged [2049, 1] []) 7 ∧ 2049 = ((staged [2049, 1] []).piAt 0).toNat ∧
      1 = ((staged [2049, 1] []).piAt 1).toNat ∧
      (staged [2049, 1] []).params.capmax < 2 * nextPow2 (2049 + 1 - 1)) ∧
    (FreeReal (staged [2048, 1] []) 7 ∧ 2048 = ((staged [2048, 1] []).piAt 0).toNat ∧
      1 = ((staged [2048, 1] []).piAt 1).toNat ∧ 1 ≤ (staged [2048, 1] []).params.nps ∧
      2 * nextPow2 (2048 + 1 - 1) ≤ (staged [2048, 1] []).params.capmax) := by decide +kernel

theorem witness_NextPow2IsTheLeastPowerOfTwo : nextPow2 1 = 1 ∧ nextPow2 8 = 8 ∧ nextPow2 9 = 16 := by
  decide +kernel

/-- A convolver of five cells in slot 7, its input filled, with `IARG = i`. -/
def dfcAt (i : Nat) : State :=
  { holding 7 (.dfc { freshDfc 5 [q (-1), q 1, q 3] with input := buffer [1, 2, 3, 4, 5] }) 9 with
    iarg := BitVec.ofNat 32 i }

/-- The unit of `dfcAt`. -/
def dfc : Dfc := { freshDfc 5 [q (-1), q 1, q 3] with input := buffer [1, 2, 3, 4, 5] }

theorem witness_DfcWrWritesOneInputCell :
    (ReadyReal (dfcAt 4) 7 ∧ (dfcAt 4).slotAt 7 = some (.dfc dfc) ∧ (dfcAt 4).iarg.toNat < dfc.inputSize) ∧
    (ReadyReal (dfcAt 5) 7 ∧ (dfcAt 5).slotAt 7 = some (.dfc dfc) ∧ dfc.inputSize ≤ (dfcAt 5).iarg.toNat) := by
  decide +kernel

theorem witness_DfcRunReplacesTheOutputBuffer :
    ReadyReal (dfcAt 0) 7 ∧ (dfcAt 0).slotAt 7 = some (.dfc dfc) := by decide +kernel

theorem witness_ExactRunIsTheLinearConvolution :
    Ready (dfcAt 0) 7 ∧ (dfcAt 0).params.arith = .exact ∧ (dfcAt 0).slotAt 7 = some (.dfc dfc) ∧
    1 ≤ dfc.inputSize ∧ 1 ≤ [(-1 : Rat), 1, 3].length ∧ dfc.h = [(-1 : Rat), 1, 3].map Scalar.ofRat ∧
    dfc.outputSize = dfc.inputSize + [(-1 : Rat), 1, 3].length - 1 ∧ dfc.outputSize ≤ dfc.fftSize ∧
    [(1 : Rat), 2, 3, 4, 5].length = dfc.inputSize ∧
    (∀ a, cell dfc.input a = .ofRat ([(1 : Rat), 2, 3, 4, 5].getD a 0)) := by
  refine ⟨by decide, by decide, by decide +kernel, by decide, by decide, by decide +kernel, by decide,
    by decide +kernel, by decide, ?_⟩
  have hb : dfc.input = [(0, q 1), (1, q 2), (2, q 3), (3, q 4), (4, q 5)] := by decide +kernel
  intro a
  rw [hb]
  match a with
  | 0 | 1 | 2 | 3 | 4 => rfl
  | n + 5 => simp [cell, Memory.read]

theorem witness_DfcRdReadsOneOutputCell :
    (ReadyReal (dfcAt 6) 7 ∧ (dfcAt 6).slotAt 7 = some (.dfc dfc) ∧ (dfcAt 6).iarg.toNat < dfc.outputSize) ∧
    (ReadyReal (dfcAt 7) 7 ∧ (dfcAt 7).slotAt 7 = some (.dfc dfc) ∧ dfc.outputSize ≤ (dfcAt 7).iarg.toNat) := by
  decide +kernel

theorem witness_CfgOlaBuildsTheStagedConvolver :
    (FreeReal (staged [1, 17] []) 7 ∧ (staged [1, 17] []).params.nps < ((staged [1, 17] []).piAt 1).toNat) ∧
    (FreeReal (staged [0, 16] []) 7 ∧ ((staged [0, 16] []).piAt 0).toNat < 1) ∧
    (FreeReal (staged [1, 0] []) 7 ∧ ((staged [1, 0] []).piAt 1).toNat < 1) ∧
    (FreeReal (capped 2 (staged [1, 1] [])) 7 ∧ 1 = ((capped 2 (staged [1, 1] [])).piAt 0).toNat ∧
      1 = ((capped 2 (staged [1, 1] [])).piAt 1).toNat ∧
      (capped 2 (staged [1, 1] [])).params.capmax < 2 * nextPow2 (1 + 1 - 1) + (1 + 1 - 1)) ∧
    (FreeReal (capped 3 (staged [1, 1] [])) 7 ∧ 1 = ((capped 3 (staged [1, 1] [])).piAt 0).toNat ∧
      1 = ((capped 3 (staged [1, 1] [])).piAt 1).toNat ∧
      2 * nextPow2 (1 + 1 - 1) + (1 + 1 - 1) ≤ (capped 3 (staged [1, 1] [])).params.capmax) := by
  decide +kernel

theorem witness_AdvOlaPushesRunsAndPops :
    (ReadyReal (holding 7 (.ola (freshOla 2 [q 1])) 3) 7 ∧
      (holding 7 (.ola (freshOla 2 [q 1])) 3).slotAt 7 = some (.ola (freshOla 2 [q 1])) ∧
      (freshOla 2 [q 1]).inputIdx + 1 ≠ (freshOla 2 [q 1]).windowSize) ∧
    (ReadyReal (holding 7 (.ola olaBefore) 4) 7 ∧ (holding 7 (.ola olaBefore) 4).slotAt 7 = some (.ola olaBefore) ∧
      olaBefore.inputIdx + 1 = olaBefore.windowSize ∧
      olaBefore.outputSize = olaBefore.windowSize + olaBefore.numTransients ∧
      olaBefore.outputSize ≤ olaBefore.dfc.fftSize ∧ olaBefore.writeIdx < olaBefore.outputSize) := by
  decide +kernel

theorem witness_OlaStreamIsTheDelayedConvolution :
    Ready (holding 7 (.ola (freshOla 2 ([(-1 : Rat), 1, 3].map Scalar.ofRat))) 0) 7 ∧ 7 < 256 ∧
    (holding 7 (.ola (freshOla 2 ([(-1 : Rat), 1, 3].map Scalar.ofRat))) 0).params.arith = .exact ∧ 1 ≤ 2 ∧
    1 ≤ [(-1 : Rat), 1, 3].length ∧
    (holding 7 (.ola (freshOla 2 ([(-1 : Rat), 1, 3].map Scalar.ofRat))) 0).slotAt 7 =
      some (.ola (freshOla 2 ([(-1 : Rat), 1, 3].map Scalar.ofRat))) := by decide +kernel

theorem witness_RealOnlyKindsAreRefusedOverComplex :
    (Ready (complexly State.reset) 7 ∧ (complexly State.reset).params.arith = .complex ∧
      (complexly State.reset).kindAt 7 = .none) ∧
    (Ready (complexly (holding 7 (.fof fof) 3)) 7 ∧ (complexly (holding 7 (.fof fof) 3)).kindAt 7 = .fof) ∧
    (complexly (holding 7 (.opl (freshOpl (q 1) (q 0))) 3)).kindAt 7 = .opl ∧
    (complexly (dfcAt 4)).kindAt 7 = .dfc ∧ (complexly (holding 7 (.ola olaBefore) 4)).kindAt 7 = .ola := by
  decide

/-- The buffer of three cells with the samples 1, 2, 3, 4 gone through it. -/
theorem ringHolds_four : RingHolds (buffer [4, 2, 3]) 1 3 [q 1, q 2, q 3, q 4] := by
  intro j h1 h3
  have hb : buffer [4, 2, 3] = [(0, q 4), (1, q 2), (2, q 3)] := by decide +kernel
  rw [hb]
  match j, h1, h3 with
  | 1, _, _ => rfl
  | 2, _, _ => rfl
  | 3, _, _ => rfl

theorem witness_AdvKeepsRingsAtTheLastSamples :
    (Ready (holding 7 (.tdl { freshTdl [3] [q 1, q 2] with buf := buffer [4, 2, 3], w := 1 }) 5) 7 ∧
      (freshTdl [3] [q 1, q 2]).cap = 3 ∧ 1 < 3) ∧
    (Ready (tvdAt (.num 2)) 7 ∧ delayInRange (tvdAt (.num 2)).din 3 = true) ∧
    (Ready (holding 7 (.ffc { ffc with m := 3, bufIn := buffer [4, 2, 3], bufOut := buffer [4, 2, 3], w := 1 }) 5) 7) ∧
    (Ready (holding 7 (.fbc { fbc with m := 3, bufOut := buffer [4, 2, 3], w := 1 }) 5) 7) ∧
    RingHolds (buffer [4, 2, 3]) 1 3 [q 1, q 2, q 3, q 4] :=
  ⟨by decide +kernel, by decide +kernel, by decide +kernel, by decide +kernel, ringHolds_four⟩

theorem witness_EveryCommandKeepsItsFrame :
    ∃ t, exec (.advOla 7) (holding 7 (.ola olaBefore) 4) = .next t ∧ t.faulted = false := by
  obtain ⟨t, h, ht⟩ := next_exists (o := exec (.advOla 7) (holding 7 (.ola olaBefore) 4))
    (f := fun t => !t.faulted) (by decide +kernel)
  exact ⟨t, h, by simpa using ht⟩

theorem witness_ConfigurationFieldsNeverChange :
    (∃ t, exec (.dfcWr 7) (dfcAt 4) = .next t ∧ t.faulted = false) ∧ (dfcAt 4).slotAt 7 = some (.dfc dfc) ∧
    Instr.dfcWr 7 ≠ .free 7 := by
  obtain ⟨t, h, ht⟩ := next_exists (o := exec (.dfcWr 7) (dfcAt 4)) (f := fun t => !t.faulted)
    (by decide +kernel)
  exact ⟨⟨t, h, by simpa using ht⟩, by decide +kernel, by decide⟩

/-- A state with two units. -/
def twoUnits : State :=
  { State.reset with slots := [(0, some (.opl (freshOpl (q 1) (q 0)))), (7, some (.fbc fbc))], xin := q 3 }

theorem witness_CommandsToDifferentSlotsCommute :
    (Instr.advFbc 7).slot? = some 7 ∧ (Instr.free 0).slot? = some 0 ∧ 7 ≠ 0 ∧ Memory.wf none twoUnits.slots ∧
    ∃ s1, exec (.advFbc 7) twoUnits = .next s1 ∧ ∃ s2, exec (.free 0) s1 = .next s2 ∧ s2.faulted = false ∧
    ∃ t1, exec (.free 0) twoUnits = .next t1 ∧ ∃ t2, exec (.advFbc 7) t1 = .next t2 ∧ t2.faulted = false := by
  refine ⟨by decide, by decide, by decide, by decide +kernel, ?_⟩
  obtain ⟨s1, h1, k1⟩ := next_exists (o := exec (.advFbc 7) twoUnits)
    (f := fun s => next (exec (.free 0) s) (fun t => !t.faulted)) (by decide +kernel)
  obtain ⟨s2, h2, k2⟩ := next_exists k1
  obtain ⟨t1, h3, k3⟩ := next_exists (o := exec (.free 0) twoUnits)
    (f := fun s => next (exec (.advFbc 7) s) (fun t => !t.faulted)) (by decide +kernel)
  obtain ⟨t2, h4, k4⟩ := next_exists k3
  exact ⟨s1, h1, s2, h2, by simpa using k2, t1, h3, t2, h4, by simpa using k4⟩

theorem witness_EveryStepKeepsTheInvariant :
    Inv { twoUnits with program := [.command 0x00000725] } ∧ Inv (dfcAt 4) ∧
    Inv (holding 7 (.ola olaBefore) 4) ∧
    ∃ t, step { twoUnits with program := [.command 0x00000725] } = .next t ∧ t.faulted = false := by
  obtain ⟨t, h, ht⟩ := next_exists (o := step { twoUnits with program := [.command 0x00000725] })
    (f := fun t => !t.faulted) (by decide +kernel)
  exact ⟨by decide +kernel, by decide +kernel, by decide +kernel, t, h, by simpa using ht⟩

theorem witness_EveryStepKeepsValuesOfTheInstance :
    ValuesOk { twoUnits with program := [.command 0x00000725, .setXin (q 1), .setDin (.num 2)] } ∧
    ValuesOk (complexly (holding 7 (.fbc { fbc with lp := ⟨.num 1, .nan 0⟩ }) 5)) ∧
    ValuesOk { dfcAt 4 with params := { Config.testInstance with arith := .real }, din := .negInf } ∧
    ∃ t, step { twoUnits with program := [.command 0x00000725] } = .next t ∧ t.faulted = false := by
  obtain ⟨t, h, ht⟩ := next_exists (o := step { twoUnits with program := [.command 0x00000725] })
    (f := fun t => !t.faulted) (by decide +kernel)
  exact ⟨by decide +kernel, by decide +kernel, by decide +kernel, t, h, by simpa using ht⟩

theorem witness_ResetMeetsTheInvariant :
    (∀ a ∈ [HostAction.setXin (q 1), .setDin (.num 2)], a.valuesOk Config.testInstance.arith = true) ∧
    Config.testInstance.Ok ∧ { Config.testInstance with nslots := 256, npi := 65536, nps := 65536 }.Ok ∧
    { Config.testInstance with nslots := 1, npi := 2, nps := 5, capmax := 1 }.Ok := by decide

/-- The 24 units of a small freeverb. -/
def reverb : State :=
  { State.reset with
    params := { Config.testInstance with nslots := 24 }
    slots := (List.range 24).map (fun n => (n, some (if n % 12 < 8 then .fbc fbc else .ffc ffc))) }

/-- A procedure that is done with a passing answer answers one. -/
theorem answers_exists {α : Type} {o : HostOutcome α} {f : State → α → Bool} (h : answers o f = true) :
    ∃ t y, o = .next (t, y) ∧ f t y = true := by
  cases o with
  | next r => exact ⟨r.1, r.2, rfl, h⟩
  | failed s g => exact absurd h (by simp [answers])
  | refused r => exact absurd h (by simp [answers])

theorem witness_FreeverbSampleMixesTheChannels :
    ∃ s1 ul s2 ur, advanceGraph (freeverbGraph 0) (q 1) reverb = .next (s1, ul) ∧
      advanceGraph (freeverbGraph 12) (q 2) s1 = .next (s2, ur) ∧ s2.faulted = false := by
  obtain ⟨s1, ul, h1, k1⟩ := answers_exists (o := advanceGraph (freeverbGraph 0) (q 1) reverb)
    (f := fun s1 _ => answers (advanceGraph (freeverbGraph 12) (q 2) s1) (fun s2 _ => !s2.faulted))
    (by decide +kernel)
  obtain ⟨s2, ur, h2, k2⟩ := answers_exists k1
  exact ⟨s1, ul, s2, ur, h1, h2, by simpa using k2⟩

theorem witness_ResetLeavesEverythingZeroAndEmpty : State.reset = State.resetWith Config.testInstance [] := rfl

/-- The host list of `RUN.OPL s7, [1, 2]` and `FLUSH.OPL s7, 1`. -/
def runList : List HostAction :=
  (Pseudo.run .opl 7 [q 1, q 2]).expand ++ (Pseudo.flush .opl 7 1).expand

theorem witness_ProcessIsTheRunOfItsHostList :
    { holding 7 (.opl (freshOpl (q 1) (q 0))) 0 with program := runList }.program = runList ∧
    { holding 7 (.opl (freshOpl (q 1) (q 0))) 0 with program := runList }.cp = 0 ∧ runList.length = 9 ∧
    answers (process .opl 7 [q 1, q 2] 1 { holding 7 (.opl (freshOpl (q 1) (q 0))) 0 with program := runList })
      (fun _ ys => ys == [q 1, q 2, q 0]) = true ∧
    failsWith (process .opl 7 [q 1, q 2] 1 { State.reset with program := runList }) .blockFaulted = true ∧
    faultedBlock.faulted = true :=
  ⟨rfl, rfl, rfl, by decide +kernel, by decide +kernel, by decide⟩

theorem witness_MisconfiguredGraphsFailBeforeAnyCommand :
    (Graph.series [.single .opl 0, .parallel [q 1] []]).configured = false ∧
    (Graph.series [.single .opl 0, .parallel [] []]).configured = true ∧
    { twoChannels with filters := [.single .opl 0, .series []] }.outputLt.length =
      [Graph.single .opl 0, .series []].length ∧
    allConfigured [.single .opl 0, .series []] = false := by decide

theorem witness_HostRunsFailOnAFaultOrAFullSink :
    answers (process .opl 7 [q 1] 1 (holding 7 (.opl (freshOpl (q 1) (q 0))) 0)) (fun _ ys => ys == [q 1, q 0])
      = true ∧
    ([q 9].length + [q 1, q 0].length ≤ 3 ∧ [q 9].length ≤ 1 ∧ 1 < [q 9].length + [q 1, q 0].length) ∧
    answers (processTvd 7 [q 1] [.num 0] 0 (tvdAt (.num 0))) (fun _ ys => ys.length == 1) = true ∧
    answers (mimoProcess { twoChannels with filters := [.single .opl 0, .single .fbc 7] } [[q 1], [q 2]]
        [Sink.unbounded, Sink.unbounded] 1 twoUnits) (fun _ ks => ks.length == 2) = true :=
  ⟨by decide +kernel, by decide, by decide +kernel, by decide +kernel⟩

end Sys2Proof.Tests
end

section
/-!
What a command can do, said once: every command answers a next state, or is refused over a complex `S`
(`exec_answers`); a next state is one of the ten of `Effect` (`exec_effect`); and a step is one action of the
host's list followed by the move of `cp` (`step_next`).
-/

namespace Sys2Proof.Machine

/-- The unit that a `CFG.*` command builds from the staging memories once the checks of its kind pass; the kinds of
R8 are built where `S` is real. -/
inductive Builds (s : State) : Instr → FilterUnit → Prop
  | tdl {slot count : Nat} {u : FilterUnit} (built : buildTdl s.iargNat count s = .ok u) :
      Builds s (.cfgTdl slot count) u
  | fof {slot : Nat} {u : FilterUnit} (real : s.params.arith ≠ .complex) (built : buildFof s = .ok u) :
      Builds s (.cfgFof slot) u
  | opl {slot : Nat} {u : FilterUnit} (real : s.params.arith ≠ .complex) (built : buildOpl s = .ok u) :
      Builds s (.cfgOpl slot) u
  | ffc {slot : Nat} {u : FilterUnit} (built : buildFfc s = .ok u) : Builds s (.cfgFfc slot) u
  | fbc {slot : Nat} {u : FilterUnit} (built : buildFbc s = .ok u) : Builds s (.cfgFbc slot) u
  | tvd {slot : Nat} {u : FilterUnit} (built : buildTvd s = .ok u) : Builds s (.cfgTvd slot) u
  | dfc {slot : Nat} {u : FilterUnit} (real : s.params.arith ≠ .complex) (built : buildDfc s = .ok u) :
      Builds s (.cfgDfc slot) u
  | ola {slot : Nat} {u : FilterUnit} (real : s.params.arith ≠ .complex) (built : buildOla s = .ok u) :
      Builds s (.cfgOla slot) u

/-- What an `ADV.*` command makes of the unit in its slot, and the sample it answers. -/
inductive Advances (s : State) : Instr → FilterUnit → FilterUnit → Scalar → Prop
  | tdl (slot : Nat) (u : Tdl) :
      Advances s (.advTdl slot) (.tdl u) (.tdl (advanceTdl s.params.arith s.xin u).1)
        (advanceTdl s.params.arith s.xin u).2
  | fof (slot : Nat) (u : Fof) :
      Advances s (.advFof slot) (.fof u) (.fof (advanceFof s.params.arith s.xin u).1)
        (advanceFof s.params.arith s.xin u).2
  | opl (slot : Nat) (u : Opl) :
      Advances s (.advOpl slot) (.opl u) (.opl (advanceOpl s.params.arith s.xin u).1)
        (advanceOpl s.params.arith s.xin u).2
  | ffc (slot : Nat) (u : Ffc) :
      Advances s (.advFfc slot) (.ffc u) (.ffc (advanceFfc s.params.arith s.xin u).1)
        (advanceFfc s.params.arith s.xin u).2
  | fbc (slot : Nat) (u : Fbc) :
      Advances s (.advFbc slot) (.fbc u) (.fbc (advanceFbc s.params.arith s.xin u).1)
        (advanceFbc s.params.arith s.xin u).2
  | tvd (slot : Nat) {u : Tvd} {r : Tvd × Scalar} (answered : advanceTvd s.params.arith s.xin s.din u = .ok r) :
      Advances s (.advTvd slot) (.tvd u) (.tvd r.1) r.2
  | ola (slot : Nat) (u : Ola) :
      Advances s (.advOla slot) (.ola u) (.ola (advanceOla s.params.arith s.xin u).1)
        (advanceOla s.params.arith s.xin u).2

/-- The next states of the command `i` in the state `s`. -/
inductive Effect (i : Instr) (s : State) : State → Prop
  | ignored (faulted : s.faulted = true) : Effect i s s
  | faults (c : FaultCause) (running : s.faulted = false) : Effect i s (raise c (encode i) s)
  | stagesInteger {idx : Nat} (instr : i = .ldi idx) (running : s.faulted = false) (inRange : idx < s.params.npi) :
      Effect i s (s.withPi idx s.iarg)
  | stagesScalar {idx : Nat} (instr : i = .lds idx) (running : s.faulted = false) (inRange : idx < s.params.nps) :
      Effect i s (s.withPs idx s.xin)
  | configures {slot : Nat} {u : FilterUnit} (names : i.slot? = some slot) (ready : Ready s slot)
      (empty : s.slotAt slot = none) (built : Builds s i u) : Effect i s (s.withSlot slot (some u))
  | advances {slot : Nat} {u v : FilterUnit} {y : Scalar} (names : i.slot? = some slot) (ready : Ready s slot)
      (held : s.slotAt slot = some u) (advanced : Advances s i u v y) :
      Effect i s ((s.withSlot slot (some v)).withYout y)
  | writesInput {slot : Nat} {u : Dfc} (instr : i = .dfcWr slot) (ready : Ready s slot)
      (held : s.slotAt slot = some (.dfc u)) (inRange : s.iargNat < u.inputSize) :
      Effect i s (s.withSlot slot (some (.dfc { u with input := setCell u.input s.iargNat s.xin })))
  | runsFilter {slot : Nat} {u : Dfc} (instr : i = .dfcRun slot) (ready : Ready s slot)
      (held : s.slotAt slot = some (.dfc u)) :
      Effect i s (s.withSlot slot (some (.dfc (runFilter s.params.arith u))))
  | readsOutput {slot : Nat} {u : Dfc} (instr : i = .dfcRd slot) (ready : Ready s slot)
      (held : s.slotAt slot = some (.dfc u)) (inRange : s.iargNat < u.outputSize) :
      Effect i s (s.withYout (cell u.output s.iargNat))
  | frees {slot : Nat} {u : FilterUnit} (instr : i = .free slot) (ready : Ready s slot)
      (held : s.slotAt slot = some u) : Effect i s (s.withSlot slot none)

section
variable {s t : State} {slot : Nat}

theorem kindAt_of_empty (h : s.slotAt slot = none) : s.kindAt slot = .none := by simp [State.kindAt, h]

/-- The slot that a checked access finds a unit in holds that unit: each selector takes its own kind only. -/
theorem slotAt_of_selected {α : Type} {sel : FilterUnit → Option α} {wrap : α → FilterUnit} {u : α}
    (hsel : ∀ f, sel f = some u → f = wrap u) (h : (s.slotAt slot).bind sel = some u) :
    s.slotAt slot = some (wrap u) := by
  obtain ⟨f, hf, hu⟩ := Option.bind_eq_some_iff.mp h
  rw [hf, hsel f hu]

theorem eq_tdl_of_asTdl (u : Tdl) (f : FilterUnit) (h : f.asTdl = some u) : f = .tdl u := by
  cases f <;> cases h; rfl

theorem eq_fof_of_asFof (u : Fof) (f : FilterUnit) (h : f.asFof = some u) : f = .fof u := by
  cases f <;> cases h; rfl

theorem eq_opl_of_asOpl (u : Opl) (f : FilterUnit) (h : f.asOpl = some u) : f = .opl u := by
  cases f <;> cases h; rfl

theorem eq_ffc_of_asFfc (u : Ffc) (f : FilterUnit) (h : f.asFfc = some u) : f = .ffc u := by
  cases f <;> cases h; rfl

theorem eq_fbc_of_asFbc (u : Fbc) (f : FilterUnit) (h : f.asFbc = some u) : f = .fbc u := by
  cases f <;> cases h; rfl

theorem eq_tvd_of_asTvd (u : Tvd) (f : FilterUnit) (h : f.asTvd = some u) : f = .tvd u := by
  cases f <;> cases h; rfl

theorem eq_dfc_of_asDfc (u : Dfc) (f : FilterUnit) (h : f.asDfc = some u) : f = .dfc u := by
  cases f <;> cases h; rfl

theorem eq_ola_of_asOla (u : Ola) (f : FilterUnit) (h : f.asOla = some u) : f = .ola u := by
  cases f <;> cases h; rfl

/-- A command for a real `S` only, past the prelude, answers a next state only where `S` is real. -/
theorem realScalarOnly_next_real {needs : Kind} {run : StepOutcome} (h : realScalarOnly slot needs run s = .next t)
    (ready : Ready s slot) (hk : s.kindAt slot = needs) : s.params.arith ≠ .complex := by
  intro hc
  rw [realScalarOnly_of_complex s slot needs run hc ready.1 ready.2 hk] at h
  cases h

section
variable {i : Instr}

/-- A next state of a command frame, in the terms of `Effect`: the rule's own states are left to the caller. -/
theorem command_effect {body : Except FaultCause State} (h : command i body s = .next t)
    (hbody : ∀ u, s.faulted = false → body = .ok u → Effect i s u) : Effect i s t := by
  rcases command_cases s i body with ⟨hf, e⟩ | ⟨hf, u, hu, e⟩ | ⟨hf, c, -, e⟩
  · cases e.symm.trans h
    exact .ignored hf
  · cases e.symm.trans h
    exact hbody t hf hu
  · cases e.symm.trans h
    exact .faults c hf

theorem configure_effect {built : Except FaultCause FilterUnit} (h : configure i slot built s = .next t)
    (names : i.slot? = some slot)
    (hbuilt : ∀ u, Ready s slot → s.slotAt slot = none → built = .ok u → Builds s i u) : Effect i s t := by
  rcases configure_cases s i slot built with ⟨hf, e⟩ | ⟨hf, c, e⟩ | ⟨hf, hs, empty, u, hu, e⟩
  · cases e.symm.trans h
    exact .ignored hf
  · cases e.symm.trans h
    exact .faults c hf
  · cases e.symm.trans h
    exact .configures names ⟨hf, hs⟩ empty (hbuilt u ⟨hf, hs⟩ empty hu)

theorem advance_effect {α : Type} {sel : FilterUnit → Option α} {wrap : α → FilterUnit}
    {adv : α → Except FaultCause (α × Scalar)} (h : advance i slot sel wrap adv s = .next t)
    (names : i.slot? = some slot) (hsel : ∀ u f, sel f = some u → f = wrap u)
    (hadv : ∀ u r, adv u = .ok r → Advances s i (wrap u) (wrap r.1) r.2) : Effect i s t := by
  rcases advance_cases s i slot sel wrap adv with ⟨hf, e⟩ | ⟨hf, c, e⟩ | ⟨hf, hs, u, r, hu, hr, e⟩
  · cases e.symm.trans h
    exact .ignored hf
  · cases e.symm.trans h
    exact .faults c hf
  · cases e.symm.trans h
    exact .advances names ⟨hf, hs⟩ (slotAt_of_selected (hsel u) hu) (hadv u r hr)

/-- An advance without a check of its own. -/
theorem advance_effect_unchecked {α : Type} {sel : FilterUnit → Option α} {wrap : α → FilterUnit}
    {adv : α → α × Scalar} (h : advance i slot sel wrap (fun u => .ok (adv u)) s = .next t)
    (names : i.slot? = some slot) (hsel : ∀ u f, sel f = some u → f = wrap u)
    (hadv : ∀ u, Advances s i (wrap u) (wrap (adv u).1) (adv u).2) : Effect i s t :=
  advance_effect h names hsel (fun u r hr => by cases hr; exact hadv u)

/-- A command on the DFC in its slot. -/
theorem dfcCommand_effect {k : Dfc → Except FaultCause State}
    (h : command i (withUnit slot FilterUnit.asDfc k s) s = .next t)
    (hk : ∀ u v, Ready s slot → s.slotAt slot = some (.dfc u) → k u = .ok v → Effect i s v) : Effect i s t :=
  command_effect h fun v hf hv => by
    obtain ⟨hs, u, hu, hku⟩ := withUnit_ok s slot FilterUnit.asDfc k hv
    exact hk u v ⟨hf, hs⟩ (slotAt_of_selected (eq_dfc_of_asDfc u) hu) hku

end

/-! ### One command each: the staging and slot commands, and those of the convolver -/

theorem execLdi_effect {idx : Nat} (h : execLdi idx s = .next t) : Effect (.ldi idx) s t :=
  command_effect h fun u hf hu => by
    split at hu
    · cases hu
    · rename_i hidx
      cases hu
      exact .stagesInteger rfl hf (Nat.lt_of_not_le hidx)

theorem execLds_effect {idx : Nat} (h : execLds idx s = .next t) : Effect (.lds idx) s t :=
  command_effect h fun u hf hu => by
    split at hu
    · cases hu
    · rename_i hidx
      cases hu
      exact .stagesScalar rfl hf (Nat.lt_of_not_le hidx)

theorem execFree_effect (h : execFree slot s = .next t) : Effect (.free slot) s t :=
  command_effect h fun v hf hv => by
    obtain ⟨hs, u, hu, hk⟩ := withUnit_ok s slot some _ hv
    cases hk
    exact .frees rfl ⟨hf, hs⟩ (by simpa using hu)

theorem execDfcWr_effect (h : execDfcWr slot s = .next t) : Effect (.dfcWr slot) s t :=
  dfcCommand_effect (realScalarOnly_next s _ _ _ h) fun u v ready held hv => by
    split at hv
    · cases hv
    · rename_i hidx
      cases hv
      exact .writesInput rfl ready held (Nat.lt_of_not_le hidx)

theorem execDfcRun_effect (h : execDfcRun slot s = .next t) : Effect (.dfcRun slot) s t :=
  dfcCommand_effect (realScalarOnly_next s _ _ _ h) fun u v ready held hv => by
    cases hv
    exact .runsFilter rfl ready held

theorem execDfcRd_effect (h : execDfcRd slot s = .next t) : Effect (.dfcRd slot) s t :=
  dfcCommand_effect (realScalarOnly_next s _ _ _ h) fun u v ready held hv => by
    split at hv
    · cases hv
    · rename_i hidx
      cases hv
      exact .readsOutput rfl ready held (Nat.lt_of_not_le hidx)

/-- Every next state of a command is one of `Effect`. -/
theorem exec_effect {i : Instr} (h : exec i s = .next t) : Effect i s t := by
  cases i with
  | ldi idx => exact execLdi_effect h
  | lds idx => exact execLds_effect h
  | cfgTdl slot count => exact configure_effect h rfl fun u _ _ hu => .tdl hu
  | cfgFof slot =>
    exact configure_effect (realScalarOnly_next s _ _ _ h) rfl fun u ready empty hu =>
      .fof (realScalarOnly_next_real h ready (kindAt_of_empty empty)) hu
  | cfgOpl slot =>
    exact configure_effect (realScalarOnly_next s _ _ _ h) rfl fun u ready empty hu =>
      .opl (realScalarOnly_next_real h ready (kindAt_of_empty empty)) hu
  | cfgFfc slot => exact configure_effect h rfl fun u _ _ hu => .ffc hu
  | cfgFbc slot => exact configure_effect h rfl fun u _ _ hu => .fbc hu
  | cfgTvd slot => exact configure_effect h rfl fun u _ _ hu => .tvd hu
  | cfgDfc slot =>
    exact configure_effect (realScalarOnly_next s _ _ _ h) rfl fun u ready empty hu =>
      .dfc (realScalarOnly_next_real h ready (kindAt_of_empty empty)) hu
  | cfgOla slot =>
    exact configure_effect (realScalarOnly_next s _ _ _ h) rfl fun u ready empty hu =>
      .ola (realScalarOnly_next_real h ready (kindAt_of_empty empty)) hu
  | advTdl slot => exact advance_effect_unchecked h rfl eq_tdl_of_asTdl (.tdl slot)
  | advFof slot =>
    exact advance_effect_unchecked (realScalarOnly_next s _ _ _ h) rfl eq_fof_of_asFof (.fof slot)
  | advOpl slot =>
    exact advance_effect_unchecked (realScalarOnly_next s _ _ _ h) rfl eq_opl_of_asOpl (.opl slot)
  | advFfc slot => exact advance_effect_unchecked h rfl eq_ffc_of_asFfc (.ffc slot)
  | advFbc slot => exact advance_effect_unchecked h rfl eq_fbc_of_asFbc (.fbc slot)
  | advTvd slot => exact advance_effect h rfl eq_tvd_of_asTvd fun u r hr => .tvd slot hr
  | advOla slot =>
    exact advance_effect_unchecked (realScalarOnly_next s _ _ _ h) rfl eq_ola_of_asOla (.ola slot)
  | dfcWr slot => exact execDfcWr_effect h
  | dfcRun slot => exact execDfcRun_effect h
  | dfcRd slot => exact execDfcRd_effect h
  | free slot => exact execFree_effect h

/-! ### Which commands answer a next state -/

theorem command_next (i : Instr) (body : Except FaultCause State) (s : State) :
    ∃ t, command i body s = .next t := by
  rcases command_cases s i body with ⟨-, e⟩ | ⟨-, u, -, e⟩ | ⟨-, c, -, e⟩ <;> exact ⟨_, e⟩

/-- `o` is a next state, or the refusal over a complex `S` of a block that is not FAULTED. -/
def NextOrNeedsReal (s : State) (o : StepOutcome) : Prop :=
  (∃ t, o = .next t) ∨ (s.params.arith = .complex ∧ s.faulted = false ∧ o = .refused .needsRealScalar)

theorem realScalarOnly_answers (slot : Nat) (needs : Kind) {run : StepOutcome} (h : ∃ t, run = .next t) :
    NextOrNeedsReal s (realScalarOnly slot needs run s) := by
  rcases realScalarOnly_cases s slot needs run with e | ⟨hc, hf, -, -, e⟩
  · exact .inl (by rw [e]; exact h)
  · exact .inr ⟨hc, hf, e⟩

/-- A command of the kinds for a real `S` only. -/
theorem exec_answers_of_realOnly {i : Instr} (h : realOnlyCommand i.opcode = true) :
    NextOrNeedsReal s (exec i s) := by
  cases i with
  | cfgFof | cfgOpl | cfgDfc | cfgOla | advFof | advOpl | advOla | dfcWr | dfcRun | dfcRd =>
    exact realScalarOnly_answers _ _ (command_next _ _ s)
  | ldi | lds | cfgTdl | cfgFfc | cfgFbc | cfgTvd | advTdl | advFfc | advFbc | advTvd | free => cases h

/-- A command of the other kinds, or of none. -/
theorem exec_next_of_anyScalar {i : Instr} (h : realOnlyCommand i.opcode = false) : ∃ t, exec i s = .next t := by
  cases i with
  | cfgFof | cfgOpl | cfgDfc | cfgOla | advFof | advOpl | advOla | dfcWr | dfcRun | dfcRd => cases h
  | ldi | lds | cfgTdl | cfgFfc | cfgFbc | cfgTvd | advTdl | advFfc | advFbc | advTvd | free =>
    exact command_next _ _ s

/-- Every command answers a next state, but that one of the kinds for a real `S` only may be refused over a complex
one. -/
theorem exec_answers (i : Instr) (s : State) :
    (∃ t, exec i s = .next t) ∨
    (s.params.arith = .complex ∧ s.faulted = false ∧ realOnlyCommand i.opcode = true ∧
      exec i s = .refused .needsRealScalar) := by
  cases hi : realOnlyCommand i.opcode with
  | false => exact .inl (exec_next_of_anyScalar hi)
  | true =>
    rcases exec_answers_of_realOnly (s := s) hi with ⟨t, e⟩ | ⟨hc, hf, e⟩
    · exact .inl ⟨t, e⟩
    · exact .inr ⟨hc, hf, rfl, e⟩

/-! ### A word written to `CMD`, and a step -/

/-- What a word written to `CMD` can do. -/
theorem issue_next {w : Word} (h : issue w s = .next t) :
    t = s ∨ t = raise .illegalOp w s ∨ ∃ i, decode w = .ok i ∧ Effect i s t := by
  cases hf : s.faulted with
  | true =>
    rw [issue_of_faulted s w hf] at h
    cases h
    exact .inl rfl
  | false =>
    cases hw : decode w with
    | error e =>
      rw [issue_of_illegal s hf hw] at h
      cases h
      exact .inr (.inl rfl)
    | ok i => exact .inr (.inr ⟨i, rfl, exec_effect (issue_of_command s hf hw ▸ h)⟩)

theorem performAt_next {a : HostAction} (h : performAt a s = .next t) :
    ∃ u, perform a s = .next u ∧ t = u.advanceCp := by
  unfold performAt at h
  split at h <;> cases h
  exact ⟨_, by assumption, rfl⟩

/-- What a step can do: wait at the end of the list, or perform the action at `cp` and move `cp`. -/
theorem step_next (h : step s = .next t) :
    t = s ∨ ∃ a u, s.nextAction? = some a ∧ perform a s = .next u ∧ t = u.advanceCp := by
  cases ha : s.nextAction? with
  | none =>
    rw [step_of_end s ha] at h
    cases h
    exact .inl rfl
  | some a =>
    obtain ⟨u, hu, rfl⟩ := performAt_next (step_of_action s ha ▸ h)
    exact .inr ⟨a, u, rfl, hu, rfl⟩

/-- No command changes the parameters, the host's list, `cp` or what the host has read. -/
theorem Effect.hostPart {i : Instr} (h : Effect i s t) :
    t.params = s.params ∧ t.program = s.program ∧ t.cp = s.cp ∧ t.outputs = s.outputs := by
  cases h <;> exact ⟨rfl, rfl, rfl, rfl⟩

/-- No host action changes the parameters, the list or `cp`. -/
theorem perform_hostPart {a : HostAction} (h : perform a s = .next t) :
    t.params = s.params ∧ t.program = s.program ∧ t.cp = s.cp := by
  cases a with
  | command w =>
    rcases issue_next h with rfl | rfl | ⟨i, -, he⟩
    · exact ⟨rfl, rfl, rfl⟩
    · exact ⟨rfl, rfl, rfl⟩
    · obtain ⟨hp, hl, hc, -⟩ := he.hostPart
      exact ⟨hp, hl, hc⟩
  | setIarg | setXin | setDin | getYout | getFstat | getIarg | getXin | getDin =>
    cases h
    exact ⟨rfl, rfl, rfl⟩

theorem perform_answers (a : HostAction) (s : State) :
    (∃ t, perform a s = .next t) ∨
    (s.params.arith = .complex ∧ perform a s = .refused .needsRealScalar ∧ s.faulted = false ∧
      ∃ w i, a = .command w ∧ decode w = .ok i ∧ realOnlyCommand i.opcode = true) := by
  cases a with
  | setIarg | setXin | setDin | getYout | getFstat | getIarg | getXin | getDin => exact .inl ⟨_, rfl⟩
  | command w =>
    cases hf : s.faulted with
    | true => exact .inl ⟨s, issue_of_faulted s w hf⟩
    | false =>
      cases hw : decode w with
      | error e => exact .inl ⟨_, issue_of_illegal s hf hw⟩
      | ok i =>
        have e : perform (.command w) s = exec i s := issue_of_command s hf hw
        rcases exec_answers i s with ⟨t, ht⟩ | ⟨hc, -, hi, hr⟩
        · exact .inl ⟨t, e.trans ht⟩
        · exact .inr ⟨hc, e.trans hr, rfl, w, i, rfl, hw, hi⟩

/-- What a step answers. -/
theorem step_answers (s : State) :
    (∃ t, step s = .next t) ∨
    (s.params.arith = .complex ∧ step s = .refused .needsRealScalar ∧ s.faulted = false ∧
      ∃ w i, s.nextAction? = some (.command w) ∧ decode w = .ok i ∧ realOnlyCommand i.opcode = true) := by
  cases ha : s.nextAction? with
  | none => exact .inl ⟨s, step_of_end s ha⟩
  | some a =>
    rcases perform_answers a s with ⟨t, ht⟩ | ⟨hc, hr, hf, w, i, rfl, hw, hi⟩
    · exact .inl ⟨_, (step_of_action s ha).trans (performAt_of_next s _ ht)⟩
    · exact .inr ⟨hc, by simp [step_of_action s ha, performAt, hr], hf, w, i, rfl, hw, hi⟩

end

end Sys2Proof.Machine

open Sys2Proof.Machine

/-- Settles O9: a step answers what the action at `cp` answers, and of these one command alone can be refused. -/
theorem everyStepAnswersANextState : Obligations.EveryStepAnswersANextState := by
  unfold Obligations.EveryStepAnswersANextState
  intro s
  rcases step_answers s with ⟨t, ht⟩ | ⟨hc, hr, hf, hw⟩
  · exact ⟨fun _ => ⟨t, ht⟩, .inl ⟨t, ht⟩⟩
  · exact ⟨fun hn => absurd hc hn, .inr ⟨hr, hf, hw⟩⟩

/-- Settles O47: past the prelude, each of these commands meets the guard of R8. -/
theorem realOnlyKindsAreRefusedOverComplex : Obligations.RealOnlyKindsAreRefusedOverComplex := by
  unfold Obligations.RealOnlyKindsAreRefusedOverComplex
  intro s slot ⟨hf, hs⟩ hc
  have refused (needs : Kind) (run : StepOutcome) (hk : s.kindAt slot = needs) :
      realScalarOnly slot needs run s = .refused .needsRealScalar :=
    realScalarOnly_of_complex s slot needs run hc hf hs hk
  exact ⟨fun hk => ⟨refused .none _ hk, refused .none _ hk, refused .none _ hk, refused .none _ hk⟩,
    refused .fof _, refused .opl _,
    fun hk => ⟨refused .dfc _ hk, refused .dfc _ hk, refused .dfc _ hk⟩, refused .ola _⟩

end

section
/-!
The invariant of the machine (spec/10_state.md R26 to R29, R39): what the checks of each `CFG.*` fix, what each
command on a unit keeps of it, and from these that every step keeps `Inv`.
-/

namespace Sys2Proof.Machine

section
variable {p : Params}

/-! ### Buffers and write indices -/

theorem bufferOk_nil (n : Nat) : BufferOk [] n := ⟨Memory.nil_wf Scalar.zero, by simp⟩

theorem bufferOk_setCell {m : Memory Scalar} {n i : Nat} (v : Scalar) (h : BufferOk m n) (hi : i < n) :
    BufferOk (setCell m i v) n :=
  ⟨Memory.write_wf Scalar.zero m i v h.1, Memory.write_within Scalar.zero m i v h.2 hi⟩

theorem bufferOk_ringClear {ring : Memory Scalar} {size : Nat} (start count : Nat) (hs : 1 ≤ size)
    (h : BufferOk ring size) : BufferOk (ringClear ring size start count) size :=
  List.foldlRecOn (motive := (BufferOk · size)) _ _ h fun _ hr _ _ => bufferOk_setCell _ hr (Nat.mod_lt _ hs)

theorem bufferOk_ringAccumulate (ar : Arith) {ring : Memory Scalar} {size : Nat} (start : Nat) (f : Nat → Scalar)
    (hs : 1 ≤ size) (h : BufferOk ring size) : BufferOk (ringAccumulate ar ring size start f) size :=
  List.foldlRecOn (motive := (BufferOk · size)) _ _ h fun _ hr _ _ => bufferOk_setCell _ hr (Nat.mod_lt _ hs)

theorem bufferOk_ofFn (n : Nat) (f : Nat → Scalar) : BufferOk (Memory.ofFn Scalar.zero n f) n :=
  ⟨Memory.ofFn_wf Scalar.zero n f, Memory.ofFn_within Scalar.zero n f⟩

/-! ### What the checks of `CFG.*` fix -/

theorem le_maxDelay_of_mem {ds : List Nat} {d : Nat} (h : d ∈ ds) : d ≤ maxDelay ds := by
  rw [maxDelay, List.foldl_max]
  exact Nat.le_trans (List.le_max?_getD_of_mem h) (Nat.le_max_right 0 _)

theorem le_tdlCap_of_mem {ds : List Nat} {d : Nat} (h : d ∈ ds) : d ≤ tdlCap ds := by
  rw [tdlCap, if_neg (List.length_pos_of_mem h).ne']
  exact le_maxDelay_of_mem h

/-- Without a delay the capacity is 1, with delays it is the greatest, which `CFG.TDL` asks not to be 0 (R100). -/
theorem one_le_tdlCap {ds : List Nat} (h : ¬ (1 ≤ ds.length ∧ maxDelay ds = 0)) : 1 ≤ tdlCap ds := by
  unfold tdlCap
  split <;> omega

variable {s : State} {u : FilterUnit}

theorem buildTdl_ok {k l : Nat} (h : buildTdl k l s = .ok u) :
    l = k + 1 ∧ ¬ (1 ≤ k ∧ maxDelay (s.piRange k) = 0) ∧ tdlCap (s.piRange k) ≤ s.params.capmax ∧
    u = .tdl (freshTdl (s.piRange k) (s.psRange l)) := by
  unfold buildTdl at h
  split_ifs at h with _ hl hr hc
  cases h
  exact ⟨by simpa using hl, hr, Nat.le_of_not_lt hc, rfl⟩

theorem buildFof_ok (h : buildFof s = .ok u) :
    ∃ ty, u = .fof (freshFof (s.psAt 0) (s.psAt 1) (s.psAt 2) (s.psAt 3) (s.psAt 4) ty) := by
  unfold buildFof at h
  split at h <;> cases h
  exact ⟨_, rfl⟩

theorem buildOpl_ok (h : buildOpl s = .ok u) :
    absLtOne (s.psAt 1) = true ∧ u = .opl (freshOpl (s.psAt 0) (s.psAt 1)) := by
  unfold buildOpl at h
  split_ifs at h with ha
  cases h
  exact ⟨by simpa using ha, rfl⟩

theorem buildFfc_ok (h : buildFfc s = .ok u) :
    1 ≤ s.piNat 0 ∧ absLtOne (s.psAt 2) = true ∧ 2 * s.piNat 0 ≤ s.params.capmax ∧
    u = .ffc (freshFfc (s.psAt 0) (s.psAt 1) (s.psAt 2) (s.piNat 0)) := by
  unfold buildFfc at h
  split_ifs at h with hm ha hc
  cases h
  exact ⟨Nat.le_of_not_lt hm, by simpa using ha, Nat.le_of_not_lt hc, rfl⟩

theorem buildFbc_ok (h : buildFbc s = .ok u) :
    1 ≤ s.piNat 0 ∧ absLtOne (s.psAt 1) = true ∧ s.piNat 0 ≤ s.params.capmax ∧
    u = .fbc (freshFbc (s.psAt 0) (s.psAt 1) (s.piNat 0)) := by
  unfold buildFbc at h
  split_ifs at h with hm ha hc
  cases h
  exact ⟨Nat.le_of_not_lt hm, by simpa using ha, Nat.le_of_not_lt hc, rfl⟩

theorem buildTvd_ok (h : buildTvd s = .ok u) :
    1 ≤ s.piNat 0 ∧ s.piNat 0 ≤ s.params.capmax ∧
    u = .tvd (freshTvd (s.psAt 0) (s.psAt 1) (s.piNat 0)) := by
  unfold buildTvd at h
  split_ifs at h with hm hc
  cases h
  exact ⟨Nat.le_of_not_lt hm, Nat.le_of_not_lt hc, rfl⟩

theorem buildDfc_ok (h : buildDfc s = .ok u) :
    1 ≤ s.piNat 0 ∧ 1 ≤ s.piNat 1 ∧ 2 * nextPow2 (s.piNat 0 + s.piNat 1 - 1) ≤ s.params.capmax ∧
    u = .dfc (freshDfc (s.piNat 0) (s.psRange (s.piNat 1))) := by
  unfold buildDfc at h
  split_ifs at h with _ hr hc
  cases h
  exact ⟨by omega, by omega, Nat.le_of_not_lt hc, rfl⟩

theorem buildOla_ok (h : buildOla s = .ok u) :
    1 ≤ s.piNat 0 ∧ 1 ≤ s.piNat 1 ∧
    2 * nextPow2 (s.piNat 0 + s.piNat 1 - 1) + (s.piNat 0 + s.piNat 1 - 1) ≤ s.params.capmax ∧
    u = .ola (freshOla (s.piNat 0) (s.psRange (s.piNat 1))) := by
  unfold buildOla at h
  split_ifs at h with _ hr hc
  cases h
  exact ⟨by omega, by omega, Nat.le_of_not_lt hc, rfl⟩

/-! ### A fresh unit is good -/

theorem freshTdl_ok {ds : List Nat} {cs : List Scalar} (hl : cs.length = ds.length + 1)
    (hr : ¬ (1 ≤ ds.length ∧ maxDelay ds = 0)) (hc : tdlCap ds ≤ p.capmax) : (freshTdl ds cs).Ok p :=
  ⟨rfl, hl, rfl, one_le_tdlCap hr, hc, fun _ => le_tdlCap_of_mem, bufferOk_nil _, one_le_tdlCap hr⟩

theorem freshDfc_ok {n : Nat} {h : List Scalar} (hn : 1 ≤ n) (hh : 1 ≤ h.length) : (freshDfc n h).Ok :=
  ⟨hn, hh, rfl, rfl, rfl, bufferOk_nil _, bufferOk_nil _⟩

theorem freshOla_ok {n : Nat} {h : List Scalar} (hn : 1 ≤ n) (hh : 1 ≤ h.length)
    (hc : 2 * nextPow2 (n + h.length - 1) + (n + h.length - 1) ≤ p.capmax) : (freshOla n h).Ok p := by
  have hsize : 0 < n + h.length - 1 := by omega
  exact ⟨freshDfc_ok hn hh, rfl, rfl, rfl, rfl, hc, bufferOk_nil _, ⟨0, hsize, by simp [freshOla]⟩, hn, hsize⟩

/-- A unit that `CFG.*` builds meets its invariant. -/
theorem Builds.ok {i : Instr} (h : Builds s i u) : u.ok s.params = true := by
  cases h with
  | tdl built =>
    obtain ⟨hl, hr, hc, rfl⟩ := buildTdl_ok built
    exact decide_eq_true (freshTdl_ok (by simpa using hl) (by simpa using hr) hc)
  | fof _ built =>
    obtain ⟨ty, rfl⟩ := buildFof_ok built
    rfl
  | opl _ built =>
    obtain ⟨ha, rfl⟩ := buildOpl_ok built
    exact decide_eq_true ha
  | ffc built =>
    obtain ⟨hm, ha, hc, rfl⟩ := buildFfc_ok built
    exact decide_eq_true ⟨hm, ha, hc, bufferOk_nil _, bufferOk_nil _, hm⟩
  | fbc built =>
    obtain ⟨hm, ha, hc, rfl⟩ := buildFbc_ok built
    exact decide_eq_true ⟨hm, ha, hc, bufferOk_nil _, hm⟩
  | tvd built =>
    obtain ⟨hm, hc, rfl⟩ := buildTvd_ok built
    exact decide_eq_true ⟨hm, hc, bufferOk_nil _, hm⟩
  | dfc _ built =>
    obtain ⟨hn, hh, hc, rfl⟩ := buildDfc_ok built
    exact decide_eq_true ⟨freshDfc_ok hn (by simpa using hh), by simpa [freshDfc] using hc⟩
  | ola _ built =>
    obtain ⟨hn, hh, hc, rfl⟩ := buildOla_ok built
    exact decide_eq_true (freshOla_ok hn (by simpa using hh) (by simpa using hc))

/-! ### A command on a unit keeps it good -/

variable (ar : Arith) (x : Scalar)

theorem advanceTdl_ok {u : Tdl} (h : u.Ok p) : (advanceTdl ar x u).1.Ok p := by
  obtain ⟨hk, hl, hcap, hpos, hmax, hdel, hbuf, hw⟩ := h
  exact ⟨hk, hl, hcap, hpos, hmax, hdel, bufferOk_setCell x hbuf hw, Nat.mod_lt _ hpos⟩

theorem advanceFfc_ok {u : Ffc} (h : u.Ok p) : (advanceFfc ar x u).1.Ok p := by
  obtain ⟨hm, ha, hmax, hin, hout, hw⟩ := h
  exact ⟨hm, ha, hmax, bufferOk_setCell x hin hw, bufferOk_setCell _ hout hw, Nat.mod_lt _ hm⟩

theorem advanceFbc_ok {u : Fbc} (h : u.Ok p) : (advanceFbc ar x u).1.Ok p := by
  obtain ⟨hm, ha, hmax, hout, hw⟩ := h
  exact ⟨hm, ha, hmax, bufferOk_setCell _ hout hw, Nat.mod_lt _ hm⟩

/-- A sample that TVD accepts goes into its buffer. -/
theorem advanceTvd_eq {d : RVal} {u : Tvd} {r : Tvd × Scalar} (h : advanceTvd ar x d u = .ok r) :
    delayInRange d u.maxDelay = true ∧
    r = ({ u with buf := setCell u.buf u.w x, w := (u.w + 1) % u.maxDelay },
      sadd ar (smul ar u.a x) (smul ar u.b (tvdInterp ar u x d))) := by
  unfold advanceTvd at h
  split_ifs at h with hd
  cases h
  exact ⟨by simpa using hd, rfl⟩

theorem advanceTvd_ok {d : RVal} {u : Tvd} {r : Tvd × Scalar} (h : u.Ok p) (hr : advanceTvd ar x d u = .ok r) :
    r.1.Ok p := by
  obtain ⟨hm, hmax, hbuf, hw⟩ := h
  obtain ⟨-, rfl⟩ := advanceTvd_eq ar x hr
  exact ⟨hm, hmax, bufferOk_setCell x hbuf hw, Nat.mod_lt _ hm⟩

theorem dfcInput_ok {u : Dfc} {i : Nat} (h : u.Ok) (hi : i < u.inputSize) :
    ({ u with input := setCell u.input i x } : Dfc).Ok := by
  obtain ⟨hn, hf, hh, hout, hfft, hin, ho⟩ := h
  exact ⟨hn, hf, hh, hout, hfft, bufferOk_setCell x hin hi, ho⟩

theorem runFilter_ok {u : Dfc} (h : u.Ok) : (runFilter ar u).Ok := by
  obtain ⟨hn, hf, hh, hout, hfft, hin, -⟩ := h
  exact ⟨hn, hf, hh, hout, hfft, hin, bufferOk_ofFn u.fftSize _⟩

/-- What holds between steps 1 and 2 of R181: the invariant but for `input_idx`, which may be `window_size`. -/
def OlaPushed (p : Params) (u : Ola) : Prop :=
  ({ u with inputIdx := 0 } : Ola).Ok p ∧ u.inputIdx ≤ u.windowSize

theorem olaPush_ok {u : Ola} (h : u.Ok p) : OlaPushed p (olaPush x u) := by
  obtain ⟨hd, hin, hf, ht, hout, hmax, hring, hw, hi, ho⟩ := h
  exact ⟨⟨dfcInput_ok x hd (hin ▸ hi), hin, hf, ht, hout, hmax, hring, hw, Nat.zero_lt_of_lt hi, ho⟩, hi⟩

/-- `write_idx` stays a multiple of `window_size` modulo `output_size` (R39 item 5). -/
theorem writeIdx_next {window size q : Nat} (hs : 1 ≤ size) :
    ∃ q' < size, (q * window % size + window) % size = q' * window % size := by
  refine ⟨(q + 1) % size, Nat.mod_lt _ hs, ?_⟩
  rw [Nat.mod_mul_mod, Nat.mod_add_mod, Nat.add_mul, Nat.one_mul]

theorem olaBlock_ok {u : Ola} (h : OlaPushed p u) : (olaBlock ar u).Ok p := by
  obtain ⟨⟨hd, hin, hf, ht, hout, hmax, hring, ⟨q, hq, hw⟩, hwindow, -⟩, -⟩ := h
  have hsize : 1 ≤ u.outputSize := Nat.zero_lt_of_lt hq
  have hread : u.writeIdx < u.outputSize := hw ▸ Nat.mod_lt _ hsize
  have hnext : ∃ q' < u.outputSize, (u.writeIdx + u.windowSize) % u.outputSize = q' * u.windowSize % u.outputSize :=
    hw ▸ writeIdx_next hsize
  exact ⟨runFilter_ok ar hd, hin, hf, ht, hout, hmax,
    bufferOk_ringAccumulate ar _ _ hsize (bufferOk_ringClear _ _ hsize hring), hnext, hwindow, hread⟩

theorem olaPop_ok {u : Ola} (h : u.Ok p) : (olaPop u).1.Ok p := by
  obtain ⟨hd, hin, hf, ht, hout, hmax, hring, hw, hi, ho⟩ := h
  exact ⟨hd, hin, hf, ht, hout, hmax, hring, hw, hi, Nat.mod_lt _ (Nat.zero_lt_of_lt ho)⟩

theorem advanceOla_ok {u : Ola} (h : u.Ok p) : (advanceOla ar x u).1.Ok p := by
  have hpush := olaPush_ok x h
  unfold advanceOla
  refine olaPop_ok ?_
  split
  · exact olaBlock_ok ar hpush
  · rename_i hfull
    obtain ⟨⟨hd, hin, hf, ht, hout, hmax, hring, hw, -, ho⟩, hi⟩ := hpush
    exact ⟨hd, hin, hf, ht, hout, hmax, hring, hw, Nat.lt_of_le_of_ne hi hfull, ho⟩

/-- A unit that `ADV.*` leaves meets its invariant if it met it before. -/
theorem Advances.ok {i : Instr} {v : FilterUnit} {y : Scalar} (h : Advances s i u v y)
    (hu : u.ok s.params = true) : v.ok s.params = true := by
  cases h with
  | tdl _ u => exact decide_eq_true (advanceTdl_ok _ _ (of_decide_eq_true hu))
  | fof _ u => rfl
  | opl _ u => exact hu
  | ffc _ u => exact decide_eq_true (advanceFfc_ok _ _ (of_decide_eq_true hu))
  | fbc _ u => exact decide_eq_true (advanceFbc_ok _ _ (of_decide_eq_true hu))
  | tvd _ answered => exact decide_eq_true (advanceTvd_ok _ _ (of_decide_eq_true hu) answered)
  | ola _ u => exact decide_eq_true (advanceOla_ok _ _ (of_decide_eq_true hu))

end

/-! ### The state -/

section
variable {s t : State}

/-- What a cell holds besides `z` is listed. -/
theorem Memory.mem_of_read {α : Type} {z v : α} {m : Memory α} {i : Nat} (h : Memory.read z m i = v) (hv : v ≠ z) :
    (i, v) ∈ m := by
  induction m with
  | nil => exact absurd h.symm hv
  | cons c rest ih =>
    obtain ⟨a, x⟩ := c
    rw [Memory.read_cons] at h
    split at h
    · rename_i ha
      rw [ha, h]
      exact List.mem_cons_self
    · exact List.mem_cons_of_mem _ (ih h)

theorem mem_slots_of_slotAt {slot : Nat} {u : FilterUnit} (h : s.slotAt slot = some u) : (slot, some u) ∈ s.slots :=
  Memory.mem_of_read h (by simp)

/-- The image of a fault is a packed word (R212). -/
theorem fstatImage_eq_packWord (c : FaultCause) (w : Word) :
    fstatImage c w = packWord c.code (slotField w) (opField w) := rfl

theorem FaultCause.code_range (c : FaultCause) : 1 ≤ c.code ∧ c.code ≤ 8 := by cases c <;> decide

theorem fstatCause_fstatImage (c : FaultCause) (w : Word) : fstatCause (fstatImage c w) = c.code :=
  have hc := c.code_range
  opField_packWord _ _ _ (by omega) (slotField_lt w) (Nat.lt_trans (opField_lt w) (by decide))

theorem fstatReserved_fstatImage (c : FaultCause) (w : Word) : fstatReserved (fstatImage c w) = 0 := by
  have hc := c.code_range
  have ho := opField_lt w
  have hs := slotField_lt w
  rw [fstatImage_eq_packWord, fstatReserved, bits, packWord_toNat _ _ _ (by omega) hs (by omega)]
  omega

theorem fstatOk_fstatImage (c : FaultCause) (w : Word) : FstatOk (fstatImage c w) := by
  obtain ⟨hpos, hle⟩ := c.code_range
  refine ⟨(fstatCause_fstatImage c w).symm ▸ hle, fstatReserved_fstatImage c w, fun h => ?_⟩
  rw [fstatCause_fstatImage] at h
  omega

theorem inv_raise (h : Inv s) (c : FaultCause) (w : Word) : Inv (raise c w s) := by
  obtain ⟨hp, -, hrest⟩ := h
  exact ⟨hp, fstatOk_fstatImage c w, hrest⟩

theorem inv_withPi (h : Inv s) {i : Nat} (v : Word) (hi : i < s.params.npi) : Inv (s.withPi i v) := by
  obtain ⟨hp, hf, hpi, hrest⟩ := h
  exact ⟨hp, hf, ⟨Memory.write_wf 0 s.pi i v hpi.1, Memory.write_within 0 s.pi i v hpi.2 hi⟩, hrest⟩

theorem inv_withPs (h : Inv s) {i : Nat} (v : Scalar) (hi : i < s.params.nps) : Inv (s.withPs i v) := by
  obtain ⟨hp, hf, hpi, hps, hrest⟩ := h
  exact ⟨hp, hf, hpi, bufferOk_setCell v hps hi, hrest⟩

theorem inv_withSlot (h : Inv s) {slot : Nat} {u : Option FilterUnit} (hs : slot < s.params.nslots)
    (hu : slotOk s.params u = true) : Inv (s.withSlot slot u) := by
  obtain ⟨hp, hf, hpi, hps, ⟨hwf, hin, hok⟩, hcp⟩ := h
  refine ⟨hp, hf, hpi, hps, ⟨Memory.write_wf none s.slots slot u hwf,
    Memory.write_within none s.slots slot u hin hs, fun c hc => ?_⟩, hcp⟩
  rcases Memory.mem_write none s.slots slot u hc with rfl | hc
  · exact hu
  · exact hok c hc

/-- The invariant does not look at `YOUT`. -/
theorem inv_withYout (h : Inv s) (y : Scalar) : Inv (s.withYout y) := h

theorem unit_ok_of_inv (h : Inv s) {slot : Nat} {u : FilterUnit} (hu : s.slotAt slot = some u) :
    u.ok s.params = true := by
  obtain ⟨-, -, -, -, ⟨-, -, hok⟩, -⟩ := h
  exact hok (slot, some u) (mem_slots_of_slotAt hu)

/-- Every command keeps the invariant. -/
theorem Effect.inv {i : Instr} (h : Effect i s t) (hs : Inv s) : Inv t := by
  cases h with
  | ignored => exact hs
  | faults c => exact inv_raise hs c _
  | stagesInteger _ _ inRange => exact inv_withPi hs _ inRange
  | stagesScalar _ _ inRange => exact inv_withPs hs _ inRange
  | configures _ ready _ built => exact inv_withSlot hs ready.2 built.ok
  | advances _ ready held advanced =>
    have hv := advanced.ok (unit_ok_of_inv hs held)
    exact inv_withYout (inv_withSlot (u := some _) hs ready.2 hv) _
  | writesInput _ ready held inRange =>
    obtain ⟨hok, hc⟩ := of_decide_eq_true (unit_ok_of_inv hs held)
    exact inv_withSlot hs ready.2 (decide_eq_true ⟨dfcInput_ok _ hok inRange, hc⟩)
  | runsFilter _ ready held =>
    obtain ⟨hok, hc⟩ := of_decide_eq_true (unit_ok_of_inv hs held)
    exact inv_withSlot hs ready.2 (decide_eq_true ⟨runFilter_ok _ hok, hc⟩)
  | readsOutput => exact inv_withYout hs _
  | frees _ ready => exact inv_withSlot hs ready.2 rfl

/-- Every host action keeps the invariant. -/
theorem perform_inv {a : HostAction} (h : perform a s = .next t) (hs : Inv s) : Inv t := by
  cases a with
  | command w =>
    rcases issue_next h with rfl | rfl | ⟨i, -, he⟩
    · exact hs
    · exact inv_raise hs _ w
    · exact he.inv hs
  | setIarg | setXin | setDin | getYout | getFstat | getIarg | getXin | getDin =>
    cases h
    exact hs

theorem cp_lt_of_nextAction {a : HostAction} (h : s.nextAction? = some a) : s.cp < s.program.length :=
  (List.getElem?_eq_some_iff.mp h).1

/-- `cp` may move where it was below the list's length. -/
theorem inv_advanceCp (h : Inv s) (hcp : s.cp < s.program.length) : Inv s.advanceCp := by
  obtain ⟨hp, hf, hpi, hps, hslots, -⟩ := h
  exact ⟨hp, hf, hpi, hps, hslots, hcp⟩

theorem step_inv (hs : Inv s) (h : step s = .next t) : Inv t := by
  rcases step_next h with rfl | ⟨a, u, ha, hu, rfl⟩
  · exact hs
  · obtain ⟨-, hl, hc⟩ := perform_hostPart hu
    exact inv_advanceCp (perform_inv hu hs) (by rw [hl, hc]; exact cp_lt_of_nextAction ha)

end

end Sys2Proof.Machine

open Sys2Proof.Machine

/-- Settles O52, by the cases of a step (`step_next`) and of a command (`Effect`). -/
theorem everyStepKeepsTheInvariant : Obligations.EveryStepKeepsTheInvariant := by
  unfold Obligations.EveryStepKeepsTheInvariant
  exact fun _ _ => step_inv

end

section
/-!
The values of `S` and `R` (spec/00_scope.md R7 to R9): the arithmetic, the buffers and every command on a unit stay
within them, and from these that every step keeps `ValuesOk`.
-/

namespace Sys2Proof.Machine

section
variable {ar : Arith}

/-! ### The arithmetic -/

theorem hasScalar_zero : hasScalar ar Scalar.zero = true := hasScalar_ofRat 0

section
variable {u v : Scalar}

theorem hasScalar_sadd (hu : hasScalar ar u = true) (hv : hasScalar ar v = true) :
    hasScalar ar (sadd ar u v) = true := hasScalar_scalarOp hu hv

theorem hasScalar_ssub (hu : hasScalar ar u = true) (hv : hasScalar ar v = true) :
    hasScalar ar (ssub ar u v) = true := hasScalar_scalarOp hu hv

theorem hasScalar_smul (hu : hasScalar ar u = true) (hv : hasScalar ar v = true) :
    hasScalar ar (smul ar u v) = true := hasScalar_scalarOp hu hv

end

theorem hasReal_ofRat (q : Rat) : hasReal ar (.num q) = true := by cases ar <;> rfl

theorem hasReal_asDelay {d : RVal} (h : hasReal ar d = true) : hasReal ar (asDelay d) = true := by
  cases d with
  | negZero => exact hasReal_ofRat 0
  | num | posInf | negInf | nan => exact h

theorem hasReal_delayFrac {d : RVal} (dLo : Nat) (h : hasReal ar d = true) :
    hasReal ar (delayFrac ar d dLo) = true := hasReal_realOp (hasReal_asDelay h) (hasReal_ofRat _)

/-- An entry of a list of values, or the zero beyond its end. -/
theorem hasScalar_getD {l : List Scalar} (h : ∀ v ∈ l, hasScalar ar v = true) (i : Nat) :
    hasScalar ar (l.getD i Scalar.zero) = true := by
  rw [List.getD_eq_getElem?_getD]
  cases hi : l[i]? with
  | none => exact hasScalar_zero
  | some v => exact h v (List.mem_of_getElem? hi)

/-- A sum that is accumulated from values of `S` is one. -/
theorem hasScalar_foldl {f : Scalar → Nat → Scalar} {a : Scalar} (ks : List Nat)
    (hf : ∀ b k, hasScalar ar b = true → hasScalar ar (f b k) = true) (ha : hasScalar ar a = true) :
    hasScalar ar (ks.foldl f a) = true :=
  List.foldlRecOn (motive := (hasScalar ar · = true)) ks f ha fun b hb k _ => hf b k hb

theorem hasScalar_circularConv {h input : List Scalar} (n k : Nat) (hh : ∀ v ∈ h, hasScalar ar v = true)
    (hin : ∀ v ∈ input, hasScalar ar v = true) : hasScalar ar (circularConv ar n h input k) = true :=
  hasScalar_foldl _ (fun _ _ hb => hasScalar_sadd hb (hasScalar_smul (hasScalar_getD hin _) (hasScalar_getD hh _)))
    hasScalar_zero

theorem hasScalar_dftconv {h input : List Scalar} (n k : Nat) (hh : ∀ v ∈ h, hasScalar ar v = true)
    (hin : ∀ v ∈ input, hasScalar ar v = true) : hasScalar ar (dftconv ar n h input k) = true := by
  cases ar with
  | exact => exact hasScalar_circularConv n k hh hin
  | real => exact hasScalar_real rfl
  | complex => rfl

/-! ### The buffers -/

/-- Every listed cell holds a value of `S`. -/
abbrev CellsOk (ar : Arith) (m : Memory Scalar) : Prop := ∀ c ∈ m, hasScalar ar c.2 = true

theorem cellsOk_nil : CellsOk ar [] := by simp

section
variable {m : Memory Scalar}

theorem hasScalar_read (h : CellsOk ar m) (i : Nat) : hasScalar ar (Memory.read Scalar.zero m i) = true := by
  by_cases hz : Memory.read Scalar.zero m i = Scalar.zero
  · rw [hz]
    exact hasScalar_zero
  · exact h _ (Memory.mem_of_read rfl hz)

theorem hasScalar_cell (h : CellsOk ar m) (i : Nat) : hasScalar ar (cell m i) = true := hasScalar_read h i

theorem hasScalar_of_mem_cells (h : CellsOk ar m) (n : Nat) : ∀ v ∈ cells m n, hasScalar ar v = true := by
  intro v hv
  obtain ⟨i, -, rfl⟩ := List.mem_map.mp hv
  exact hasScalar_cell h i

theorem cellsOk_setCell {v : Scalar} (h : CellsOk ar m) (i : Nat) (hv : hasScalar ar v = true) :
    CellsOk ar (setCell m i v) := by
  intro c hc
  rcases Memory.mem_write Scalar.zero m i v hc with rfl | hc
  · exact hv
  · exact h c hc

theorem cellsOk_ofFn {f : Nat → Scalar} (n : Nat) (hf : ∀ k, hasScalar ar (f k) = true) :
    CellsOk ar (Memory.ofFn Scalar.zero n f) := by
  intro c hc
  obtain ⟨k, -, rfl⟩ := List.mem_map.mp (List.mem_filter.mp hc).1
  exact hf k

theorem cellsOk_ringClear (h : CellsOk ar m) (size start count : Nat) : CellsOk ar (ringClear m size start count) :=
  List.foldlRecOn (motive := (CellsOk ar ·)) _ _ h fun _ hr _ _ => cellsOk_setCell hr _ hasScalar_zero

theorem cellsOk_ringAccumulate {f : Nat → Scalar} (h : CellsOk ar m) (size start : Nat)
    (hf : ∀ k, hasScalar ar (f k) = true) : CellsOk ar (ringAccumulate ar m size start f) :=
  List.foldlRecOn (motive := (CellsOk ar ·)) _ _ h fun _ hr k _ =>
    cellsOk_setCell hr _ (hasScalar_sadd (hasScalar_cell hr _) (hf k))

end

/-! ### The units -/

/-- Every value of `S` that the unit holds is one of the arithmetic `ar`. -/
def FilterUnit.ValuesIn (ar : Arith) (u : FilterUnit) : Prop := ∀ v ∈ u.scalars, hasScalar ar v = true

theorem slotValuesOk_some (u : FilterUnit) :
    slotValuesOk ar (some u) = true ↔ u.ValuesIn ar ∧ (ar = .complex → u.kind.realOnly = false) := by
  simp only [slotValuesOk, FilterUnit.ValuesIn, Bool.and_eq_true, List.all_eq_true, decide_eq_true_eq]

theorem valuesIn_tdl (u : Tdl) :
    (FilterUnit.tdl u).ValuesIn ar ↔ (∀ v ∈ u.coeffs, hasScalar ar v = true) ∧ CellsOk ar u.buf := by
  simp only [FilterUnit.ValuesIn, FilterUnit.scalars, List.forall_mem_append, List.forall_mem_map]

theorem valuesIn_fof (u : Fof) :
    (FilterUnit.fof u).ValuesIn ar ↔
      hasScalar ar u.dry = true ∧ hasScalar ar u.wet = true ∧ hasScalar ar u.a0 = true ∧ hasScalar ar u.a1 = true ∧
      hasScalar ar u.b1 = true ∧ hasScalar ar u.xPrev = true ∧ hasScalar ar u.yPrev = true := by
  simp [FilterUnit.ValuesIn, FilterUnit.scalars]

theorem valuesIn_opl (u : Opl) :
    (FilterUnit.opl u).ValuesIn ar ↔
      hasScalar ar u.alpha = true ∧ hasScalar ar u.beta = true ∧ hasScalar ar u.lp = true := by
  simp [FilterUnit.ValuesIn, FilterUnit.scalars]

theorem valuesIn_ffc (u : Ffc) :
    (FilterUnit.ffc u).ValuesIn ar ↔
      hasScalar ar u.b0 = true ∧ hasScalar ar u.b1 = true ∧ hasScalar ar u.a = true ∧
      CellsOk ar u.bufIn ∧ CellsOk ar u.bufOut := by
  simp only [FilterUnit.ValuesIn, FilterUnit.scalars, List.forall_mem_append, List.forall_mem_cons, List.not_mem_nil,
    List.forall_mem_map, and_assoc, false_imp_iff, implies_true, true_and]

theorem valuesIn_fbc (u : Fbc) :
    (FilterUnit.fbc u).ValuesIn ar ↔
      hasScalar ar u.alpha = true ∧ hasScalar ar u.beta = true ∧ hasScalar ar u.lp = true ∧ CellsOk ar u.bufOut := by
  simp only [FilterUnit.ValuesIn, FilterUnit.scalars, List.forall_mem_append, List.forall_mem_cons, List.not_mem_nil,
    List.forall_mem_map, and_assoc, false_imp_iff, implies_true, true_and]

theorem valuesIn_tvd (u : Tvd) :
    (FilterUnit.tvd u).ValuesIn ar ↔ hasScalar ar u.a = true ∧ hasScalar ar u.b = true ∧ CellsOk ar u.buf := by
  simp only [FilterUnit.ValuesIn, FilterUnit.scalars, List.forall_mem_append, List.forall_mem_cons, List.not_mem_nil,
    List.forall_mem_map, and_assoc, false_imp_iff, implies_true, true_and]

theorem valuesIn_dfc (u : Dfc) :
    (FilterUnit.dfc u).ValuesIn ar ↔
      (∀ v ∈ u.h, hasScalar ar v = true) ∧ CellsOk ar u.input ∧ CellsOk ar u.output := by
  simp only [FilterUnit.ValuesIn, FilterUnit.scalars, List.forall_mem_append, List.forall_mem_map, and_assoc]

/-- An OLA holds the values of its convolver and those of its ring. -/
theorem valuesIn_ola (u : Ola) :
    (FilterUnit.ola u).ValuesIn ar ↔ (FilterUnit.dfc u.dfc).ValuesIn ar ∧ CellsOk ar u.ring := by
  simp only [FilterUnit.ValuesIn, FilterUnit.scalars, List.forall_mem_append, List.forall_mem_map, and_assoc]

section
variable {x : Scalar} (hx : hasScalar ar x = true)
include hx

theorem advanceTdl_values {u : Tdl} (h : (FilterUnit.tdl u).ValuesIn ar) :
    (FilterUnit.tdl (advanceTdl ar x u).1).ValuesIn ar ∧ hasScalar ar (advanceTdl ar x u).2 = true := by
  obtain ⟨hc, hbuf⟩ := (valuesIn_tdl u).mp h
  have htap (b : Scalar) (i : Nat) (hb : hasScalar ar b = true) :
      hasScalar ar (sadd ar b (smul ar (u.coeffs.getD (i + 1) Scalar.zero)
        (cell u.buf (ringBack u.w (u.delays.getD i 0) u.cap)))) = true :=
    hasScalar_sadd hb (hasScalar_smul (hasScalar_getD hc _) (hasScalar_cell hbuf _))
  exact ⟨(valuesIn_tdl _).mpr ⟨hc, cellsOk_setCell hbuf u.w hx⟩,
    hasScalar_foldl _ htap (hasScalar_smul (hasScalar_getD hc 0) hx)⟩

theorem advanceFof_values {u : Fof} (h : (FilterUnit.fof u).ValuesIn ar) :
    (FilterUnit.fof (advanceFof ar x u).1).ValuesIn ar ∧ hasScalar ar (advanceFof ar x u).2 = true := by
  obtain ⟨hdry, hwet, ha0, ha1, hb1, hxp, hyp⟩ := (valuesIn_fof u).mp h
  have hinner : hasScalar ar (fofInner ar u x) = true :=
    hasScalar_ssub (hasScalar_sadd (hasScalar_smul ha0 hx) (hasScalar_smul ha1 hxp)) (hasScalar_smul hb1 hyp)
  have hy : hasScalar ar (advanceFof ar x u).2 = true :=
    hasScalar_sadd (hasScalar_smul hdry hx) (hasScalar_smul hwet hinner)
  exact ⟨(valuesIn_fof _).mpr ⟨hdry, hwet, ha0, ha1, hb1, hx, hy⟩, hy⟩

theorem hasScalar_onePole {alpha beta lp : Scalar} (ha : hasScalar ar alpha = true) (hb : hasScalar ar beta = true)
    (hl : hasScalar ar lp = true) : hasScalar ar (onePole ar alpha beta x lp) = true :=
  hasScalar_sadd (hasScalar_smul ha hx) (hasScalar_smul hb hl)

theorem advanceOpl_values {u : Opl} (h : (FilterUnit.opl u).ValuesIn ar) :
    (FilterUnit.opl (advanceOpl ar x u).1).ValuesIn ar ∧ hasScalar ar (advanceOpl ar x u).2 = true := by
  obtain ⟨ha, hb, hl⟩ := (valuesIn_opl u).mp h
  have hy : hasScalar ar (advanceOpl ar x u).2 = true := hasScalar_onePole hx ha hb hl
  exact ⟨(valuesIn_opl _).mpr ⟨ha, hb, hy⟩, hy⟩

theorem advanceFfc_values {u : Ffc} (h : (FilterUnit.ffc u).ValuesIn ar) :
    (FilterUnit.ffc (advanceFfc ar x u).1).ValuesIn ar ∧ hasScalar ar (advanceFfc ar x u).2 = true := by
  obtain ⟨hb0, hb1, ha, hin, hout⟩ := (valuesIn_ffc u).mp h
  have hy : hasScalar ar (advanceFfc ar x u).2 = true :=
    hasScalar_sadd (hasScalar_sadd (hasScalar_smul hb0 hx) (hasScalar_smul hb1 (hasScalar_cell hin u.w)))
      (hasScalar_smul ha (hasScalar_cell hout u.w))
  exact ⟨(valuesIn_ffc _).mpr ⟨hb0, hb1, ha, cellsOk_setCell hin u.w hx, cellsOk_setCell hout u.w hy⟩, hy⟩

theorem advanceFbc_values {u : Fbc} (h : (FilterUnit.fbc u).ValuesIn ar) :
    (FilterUnit.fbc (advanceFbc ar x u).1).ValuesIn ar ∧ hasScalar ar (advanceFbc ar x u).2 = true := by
  obtain ⟨ha, hb, hl, hout⟩ := (valuesIn_fbc u).mp h
  have ht : hasScalar ar (advanceFbc ar x u).1.lp = true := hasScalar_onePole (hasScalar_cell hout u.w) ha hb hl
  have hy : hasScalar ar (advanceFbc ar x u).2 = true := hasScalar_sadd hx ht
  exact ⟨(valuesIn_fbc _).mpr ⟨ha, hb, ht, cellsOk_setCell hout u.w hy⟩, hy⟩

theorem hasScalar_tvdInterp {u : Tvd} {d : RVal} (hbuf : CellsOk ar u.buf) (hd : hasReal ar d = true) :
    hasScalar ar (tvdInterp ar u x d) = true := by
  have holder := hasScalar_cell hbuf (ringBack u.w (delayFloor d + 1) u.maxDelay)
  have hfrac : hasScalar ar (embed (delayFrac ar d (delayFloor d))) = true :=
    hasScalar_real (hasReal_delayFrac _ hd)
  unfold tvdInterp
  refine hasScalar_sadd holder (hasScalar_smul hfrac (hasScalar_ssub ?_ holder))
  split
  · exact hx
  · exact hasScalar_cell hbuf _

theorem advanceTvd_values {u : Tvd} {d : RVal} {r : Tvd × Scalar} (h : (FilterUnit.tvd u).ValuesIn ar)
    (hd : hasReal ar d = true) (hr : advanceTvd ar x d u = .ok r) :
    (FilterUnit.tvd r.1).ValuesIn ar ∧ hasScalar ar r.2 = true := by
  obtain ⟨ha, hb, hbuf⟩ := (valuesIn_tvd u).mp h
  obtain ⟨-, rfl⟩ := advanceTvd_eq ar x hr
  exact ⟨(valuesIn_tvd _).mpr ⟨ha, hb, cellsOk_setCell hbuf u.w hx⟩,
    hasScalar_sadd (hasScalar_smul ha hx) (hasScalar_smul hb (hasScalar_tvdInterp hx hbuf hd))⟩

theorem dfcInput_values {u : Dfc} (h : (FilterUnit.dfc u).ValuesIn ar) (i : Nat) :
    (FilterUnit.dfc { u with input := setCell u.input i x }).ValuesIn ar := by
  obtain ⟨hh, hin, hout⟩ := (valuesIn_dfc u).mp h
  exact (valuesIn_dfc _).mpr ⟨hh, cellsOk_setCell hin i hx, hout⟩

omit hx in
theorem runFilter_values {u : Dfc} (h : (FilterUnit.dfc u).ValuesIn ar) :
    (FilterUnit.dfc (runFilter ar u)).ValuesIn ar := by
  obtain ⟨hh, hin, -⟩ := (valuesIn_dfc u).mp h
  exact (valuesIn_dfc _).mpr ⟨hh, hin,
    cellsOk_ofFn _ fun k => hasScalar_dftconv _ k hh (hasScalar_of_mem_cells hin _)⟩

omit hx in
theorem olaBlock_values {u : Ola} (h : (FilterUnit.ola u).ValuesIn ar) :
    (FilterUnit.ola (olaBlock ar u)).ValuesIn ar := by
  obtain ⟨hdfc, hring⟩ := (valuesIn_ola u).mp h
  have hrun := runFilter_values hdfc
  obtain ⟨-, -, hout⟩ := (valuesIn_dfc _).mp hrun
  exact (valuesIn_ola _).mpr ⟨hrun,
    cellsOk_ringAccumulate (cellsOk_ringClear hring _ _ _) _ _ (hasScalar_cell hout)⟩

theorem advanceOla_values {u : Ola} (h : (FilterUnit.ola u).ValuesIn ar) :
    (FilterUnit.ola (advanceOla ar x u).1).ValuesIn ar ∧ hasScalar ar (advanceOla ar x u).2 = true := by
  obtain ⟨hdfc, hring⟩ := (valuesIn_ola u).mp h
  have hpush : (FilterUnit.ola (olaPush x u)).ValuesIn ar :=
    (valuesIn_ola _).mpr ⟨dfcInput_values hx hdfc u.inputIdx, hring⟩
  have hpop {v : Ola} (hv : (FilterUnit.ola v).ValuesIn ar) :
      (FilterUnit.ola (olaPop v).1).ValuesIn ar ∧ hasScalar ar (olaPop v).2 = true :=
    ⟨hv, hasScalar_cell ((valuesIn_ola v).mp hv).2 v.outputIdx⟩
  unfold advanceOla
  refine hpop ?_
  split
  · exact olaBlock_values hpush
  · exact hpush

end

end

/-! ### The state -/

section
variable {s t : State}

/-- `ADV.*` answers values of `S` and leaves a unit of the same kind that holds such values. -/
theorem Advances.values {i : Instr} {u v : FilterUnit} {y : Scalar} (h : Advances s i u v y)
    (hx : hasScalar s.params.arith s.xin = true) (hd : hasReal s.params.arith s.din = true)
    (hu : u.ValuesIn s.params.arith) :
    (v.ValuesIn s.params.arith ∧ hasScalar s.params.arith y = true) ∧ v.kind = u.kind := by
  cases h with
  | tdl => exact ⟨advanceTdl_values hx hu, rfl⟩
  | fof => exact ⟨advanceFof_values hx hu, rfl⟩
  | opl => exact ⟨advanceOpl_values hx hu, rfl⟩
  | ffc => exact ⟨advanceFfc_values hx hu, rfl⟩
  | fbc => exact ⟨advanceFbc_values hx hu, rfl⟩
  | tvd _ answered => exact ⟨advanceTvd_values hx hu hd answered, rfl⟩
  | ola => exact ⟨advanceOla_values hx hu, rfl⟩

/-- `CFG.*` builds a unit of staged values, of a kind for a real `S` only where `S` is real. -/
theorem Builds.valuesOk {i : Instr} {u : FilterUnit} (h : Builds s i u) (hps : CellsOk s.params.arith s.ps) :
    slotValuesOk s.params.arith (some u) = true := by
  have hat (k : Nat) : hasScalar s.params.arith (s.psAt k) = true := hasScalar_read hps k
  have hrange (n : Nat) : ∀ v ∈ s.psRange n, hasScalar s.params.arith v = true := fun v hv => by
    obtain ⟨k, -, rfl⟩ := List.mem_map.mp hv
    exact hat k
  rw [slotValuesOk_some]
  cases h with
  | tdl built =>
    obtain ⟨-, -, -, rfl⟩ := buildTdl_ok built
    exact ⟨(valuesIn_tdl _).mpr ⟨hrange _, cellsOk_nil⟩, fun _ => rfl⟩
  | fof real built =>
    obtain ⟨ty, rfl⟩ := buildFof_ok built
    exact ⟨(valuesIn_fof _).mpr ⟨hat 0, hat 1, hat 2, hat 3, hat 4, hasScalar_zero, hasScalar_zero⟩,
      fun hc => absurd hc real⟩
  | opl real built =>
    obtain ⟨-, rfl⟩ := buildOpl_ok built
    exact ⟨(valuesIn_opl _).mpr ⟨hat 0, hat 1, hasScalar_zero⟩, fun hc => absurd hc real⟩
  | ffc built =>
    obtain ⟨-, -, -, rfl⟩ := buildFfc_ok built
    exact ⟨(valuesIn_ffc _).mpr ⟨hat 0, hat 1, hat 2, cellsOk_nil, cellsOk_nil⟩, fun _ => rfl⟩
  | fbc built =>
    obtain ⟨-, -, -, rfl⟩ := buildFbc_ok built
    exact ⟨(valuesIn_fbc _).mpr ⟨hat 0, hat 1, hasScalar_zero, cellsOk_nil⟩, fun _ => rfl⟩
  | tvd built =>
    obtain ⟨-, -, rfl⟩ := buildTvd_ok built
    exact ⟨(valuesIn_tvd _).mpr ⟨hat 0, hat 1, cellsOk_nil⟩, fun _ => rfl⟩
  | dfc real built =>
    obtain ⟨-, -, -, rfl⟩ := buildDfc_ok built
    exact ⟨(valuesIn_dfc _).mpr ⟨hrange _, cellsOk_nil, cellsOk_nil⟩, fun hc => absurd hc real⟩
  | ola real built =>
    obtain ⟨-, -, -, rfl⟩ := buildOla_ok built
    exact ⟨(valuesIn_ola _).mpr ⟨(valuesIn_dfc _).mpr ⟨hrange _, cellsOk_nil, cellsOk_nil⟩, cellsOk_nil⟩,
      fun hc => absurd hc real⟩

theorem valuesOk_withXin (h : ValuesOk s) {v : Scalar} (hv : hasScalar s.params.arith v = true) :
    ValuesOk (s.withXin v) := by
  obtain ⟨-, hrest⟩ := h
  exact ⟨hv, hrest⟩

theorem valuesOk_withDin (h : ValuesOk s) {d : RVal} (hd : hasReal s.params.arith d = true) :
    ValuesOk (s.withDin d) := by
  obtain ⟨hx, -, hrest⟩ := h
  exact ⟨hx, hd, hrest⟩

theorem valuesOk_withYout (h : ValuesOk s) {y : Scalar} (hy : hasScalar s.params.arith y = true) :
    ValuesOk (s.withYout y) := by
  obtain ⟨hx, hd, -, hrest⟩ := h
  exact ⟨hx, hd, hy, hrest⟩

theorem valuesOk_withPs (h : ValuesOk s) (i : Nat) {v : Scalar} (hv : hasScalar s.params.arith v = true) :
    ValuesOk (s.withPs i v) := by
  obtain ⟨hx, hd, hy, hps, hrest⟩ := h
  exact ⟨hx, hd, hy, cellsOk_setCell hps i hv, hrest⟩

theorem valuesOk_withSlot (h : ValuesOk s) (slot : Nat) {u : Option FilterUnit}
    (hu : slotValuesOk s.params.arith u = true) : ValuesOk (s.withSlot slot u) := by
  obtain ⟨hx, hd, hy, hps, hslots, hrest⟩ := h
  refine ⟨hx, hd, hy, hps, fun c hc => ?_, hrest⟩
  rcases Memory.mem_write none s.slots slot u hc with rfl | hc
  · exact hu
  · exact hslots c hc

theorem valuesOk_withOutput (h : ValuesOk s) : ValuesOk (s.withOutput s.yout) := by
  obtain ⟨hx, hd, hy, hps, hslots, hprog, hout⟩ := h
  refine ⟨hx, hd, hy, hps, hslots, hprog, fun v hv => ?_⟩
  rcases List.mem_append.mp hv with hv | hv
  · exact hout v hv
  · exact List.mem_singleton.mp hv ▸ hy

theorem unit_values_of_valuesOk (h : ValuesOk s) {slot : Nat} {u : FilterUnit} (hu : s.slotAt slot = some u) :
    u.ValuesIn s.params.arith ∧ (s.params.arith = .complex → u.kind.realOnly = false) := by
  obtain ⟨-, -, -, -, hslots, -, -⟩ := h
  exact (slotValuesOk_some u).mp (hslots (slot, some u) (mem_slots_of_slotAt hu))

/-- Every command keeps the values. -/
theorem Effect.valuesOk {i : Instr} (h : Effect i s t) (hs : ValuesOk s) : ValuesOk t := by
  have ⟨hx, hd, _, hps, _, _, _⟩ := hs
  cases h with
  | ignored | faults | stagesInteger => exact hs
  | stagesScalar => exact valuesOk_withPs hs _ hx
  | configures _ _ _ built => exact valuesOk_withSlot hs _ (built.valuesOk hps)
  | advances _ _ held advanced =>
    obtain ⟨hu, hreal⟩ := unit_values_of_valuesOk hs held
    obtain ⟨⟨hv, hy⟩, hkind⟩ := advanced.values hx hd hu
    exact valuesOk_withYout (valuesOk_withSlot hs _ ((slotValuesOk_some _).mpr ⟨hv, hkind ▸ hreal⟩)) hy
  | writesInput _ _ held =>
    obtain ⟨hu, hreal⟩ := unit_values_of_valuesOk hs held
    exact valuesOk_withSlot hs _ ((slotValuesOk_some _).mpr ⟨dfcInput_values hx hu _, hreal⟩)
  | runsFilter _ _ held =>
    obtain ⟨hu, hreal⟩ := unit_values_of_valuesOk hs held
    exact valuesOk_withSlot hs _ ((slotValuesOk_some _).mpr ⟨runFilter_values hu, hreal⟩)
  | readsOutput _ _ held =>
    obtain ⟨hu, -⟩ := unit_values_of_valuesOk hs held
    obtain ⟨-, -, hout⟩ := (valuesIn_dfc _).mp hu
    exact valuesOk_withYout hs (hasScalar_cell hout _)
  | frees => exact valuesOk_withSlot hs _ rfl

/-- Every action of the host's list keeps the values, for a `SET` action of the list writes one of them. -/
theorem perform_valuesOk {a : HostAction} (ha : a.valuesOk s.params.arith = true) (h : perform a s = .next t)
    (hs : ValuesOk s) : ValuesOk t := by
  cases a with
  | command w =>
    rcases issue_next h with rfl | rfl | ⟨i, -, he⟩
    · exact hs
    · exact hs
    · exact he.valuesOk hs
  | setXin v => cases h; exact valuesOk_withXin hs ha
  | setDin d => cases h; exact valuesOk_withDin hs ha
  | getYout => cases h; exact valuesOk_withOutput hs
  | setIarg | getFstat | getIarg | getXin | getDin => cases h; exact hs

theorem step_valuesOk (hs : ValuesOk s) (h : step s = .next t) : ValuesOk t := by
  rcases step_next h with rfl | ⟨a, u, ha, hu, rfl⟩
  · exact hs
  · have ⟨_, _, _, _, _, hprog, _⟩ := hs
    have hu : ValuesOk u := perform_valuesOk (hprog a (List.mem_of_getElem? ha)) hu hs
    exact hu

/-! ### Reset -/

theorem fstatOk_zero : FstatOk 0 := by decide

theorem inv_resetWith {p : Params} (hp : p.Ok) (l : List HostAction) : Inv (State.resetWith p l) :=
  ⟨hp, fstatOk_zero, ⟨Memory.nil_wf 0, by simp⟩, bufferOk_nil _, ⟨Memory.nil_wf none, by simp, by simp⟩, by simp⟩

theorem valuesOk_resetWith {p : Params} {l : List HostAction} (hl : ∀ a ∈ l, a.valuesOk p.arith = true) :
    ValuesOk (State.resetWith p l) :=
  ⟨hasScalar_zero, hasReal_ofRat 0, hasScalar_zero, by simp, by simp, hl, by simp⟩

theorem testInstance_ok : Config.testInstance.Ok := by decide

end

end Sys2Proof.Machine

open Sys2Proof.Machine

/-- Settles O53, by the cases of a step (`step_next`) and of a command (`Effect`). -/
theorem everyStepKeepsValuesOfTheInstance : Obligations.EveryStepKeepsValuesOfTheInstance := by
  unfold Obligations.EveryStepKeepsValuesOfTheInstance
  exact fun _ _ => step_valuesOk

/-- Settles O54: reset leaves zeros and empty memories. -/
theorem resetMeetsTheInvariant : Obligations.ResetMeetsTheInvariant := by
  unfold Obligations.ResetMeetsTheInvariant
  exact ⟨inv_resetWith testInstance_ok [], valuesOk_resetWith (by simp),
    fun _ l => ⟨fun hp => inv_resetWith hp l, valuesOk_resetWith⟩⟩

end

section
/-!
The stability test (spec/00_scope.md R12) and the exact convolution (R13, spec/45_dft_convolver.md R165): the circular
convolution of the buffers is the linear convolution of the filter and the samples, as the transform is long enough.
-/

namespace Sys2Proof.Machine

/-! ### The stability test -/

/-- The modulus of a complex with rational parts is below 1 exactly when its square is. -/
theorem norm_lt_one_iff (x y : Rat) : ‖(⟨(x : ℝ), (y : ℝ)⟩ : ℂ)‖ < 1 ↔ x * x + y * y < 1 := by
  rw [← sq_lt_one_iff₀ (norm_nonneg _), Complex.sq_norm, Complex.normSq_mk]
  exact_mod_cast Iff.rfl

/-- An infinity and a NaN stand for no number. -/
theorem finite?_eq_none {r : RVal} (h : (∃ n, r = .nan n) ∨ r = .posInf ∨ r = .negInf) : finite? r = none := by
  rcases h with ⟨n, rfl⟩ | rfl | rfl <;> rfl

theorem absLtOne_of_not_finite {v : Scalar} (h : finite? v.re = none ∨ finite? v.im = none) :
    absLtOne v = false := by
  unfold absLtOne
  rcases h with h | h
  · rw [h]
  · rw [h]
    cases finite? v.re <;> rfl

theorem absLtOne_real (q : Rat) : absLtOne (.real (.num q)) = true ↔ |q| < 1 := by
  rw [absLtOne_num, mul_zero, add_zero, ← sq, sq_lt_one_iff_abs_lt_one]

/-! ### Sums in exact arithmetic -/

/-- A sum that is accumulated in exact arithmetic is the sum of the rationals. -/
theorem foldl_sadd_exact (f : Nat → Rat) (n : Nat) :
    (List.range n).foldl (fun acc j => sadd .exact acc (.ofRat (f j))) Scalar.zero =
      .ofRat (∑ j ∈ Finset.range n, f j) := by
  induction n with
  | zero => rfl
  | succ n ih => rw [List.range_succ, List.foldl_append, ih, Finset.sum_range_succ]; rfl

theorem getD_map_ofRat (l : List Rat) (i : Nat) : (l.map Scalar.ofRat).getD i Scalar.zero = .ofRat (l.getD i 0) :=
  List.getD_map l 0 Scalar.ofRat

/-- The exact result (R165) of rational cells is the circular sum of the rationals. -/
theorem circularConv_exact {n k : Nat} {h : List Rat} {input : List Scalar} {a : Nat → Rat}
    (hin : ∀ j < n, input.getD j Scalar.zero = .ofRat (a j)) :
    circularConv .exact n (h.map Scalar.ofRat) input k =
      .ofRat (∑ j ∈ Finset.range n, a j * h.getD (ringBack k j n) 0) := by
  rw [← foldl_sadd_exact]
  refine List.foldl_ext _ _ _ fun acc j hj => ?_
  rw [hin j (List.mem_range.mp hj), getD_map_ofRat]
  rfl

/-! ### The circular and the linear convolution -/

/-- `convRat` as a sum over a range. -/
theorem convRat_eq_sum (h x : List Rat) (k : Nat) :
    convRat h x k = ∑ i ∈ Finset.range h.length, h.getD i 0 * pastRat x k i := rfl

section
variable {n k i : Nat}

/-- For indices below `n` the ring index is the difference, or the difference and one turn. -/
theorem ringBack_of_lt (hk : k < n) (hi : i < n) : ringBack k i n = if i ≤ k then k - i else k + n - i := by
  unfold ringBack
  split
  · rw [Int.emod_eq_of_lt] <;> omega
  · rw [← Int.add_emod_right, Int.emod_eq_of_lt] <;> omega

theorem ringBack_ringBack (hk : k < n) (hi : i < n) : ringBack k (ringBack k i n) n = i := by
  have hlt := ringBack_lt k i n (by omega)
  rw [ringBack_of_lt hk hlt, ringBack_of_lt hk hi]
  split <;> split <;> omega

/-- Where filter and samples together fit in `n` cells, what wraps around meets zeros. -/
theorem getD_ringBack_eq_pastRat {x : List Rat} {f : Nat} (hfit : x.length + f ≤ n + 1) (hk : k < n) (hi : i < f)
    (hn : f ≤ n) : x.getD (ringBack k i n) 0 = pastRat x k i := by
  rw [ringBack_of_lt hk (Nat.lt_of_lt_of_le hi hn), pastRat]
  split
  · rfl
  · exact List.getD_eq_default x 0 (by omega)

/-- The circular convolution of length `n` is the linear one where that fits in `n` cells (R165). -/
theorem circular_eq_linear {h x : List Rat} (hfit : x.length + h.length ≤ n + 1) (hx : 1 ≤ x.length) (hk : k < n) :
    ∑ j ∈ Finset.range n, x.getD j 0 * h.getD (ringBack k j n) 0 = convRat h x k := by
  have hn : h.length ≤ n := by omega
  calc ∑ j ∈ Finset.range n, x.getD j 0 * h.getD (ringBack k j n) 0
      = ∑ i ∈ Finset.range n, h.getD i 0 * x.getD (ringBack k i n) 0 := by
        have hmaps : ∀ j ∈ Finset.range n, ringBack k j n ∈ Finset.range n := fun j _ =>
          Finset.mem_range.mpr (ringBack_lt k j n (by omega))
        have hinv : ∀ j ∈ Finset.range n, ringBack k (ringBack k j n) n = j := fun j hj =>
          ringBack_ringBack hk (Finset.mem_range.mp hj)
        refine Finset.sum_nbij' (ringBack k · n) (ringBack k · n) hmaps hmaps hinv hinv fun j hj => ?_
        rw [hinv j hj, mul_comm]
    _ = ∑ i ∈ Finset.range h.length, h.getD i 0 * x.getD (ringBack k i n) 0 := by
        refine (Finset.sum_subset (Finset.range_mono hn) fun i _ hi => ?_).symm
        rw [List.getD_eq_default h 0 (by simpa using hi), zero_mul]
    _ = convRat h x k := by
        rw [convRat_eq_sum]
        refine Finset.sum_congr rfl fun i hi => ?_
        rw [getD_ringBack_eq_pastRat hfit hk (Finset.mem_range.mp hi) hn]

/-- The linear convolution is zero from its own length up. -/
theorem convRat_eq_zero {h x : List Rat} (hk : x.length + h.length ≤ k + 1) : convRat h x k = 0 := by
  rw [convRat_eq_sum]
  refine Finset.sum_eq_zero fun i hi => ?_
  have hi := Finset.mem_range.mp hi
  rw [pastRat, if_pos (by omega), List.getD_eq_default x 0 (by omega), mul_zero]

end

/-! ### The convolver -/

/-- What `DFC.RUN` does to the convolver in its slot (R162). -/
theorem exec_dfcRun {s : State} {slot : Nat} {u : Dfc} (ready : Ready s slot) (hreal : s.params.arith ≠ .complex)
    (held : s.slotAt slot = some (.dfc u)) :
    exec (.dfcRun slot) s = .next (s.withSlot slot (some (.dfc (runFilter s.params.arith u)))) :=
  (realScalarOnly_of_real s slot .dfc _ hreal).trans
    (command_of_ok s _ _ ready.1 (withUnit_of_unit s slot _ _ ready.2 (by rw [held]; rfl)))

theorem cell_runFilter (ar : Arith) (u : Dfc) {k : Nat} (hk : k < u.fftSize) :
    cell (runFilter ar u).output k = dftconv ar u.fftSize u.h (cells u.input u.fftSize) k :=
  (Memory.read_ofFn Scalar.zero _ _ k).trans (if_pos hk)

theorem getD_cells (m : Memory Scalar) {n i : Nat} (hi : i < n) : (cells m n).getD i Scalar.zero = cell m i := by
  simp [cells, hi]

/-- A convolver whose transform is long enough answers the linear convolution in every cell (R165). -/
theorem cell_runFilter_exact {u : Dfc} {h x : List Rat} {k : Nat} (hh : u.h = h.map Scalar.ofRat)
    (hin : ∀ a, cell u.input a = .ofRat (x.getD a 0)) (hfit : x.length + h.length ≤ u.fftSize + 1)
    (hx : 1 ≤ x.length) (hk : k < u.fftSize) :
    cell (runFilter .exact u).output k = .ofRat (convRat h x k) := by
  rw [cell_runFilter .exact u hk, hh, ← circular_eq_linear hfit hx hk]
  exact circularConv_exact fun j hj => (getD_cells u.input hj).trans (hin j)

end Sys2Proof.Machine

open Sys2Proof.Machine

/-- Settles O25: the test compares the square of the modulus, and fails where a part stands for no number. -/
theorem stabilityTestIsAbsBelowOne : Obligations.StabilityTestIsAbsBelowOne := by
  unfold Obligations.StabilityTestIsAbsBelowOne
  refine ⟨absLtOne_real, fun x y => (absLtOne_num x y).trans (norm_lt_one_iff x y).symm, fun v r hr hbad => ?_⟩
  have hnone := finite?_eq_none hbad
  rcases hr with rfl | rfl
  · exact absLtOne_of_not_finite (.inl hnone)
  · exact absLtOne_of_not_finite (.inr hnone)

/-- Settles O42: the circular convolution of the transform's length is the linear one, as that fits. -/
theorem exactRunIsTheLinearConvolution : Obligations.ExactRunIsTheLinearConvolution := by
  unfold Obligations.ExactRunIsTheLinearConvolution
  intro s slot u h x ready hexact held hsize hlen hh hout hfft hx hin
  have hcell (k : Nat) (hk : k < u.fftSize) : cell (runFilter .exact u).output k = .ofRat (convRat h x k) :=
    cell_runFilter_exact hh hin (by omega) (by omega) hk
  refine ⟨_, _, exec_dfcRun ready (by simp [hexact]) held, State.withSlot_slotAt_same s slot _, ?_, ?_⟩ <;>
    rw [hexact]
  · exact fun k hk => hcell k (by omega)
  · intro k hk hk'
    rw [hcell k hk', convRat_eq_zero (by omega)]

end

section
/-!
What every command and every step leaves unchanged (spec/10_state.md R20 to R29, spec/40_staging_and_slots.md R94, R95),
each part from the cases of `Effect`; and the plain steps of the machine (R75).
-/

namespace Sys2Proof.Machine

section
variable {i : Instr} {s t : State}

/-! ### The frame of a command -/

theorem raise_faulted (c : FaultCause) (w : Word) (s : State) : (raise c w s).faulted = true := by
  have hc := c.code_range
  rw [State.faulted, raise_fstat, fstatCause_fstatImage, bne_iff_ne]
  omega

theorem Effect.operands (h : Effect i s t) : t.iarg = s.iarg ∧ t.xin = s.xin ∧ t.din = s.din := by
  cases h <;> exact ⟨rfl, rfl, rfl⟩

/-- What the host has read, besides `Effect.hostPart`. -/
theorem Effect.hostReads (h : Effect i s t) :
    t.statusReads = s.statusReads ∧ t.operandReads = s.operandReads := by
  cases h <;> exact ⟨rfl, rfl⟩

theorem Effect.piAt_other (h : Effect i s t) {a : Nat} (ha : i ≠ .ldi a) : t.piAt a = s.piAt a := by
  cases h with
  | @stagesInteger idx instr =>
    have hne : a ≠ idx := fun e => ha (e ▸ instr)
    rw [State.withPi_piAt, if_neg hne]
  | ignored | faults | stagesScalar | configures | advances | writesInput | runsFilter | readsOutput | frees => rfl

theorem Effect.psAt_other (h : Effect i s t) {a : Nat} (ha : i ≠ .lds a) : t.psAt a = s.psAt a := by
  cases h with
  | @stagesScalar idx instr =>
    have hne : a ≠ idx := fun e => ha (e ▸ instr)
    rw [State.withPs_psAt, if_neg hne]
  | ignored | faults | stagesInteger | configures | advances | writesInput | runsFilter | readsOutput | frees => rfl

/-- A command changes no slot but the one it names. -/
theorem Effect.slotAt_other (h : Effect i s t) {n : Nat} (hn : i.slot? ≠ some n) : t.slotAt n = s.slotAt n := by
  have written {slot : Nat} (u : Option FilterUnit) (names : i.slot? = some slot) :
      (s.withSlot slot u).slotAt n = s.slotAt n :=
    State.withSlot_slotAt_other s u fun e => hn (e ▸ names)
  cases h with
  | ignored | faults | stagesInteger | stagesScalar | readsOutput => rfl
  | configures names => exact written _ names
  | advances names => exact (State.withYout_slotAt _ _ n).trans (written _ names)
  | writesInput instr => exact written _ (instr ▸ rfl)
  | runsFilter instr => exact written _ (instr ▸ rfl)
  | frees instr => exact written _ (instr ▸ rfl)

theorem Advances.writesYout {u v : FilterUnit} {y : Scalar} (h : Advances s i u v y) :
    writesYout i.opcode = true := by
  cases h <;> rfl

theorem Effect.yout_of_not_writesYout (h : Effect i s t) (hw : writesYout i.opcode = false) : t.yout = s.yout := by
  cases h with
  | ignored | faults | stagesInteger | stagesScalar | configures | writesInput | runsFilter | frees => rfl
  | advances _ _ _ advanced => exact absurd (advanced.writesYout.symm.trans hw) (by decide)
  | readsOutput instr => subst instr; cases hw

/-- Only a fault writes `FSTAT`, and it leaves the block FAULTED. -/
theorem Effect.fstat_of_running (h : Effect i s t) (hf : t.faulted = false) : t.fstat = s.fstat := by
  cases h with
  | faults c => rw [raise_faulted] at hf; cases hf
  | ignored | stagesInteger | stagesScalar | configures | advances | writesInput | runsFilter | readsOutput
  | frees => rfl

/-! ### The configuration fields of a unit -/

theorem advanceOla_configPart (ar : Arith) (x : Scalar) (u : Ola) :
    (FilterUnit.ola (advanceOla ar x u).1).configPart = (FilterUnit.ola u).configPart := by
  have pop (v : Ola) : (FilterUnit.ola (olaPop v).1).configPart = (FilterUnit.ola v).configPart := rfl
  unfold advanceOla
  refine (pop _).trans ?_
  split <;> rfl

theorem Advances.configPart {u v : FilterUnit} {y : Scalar} (h : Advances s i u v y) :
    v.configPart = u.configPart := by
  cases h with
  | tdl | fof | opl | ffc | fbc => rfl
  | tvd _ answered =>
    obtain ⟨-, rfl⟩ := advanceTvd_eq _ _ answered
    rfl
  | ola => exact advanceOla_configPart _ _ _

/-- Rewriting one occupied slot by a unit of the same configuration keeps the configuration of every slot. -/
theorem configPart_withSlot {slot n : Nat} {u v w : FilterUnit} (held : s.slotAt slot = some u)
    (hc : w.configPart = u.configPart) (hn : s.slotAt n = some v) :
    ∃ v', (s.withSlot slot (some w)).slotAt n = some v' ∧ v'.configPart = v.configPart := by
  by_cases h : n = slot
  · subst h
    cases held.symm.trans hn
    exact ⟨w, State.withSlot_slotAt_same s n _, hc⟩
  · exact ⟨v, (State.withSlot_slotAt_other s _ h).trans hn, rfl⟩

/-- An occupied slot keeps its unit's configuration fields unless the command frees it. -/
theorem Effect.configPart (h : Effect i s t) {n : Nat} {u : FilterUnit} (hn : s.slotAt n = some u)
    (hfree : i ≠ .free n) : ∃ v, t.slotAt n = some v ∧ v.configPart = u.configPart := by
  cases h with
  | ignored | faults | stagesInteger | stagesScalar | readsOutput => exact ⟨u, hn, rfl⟩
  | @configures slot _ _ _ empty =>
    have hne : n ≠ slot := by
      rintro rfl
      cases empty.symm.trans hn
    exact ⟨u, (State.withSlot_slotAt_other s _ hne).trans hn, rfl⟩
  | advances _ _ held advanced => exact configPart_withSlot held advanced.configPart hn
  | writesInput _ _ held => exact configPart_withSlot held rfl hn
  | runsFilter _ _ held => exact configPart_withSlot held rfl hn
  | @frees slot _ instr =>
    have hne : n ≠ slot := fun e => hfree (e ▸ instr)
    exact ⟨u, (State.withSlot_slotAt_other s _ hne).trans hn, rfl⟩

/-! ### One step -/

theorem exec_ne_fault (i : Instr) (s : State) (f : Fault) : exec i s ≠ .fault f := by
  rcases exec_answers i s with ⟨t, e⟩ | ⟨-, -, -, e⟩ <;> simp [e]

theorem exec_next_of_real (i : Instr) (hs : s.params.arith ≠ .complex) : ∃ t, exec i s = .next t := by
  rcases exec_answers i s with h | ⟨hc, -⟩
  · exact h
  · exact absurd hc hs

/-- The step of an action, in terms of `cp` before it. -/
theorem step_of_perform {a : HostAction} (ha : s.nextAction? = some a) (h : perform a s = .next t) :
    step s = .next (t.withCp (s.cp + 1)) := by
  obtain ⟨-, -, hcp⟩ := perform_hostPart h
  rw [step_of_action s ha, performAt_of_next s t h, State.advanceCp, hcp]

theorem step_of_refused {a : HostAction} {r : Refusal} (ha : s.nextAction? = some a)
    (h : perform a s = .refused r) : step s = .refused r := by
  simp [step_of_action s ha, performAt, h]

theorem perform_command {w : Word} (hf : s.faulted = false) (hw : decode w = .ok i) :
    perform (.command w) s = exec i s := issue_of_command s hf hw

theorem nextAction_of_ended (h : s.program.length ≤ s.cp) : s.nextAction? = none := List.getElem?_eq_none h

end

end Sys2Proof.Machine

open Sys2Proof.Machine

/-- Settles O49: each part is read off the cases of `Effect`. -/
theorem everyCommandKeepsItsFrame : Obligations.EveryCommandKeepsItsFrame := by
  unfold Obligations.EveryCommandKeepsItsFrame
  intro i s t h
  have he := exec_effect h
  obtain ⟨hparams, hprogram, hcp, houtputs⟩ := he.hostPart
  exact ⟨he.operands, ⟨hparams, hprogram, hcp, houtputs, he.hostReads⟩, fun _ => he.piAt_other,
    fun _ => he.psAt_other, fun _ => he.slotAt_other, he.yout_of_not_writesYout, he.fstat_of_running⟩

/-- Settles O50: `CFG.*` takes an empty slot only, and the commands on a unit write running fields only. -/
theorem configurationFieldsNeverChange : Obligations.ConfigurationFieldsNeverChange := by
  unfold Obligations.ConfigurationFieldsNeverChange
  exact fun _ _ _ _ _ h => (exec_effect h).configPart

/-- Settles O6: a decoded word is its command, which answers a next state or is refused (`exec_answers`). -/
theorem stepRunsTheDecodedCommand : Obligations.StepRunsTheDecodedCommand := by
  unfold Obligations.StepRunsTheDecodedCommand
  intro s w i ha hf hw
  have he : perform (.command w) s = exec i s := perform_command hf hw
  exact ⟨fun t h => step_of_perform ha (he.trans h), fun r h => step_of_refused ha (he.trans h),
    exec_ne_fault i s, exec_next_of_real i⟩

/-- Settles O7: each action is performed as its rule says and then `cp` moves (`step_of_perform`). -/
theorem stepPerformsSetAndGetActions : Obligations.StepPerformsSetAndGetActions := by
  unfold Obligations.StepPerformsSetAndGetActions
  intro s
  exact ⟨fun _ ha => step_of_perform ha rfl, fun _ ha => step_of_perform ha rfl, fun _ ha => step_of_perform ha rfl,
    fun ha => step_of_perform ha rfl, fun ha => step_of_perform ha rfl, fun ha => step_of_perform ha rfl,
    fun ha => step_of_perform ha rfl, fun ha => step_of_perform ha rfl⟩

/-- Settles O8: at the list's end there is no next action. -/
theorem stepWaitsAtTheEndOfTheList : Obligations.StepWaitsAtTheEndOfTheList := by
  unfold Obligations.StepWaitsAtTheEndOfTheList
  exact fun s h => step_of_end s (nextAction_of_ended h)

/-- Settles O55: `FSTAT` is 0, so the block is not FAULTED, and an empty memory reads zero in every cell. -/
theorem resetLeavesEverythingZeroAndEmpty : Obligations.ResetLeavesEverythingZeroAndEmpty := by
  unfold Obligations.ResetLeavesEverythingZeroAndEmpty
  rintro p l s rfl
  have hslot (n : Nat) : (State.resetWith p l).slotAt n = none := rfl
  have hrunning : (State.resetWith p l).faultO = false := by
    rw [State.faultO, State.faulted, State.resetWith_fstat]
    decide
  exact ⟨rfl, rfl, rfl, rfl, rfl, hrunning, fun _ => rfl, fun _ => rfl,
    fun n => ⟨kindAt_of_empty (hslot n), hslot n⟩, rfl⟩

end

section
/-!
`process` and the machine's run of its host list (spec/49_host_composition.md R192, spec/30_encoding.md R76). Nothing
reads `cp` but the fetch (`perform_withCp`), so a run is the actions performed in order (`run_performAll`); and
`process` performs the same actions, up to the first sample that faults (`drain_cases`).
-/

namespace Sys2Proof.Machine

/-! ### No command reads `cp` -/

/-- The outcome with `cp` moved to `n` in its next state. -/
def moveCp (n : Nat) : StepOutcome → StepOutcome
  | .next t => .next (t.withCp n)
  | .fault f => .fault f
  | .refused r => .refused r

@[simp] theorem moveCp_next (n : Nat) (t : State) : moveCp n (.next t) = .next (t.withCp n) := rfl

@[simp] theorem moveCp_refused (n : Nat) (r : Refusal) : moveCp n (.refused r) = .refused r := rfl

section
variable (n slot : Nat) (i : Instr) (s : State)

theorem State.withCp_kindAt (k : Nat) : (s.withCp n).kindAt k = s.kindAt k := rfl

theorem command_withCp {body body' : Except FaultCause State} (h : body' = body.map (State.withCp · n)) :
    command i body' (s.withCp n) = moveCp n (command i body s) := by
  subst h
  rcases command_cases s i body with ⟨hf, e⟩ | ⟨hf, u, rfl, e⟩ | ⟨hf, c, rfl, e⟩
  · rw [e]
    exact command_of_faulted _ i _ hf
  · rw [e]
    exact command_of_ok _ _ i hf rfl
  · rw [e]
    exact command_of_error _ i hf rfl

/-- A body that is one check of its own. -/
theorem checked_withCp {refuses : Prop} [Decidable refuses] {c : FaultCause} {t t' : State} (h : t' = t.withCp n) :
    (if refuses then .error c else .ok t') =
      (if refuses then .error c else .ok t : Except FaultCause State).map (State.withCp · n) := by
  subst h
  split <;> rfl

theorem withUnit_withCp {α : Type} (sel : FilterUnit → Option α) {k k' : α → Except FaultCause State}
    (hk : ∀ u, k' u = (k u).map (State.withCp · n)) :
    withUnit slot sel k' (s.withCp n) = (withUnit slot sel k s).map (State.withCp · n) := by
  unfold withUnit
  rw [State.withCp_params, State.withCp_slotAt]
  split
  · rfl
  · split
    · rfl
    · exact hk _

theorem configure_withCp (built : Except FaultCause FilterUnit) :
    configure i slot built (s.withCp n) = moveCp n (configure i slot built s) := by
  refine command_withCp n i s ?_
  rw [State.withCp_params, State.withCp_slotAt]
  split
  · rfl
  · split
    · rfl
    · cases built <;> rfl

theorem advance_withCp {α : Type} (sel : FilterUnit → Option α) (wrap : α → FilterUnit)
    (adv : α → Except FaultCause (α × Scalar)) :
    advance i slot sel wrap adv (s.withCp n) = moveCp n (advance i slot sel wrap adv s) := by
  refine command_withCp n i s (withUnit_withCp n slot s sel fun u => ?_)
  cases adv u <;> rfl

theorem realScalarOnly_withCp (needs : Kind) {run run' : StepOutcome} (h : run' = moveCp n run) :
    realScalarOnly slot needs run' (s.withCp n) = moveCp n (realScalarOnly slot needs run s) := by
  subst h
  unfold realScalarOnly
  rw [State.withCp_params, State.withCp_faulted, State.withCp_kindAt]
  split <;> rfl

/-- A command on the DFC in its slot. -/
theorem dfcCommand_withCp {k k' : Dfc → Except FaultCause State} (hk : ∀ u, k' u = (k u).map (State.withCp · n)) :
    realScalarOnly slot .dfc (command i (withUnit slot FilterUnit.asDfc k' (s.withCp n)) (s.withCp n)) (s.withCp n) =
      moveCp n (realScalarOnly slot .dfc (command i (withUnit slot FilterUnit.asDfc k s) s) s) :=
  realScalarOnly_withCp n slot s .dfc (command_withCp n i s (withUnit_withCp n slot s _ hk))

/-- A command does the same wherever `cp` stands. -/
theorem exec_withCp : exec i (s.withCp n) = moveCp n (exec i s) := by
  cases i with
  | ldi idx => exact command_withCp n _ s (checked_withCp n rfl)
  | lds idx => exact command_withCp n _ s (checked_withCp n rfl)
  | cfgTdl slot count => exact configure_withCp n slot _ s _
  | cfgFfc slot => exact configure_withCp n slot _ s _
  | cfgFbc slot => exact configure_withCp n slot _ s _
  | cfgTvd slot => exact configure_withCp n slot _ s _
  | cfgFof slot => exact realScalarOnly_withCp n slot s .none (configure_withCp n slot _ s _)
  | cfgOpl slot => exact realScalarOnly_withCp n slot s .none (configure_withCp n slot _ s _)
  | cfgDfc slot => exact realScalarOnly_withCp n slot s .none (configure_withCp n slot _ s _)
  | cfgOla slot => exact realScalarOnly_withCp n slot s .none (configure_withCp n slot _ s _)
  | advTdl slot => exact advance_withCp n slot _ s _ _ fun u => .ok (advanceTdl s.params.arith s.xin u)
  | advFfc slot => exact advance_withCp n slot _ s _ _ fun u => .ok (advanceFfc s.params.arith s.xin u)
  | advFbc slot => exact advance_withCp n slot _ s _ _ fun u => .ok (advanceFbc s.params.arith s.xin u)
  | advTvd slot => exact advance_withCp n slot _ s _ _ _
  | advFof slot => exact realScalarOnly_withCp n slot s .fof (advance_withCp n slot _ s _ _ _)
  | advOpl slot => exact realScalarOnly_withCp n slot s .opl (advance_withCp n slot _ s _ _ _)
  | advOla slot => exact realScalarOnly_withCp n slot s .ola (advance_withCp n slot _ s _ _ _)
  | dfcWr slot => exact dfcCommand_withCp n slot _ s fun _ => checked_withCp n rfl
  | dfcRun slot => exact dfcCommand_withCp n slot _ s fun _ => rfl
  | dfcRd slot => exact dfcCommand_withCp n slot _ s fun _ => checked_withCp n rfl
  | free slot => exact command_withCp n _ s (withUnit_withCp n slot s _ fun _ => rfl)

theorem issue_withCp (w : Word) : issue w (s.withCp n) = moveCp n (issue w s) := by
  unfold issue
  rw [State.withCp_faulted]
  split
  · rfl
  · split
    · rfl
    · exact exec_withCp n _ s

theorem perform_withCp (a : HostAction) : perform a (s.withCp n) = moveCp n (perform a s) := by
  cases a with
  | command w => exact issue_withCp n s w
  | setIarg | setXin | setDin | getYout | getFstat | getIarg | getXin | getDin => rfl

end

/-! ### Actions performed in order -/

section
variable {a : HostAction} {s t : State} {r : Refusal}

/-- A FAULTED block takes every action and stays FAULTED (R42, R214). -/
theorem perform_of_faulted (a : HostAction) (hf : s.faulted = true) :
    ∃ t, perform a s = .next t ∧ t.faulted = true := by
  cases a with
  | command w => exact ⟨s, issue_of_faulted s w hf, hf⟩
  | setIarg | setXin | setDin | getYout | getFstat | getIarg | getXin | getDin => exact ⟨_, rfl, hf⟩

theorem performAll_cons_refused (rest : List HostAction) (h : perform a s = .refused r) :
    performAll (a :: rest) s = .refused r := by simp [performAll, h]

/-- Performing actions is never a failed run: no action ends in a fault of the model. -/
theorem performAll_cases (l : List HostAction) (s : State) :
    (∃ t, performAll l s = .next (t, ())) ∨ ∃ r, performAll l s = .refused r := by
  induction l generalizing s with
  | nil => exact .inl ⟨s, rfl⟩
  | cons a rest ih =>
    rcases perform_answers a s with ⟨t, ht⟩ | ⟨-, hr, -⟩
    · rw [performAll_cons rest ht]
      exact ih t
    · exact .inr ⟨_, performAll_cons_refused rest hr⟩

theorem performAll_of_faulted (l : List HostAction) (hf : s.faulted = true) :
    ∃ t, performAll l s = .next (t, ()) ∧ t.faulted = true := by
  induction l generalizing s with
  | nil => exact ⟨s, rfl, hf⟩
  | cons a rest ih =>
    obtain ⟨u, hu, hfu⟩ := perform_of_faulted a hf
    rw [performAll_cons rest hu]
    exact ih hfu

theorem performAll_append (l m : List HostAction) (s : State) :
    performAll (l ++ m) s = andThen (performAll l s) (fun t _ => performAll m t) := by
  induction l generalizing s with
  | nil => rfl
  | cons a rest ih =>
    rcases perform_answers a s with ⟨t, ht⟩ | ⟨-, hr, -⟩
    · rw [List.cons_append, performAll_cons _ ht, performAll_cons _ ht]
      exact ih t
    · rw [List.cons_append, performAll_cons_refused _ hr, performAll_cons_refused _ hr, andThen_refused]

theorem performAll_append_next {l m : List HostAction} (h : performAll l s = .next (t, ())) :
    performAll (l ++ m) s = performAll m t := by rw [performAll_append, h, andThen_next]

theorem performAll_append_refused {l m : List HostAction} (h : performAll l s = .refused r) :
    performAll (l ++ m) s = .refused r := by rw [performAll_append, h, andThen_refused]

theorem performAll_program {l : List HostAction} (h : performAll l s = .next (t, ())) : t.program = s.program := by
  induction l generalizing s with
  | nil => cases h; rfl
  | cons a rest ih =>
    rcases perform_answers a s with ⟨u, hu⟩ | ⟨-, hr, -⟩
    · obtain ⟨-, hprogram, -⟩ := perform_hostPart hu
      exact (ih (performAll_cons rest hu ▸ h)).trans hprogram
    · rw [performAll_cons_refused rest hr] at h
      cases h

/-! ### The machine's run -/

/-- What the machine's run answers where the actions of its list, from `cp` up to `n`, have been performed. -/
def runAnswer (n : Nat) : HostOutcome Unit → StepOutcome
  | .next r => .next (r.1.withCp n)
  | .failed _ f => .fault f
  | .refused r => .refused r

theorem run_succ_of_next {k : Nat} (h : step s = .next t) :
    Host.Core.run core (k + 1) s = Host.Core.run core k t := by
  simp only [Host.Core.run, core, h]

theorem run_succ_of_refused {k : Nat} (h : step s = .refused r) :
    Host.Core.run core (k + 1) s = .refused r := by
  simp only [Host.Core.run, core, h]

/-- The machine at action `k` of its list, whose actions from there on are `l`, performs them in order. -/
theorem run_performAll {l : List HostAction} {k : Nat} (hl : s.program.drop k = l) :
    Host.Core.run core l.length (s.withCp k) = runAnswer (k + l.length) (performAll l s) := by
  induction l generalizing s k with
  | nil => rfl
  | cons a rest ih =>
    have ha : (s.withCp k).nextAction? = some a := by
      rw [State.nextAction?, State.withCp_program, State.withCp_cp, ← List.head?_drop, hl]
      rfl
    have hrest : s.program.drop (k + 1) = rest := by rw [← List.tail_drop, hl]; rfl
    have hperform := perform_withCp k s a
    rcases perform_answers a s with ⟨t, ht⟩ | ⟨-, hr, -⟩
    · rw [ht, moveCp_next] at hperform
      obtain ⟨-, hprogram, -⟩ := perform_hostPart ht
      have hstep : step (s.withCp k) = .next (t.withCp (k + 1)) := step_of_perform (t := t.withCp k) ha hperform
      rw [List.length_cons, run_succ_of_next hstep, ih (hprogram ▸ hrest), performAll_cons rest ht,
        Nat.add_right_comm, Nat.add_assoc]
    · rw [hr, moveCp_refused] at hperform
      rw [List.length_cons, run_succ_of_refused (step_of_refused ha hperform), performAll_cons_refused rest hr]
      rfl

/-- The machine's run of its whole list. -/
theorem run_whole_list {l : List HostAction} (hprogram : s.program = l) (hcp : s.cp = 0) :
    Host.Core.run core l.length s = runAnswer l.length (performAll l s) := by
  have hs : s.withCp 0 = s := by rw [← hcp]; rfl
  have h := run_performAll (s := s) (k := 0) (l := l) hprogram
  rwa [hs, Nat.zero_add] at h

end

/-! ### Samples through a unit -/

/-- The actions that put each of a list of samples through a unit, in order (R76, `RUN`). -/
def sampleActions (kind : AdvKind) (slot : Nat) (xs : List Scalar) : List HostAction :=
  (xs.map (advActions kind slot)).flatten

theorem sampleActions_cons (kind : AdvKind) (slot : Nat) (x : Scalar) (xs : List Scalar) :
    sampleActions kind slot (x :: xs) = advActions kind slot x ++ sampleActions kind slot xs := rfl

/-- `RUN` and then `FLUSH` are the samples of `process`, its flushing zeros among them. -/
theorem run_flush_expand (kind : AdvKind) (slot n : Nat) (xs : List Scalar) :
    (Pseudo.run kind slot xs).expand ++ (Pseudo.flush kind slot n).expand =
      sampleActions kind slot (withFlush xs n) := by
  simp only [Pseudo.expand, sampleActions, withFlush, List.map_append, List.map_replicate, List.flatten_append]

section
variable (kind : AdvKind) (slot : Nat)

theorem feedActions_outputs {x : Scalar} {s t : State} (h : performAll (feedActions kind slot x) s = .next (t, ())) :
    t.outputs = s.outputs := by
  have hfeed : performAll (feedActions kind slot x) s = performAll [commandOf (kind.instr slot)] (s.withXin x) := rfl
  rw [hfeed] at h
  rcases perform_answers (commandOf (kind.instr slot)) (s.withXin x) with ⟨u, hu⟩ | ⟨-, hr, -⟩
  · cases (performAll_cons [] hu).symm.trans h
    rcases issue_next hu with rfl | rfl | ⟨i, -, he⟩
    · rfl
    · rfl
    · obtain ⟨-, -, -, houtputs⟩ := he.hostPart
      exact houtputs
  · rw [performAll_cons_refused [] hr] at h
    cases h

/-- One sample, as the host procedure and as actions of the list: done on a block that is not FAULTED; or failed,
where the actions go on and leave the block FAULTED; or refused. -/
theorem oneSample_cases (x : Scalar) (s : State) :
    (∃ t y, oneSample kind slot x s = .next (t, y) ∧ performAll (advActions kind slot x) s = .next (t, ()) ∧
      t.outputs = s.outputs ++ [y]) ∨
    (∃ e t, oneSample kind slot x s = .failed e .blockFaulted ∧
      performAll (advActions kind slot x) s = .next (t, ()) ∧ t.faulted = true) ∨
    ∃ r, oneSample kind slot x s = .refused r ∧ performAll (advActions kind slot x) s = .refused r := by
  rcases performAll_cases (feedActions kind slot x) s with ⟨u, hu⟩ | ⟨r, hr⟩
  · have hactions : performAll (advActions kind slot x) s = .next (u.withOutput u.yout, ()) :=
      performAll_append_next hu
    have hone : oneSample kind slot x s =
        andThen (unlessFaulted u u.yout) (fun t y => .next (t.withOutput y, y)) := by
      rw [oneSample, readingYout, hu, andThen_next]
    cases hf : u.faulted with
    | false =>
      rw [unlessFaulted_of_running _ hf, andThen_next] at hone
      refine .inl ⟨_, _, hone, hactions, ?_⟩
      rw [State.withOutput_outputs, feedActions_outputs kind slot hu]
    | true =>
      rw [unlessFaulted_of_faulted _ hf, andThen_failed] at hone
      exact .inr (.inl ⟨_, _, hone, hactions, hf⟩)
  · refine .inr (.inr ⟨r, ?_, performAll_append_refused hr⟩)
    rw [oneSample, readingYout, hr, andThen_refused]

/-- A list of samples into an unbounded sink, as the host procedure and as actions of the list. -/
theorem drain_cases (xs items : List Scalar) (s : State) :
    (∃ t ys, drain (oneSample kind slot) xs { capacity := none, items := items } s =
        .next (t, { capacity := none, items := items ++ ys }) ∧
      performAll (sampleActions kind slot xs) s = .next (t, ()) ∧ ys.length = xs.length ∧
      t.outputs = s.outputs ++ ys) ∨
    (∃ e t, drain (oneSample kind slot) xs { capacity := none, items := items } s = .failed e .blockFaulted ∧
      performAll (sampleActions kind slot xs) s = .next (t, ()) ∧ t.faulted = true) ∨
    ∃ r, drain (oneSample kind slot) xs { capacity := none, items := items } s = .refused r ∧
      performAll (sampleActions kind slot xs) s = .refused r := by
  induction xs generalizing items s with
  | nil => exact .inl ⟨s, [], by simp, rfl, rfl, by simp⟩
  | cons x xs ih =>
    rw [sampleActions_cons]
    rcases oneSample_cases kind slot x s with ⟨t, y, hone, hall, hout⟩ | ⟨e, t, hone, hall, hf⟩ | ⟨r, hone, hall⟩
    · rw [drain_cons _ xs hone (writeNext_unbounded items y), performAll_append_next hall]
      rcases ih (items ++ [y]) t with ⟨u, ys, hd, hp, hlen, hu⟩ | hrest | hrest
      · exact .inl ⟨u, y :: ys, by simpa using hd, hp, by simp [hlen], by simp [hu, hout]⟩
      · exact .inr (.inl hrest)
      · exact .inr (.inr hrest)
    · obtain ⟨u, hu, hfu⟩ := performAll_of_faulted (sampleActions kind slot xs) hf
      exact .inr (.inl ⟨e, u, by rw [drain, hone, andThen_failed], (performAll_append_next hall).trans hu, hfu⟩)
    · exact .inr (.inr ⟨r, by rw [drain, hone, andThen_refused], performAll_append_refused hall⟩)

theorem process_eq (xs : List Scalar) (n : Nat) (s : State) :
    process kind slot xs n s =
      andThen (andThen (drain (oneSample kind slot) (withFlush xs n) { capacity := none, items := [] } s)
        unlessFaulted) (fun t k => .next (t, k.items)) := rfl

/-- `process`, as the host procedure and as actions of the list. -/
theorem process_cases (xs : List Scalar) (n : Nat) (s : State) :
    (∃ t ys, process kind slot xs n s = .next (t, ys) ∧
      performAll (sampleActions kind slot (withFlush xs n)) s = .next (t, ()) ∧ ys.length = xs.length + n ∧
      t.outputs = s.outputs ++ ys ∧ t.faulted = false) ∨
    (∃ e t, process kind slot xs n s = .failed e .blockFaulted ∧
      performAll (sampleActions kind slot (withFlush xs n)) s = .next (t, ()) ∧ t.faulted = true) ∨
    ∃ r, process kind slot xs n s = .refused r ∧
      performAll (sampleActions kind slot (withFlush xs n)) s = .refused r := by
  rw [process_eq]
  rcases drain_cases kind slot (withFlush xs n) [] s with ⟨t, ys, hd, hp, hlen, hout⟩ | ⟨e, t, hd, hp, hf⟩ |
    ⟨r, hd, hp⟩
  · rw [hd, andThen_next]
    cases hf : t.faulted with
    | false =>
      have hlen : ys.length = xs.length + n := by simpa [withFlush] using hlen
      exact .inl ⟨t, ys, by rw [unlessFaulted_of_running _ hf]; rfl, hp, hlen, hout, hf⟩
    | true => exact .inr (.inl ⟨t, t, by rw [unlessFaulted_of_faulted _ hf]; rfl, hp, hf⟩)
  · exact .inr (.inl ⟨e, t, by rw [hd]; rfl, hp, hf⟩)
  · exact .inr (.inr ⟨r, by rw [hd]; rfl, hp⟩)

end

end Sys2Proof.Machine

open Sys2Proof.Machine

/-- Settles O58: the three cases of `process_cases`, each with what `run_whole_list` says of the machine's run. -/
theorem processIsTheRunOfItsHostList : Obligations.ProcessIsTheRunOfItsHostList := by
  unfold Obligations.ProcessIsTheRunOfItsHostList
  intro kind slot n xs s l hl hprogram hcp
  have hrun : Host.Core.run Sys2Proof.core l.length s = runAnswer l.length (performAll l s) :=
    run_whole_list hprogram hcp
  rw [run_flush_expand] at hl
  subst hl
  rcases process_cases kind slot xs n s with ⟨t, ys, hproc, hall, hlen, hout, hf⟩ | ⟨e, t, hproc, hall, hf⟩ |
    ⟨r, hproc, hall⟩
  · rw [hproc]
    rw [hall] at hrun
    refine ⟨?_, by simp, by simp, fun hs => ?_⟩
    · rintro _ _ ⟨⟩
      exact ⟨hlen, hout, hf, hrun⟩
    · obtain ⟨u, hu, hfu⟩ := performAll_of_faulted (sampleActions kind slot (withFlush xs n)) hs
      cases hall.symm.trans hu
      rw [hf] at hfu
      cases hfu
  · rw [hproc]
    rw [hall] at hrun
    have hended : (t.withCp (sampleActions kind slot (withFlush xs n)).length).runEnded :=
      Nat.le_of_eq (congrArg List.length ((performAll_program hall).trans hprogram))
    refine ⟨by simp, ?_, by simp, fun _ => ⟨e, rfl⟩⟩
    rintro _ _ ⟨⟩
    exact ⟨rfl, _, hrun, hended, hf⟩
  · rw [hproc]
    rw [hall] at hrun
    refine ⟨by simp, by simp, ?_, fun hs => ?_⟩
    · rintro _ ⟨⟩
      exact hrun
    · obtain ⟨u, hu, -⟩ := performAll_of_faulted (sampleActions kind slot (withFlush xs n)) hs
      cases hall.symm.trans hu

end

section
/-!
Commands to different slots (spec/20_memory.md R55). What a command leaves in a slot is read off the operands, the
staging memories and that slot alone (`exec_slotAfter`), so a command to another slot before it changes nothing there.
-/

namespace Sys2Proof.Machine

/-- The state with other units in its slots and another `YOUT`: all that a command with a slot field may change. -/
def State.withSlotsAndYout (s : State) (m : Memory (Option FilterUnit)) (y : Scalar) : State :=
  { s with slots := m, yout := y }

/-- What a command leaves in slot `a`, where it answers a next state. -/
def slotAfter (a : Nat) : StepOutcome → Option (Option FilterUnit)
  | .next t => some (t.slotAt a)
  | .fault _ | .refused _ => none

@[simp] theorem slotAfter_next (a : Nat) (t : State) : slotAfter a (.next t) = some (t.slotAt a) := rfl

section
variable (s : State) (m : Memory (Option FilterUnit)) (y : Scalar)

@[simp] theorem State.withSlotsAndYout_faulted : (s.withSlotsAndYout m y).faulted = s.faulted := rfl

@[simp] theorem State.withSlotsAndYout_params : (s.withSlotsAndYout m y).params = s.params := rfl

end

/-! ### A command reads no slot but its own -/

section
variable {a : Nat}

/-- Two states after the same write to slot `a` agree there. -/
theorem slotAt_withSlot_eq (s s' : State) (u : Option FilterUnit) :
    (s'.withSlot a u).slotAt a = (s.withSlot a u).slotAt a :=
  (State.withSlot_slotAt_same s' a u).trans (State.withSlot_slotAt_same s a u).symm

/-- A body that is one check of its own. -/
theorem checked_slotAt {refuses : Prop} [Decidable refuses] {c : FaultCause} {t t' : State}
    (h : t'.slotAt a = t.slotAt a) :
    (if refuses then .error c else .ok t' : Except FaultCause State).map (State.slotAt · a) =
      (if refuses then .error c else .ok t : Except FaultCause State).map (State.slotAt · a) := by
  split
  · rfl
  · exact congrArg Except.ok h

end

section
variable {i : Instr} {s : State} {a : Nat} {m : Memory (Option FilterUnit)} {y : Scalar}
  (h : (s.withSlotsAndYout m y).slotAt a = s.slotAt a)
include h

theorem command_slotAfter {body body' : Except FaultCause State}
    (hbody : body'.map (State.slotAt · a) = body.map (State.slotAt · a)) :
    slotAfter a (command i body' (s.withSlotsAndYout m y)) = slotAfter a (command i body s) := by
  unfold command
  rw [State.withSlotsAndYout_faulted]
  split
  · exact congrArg some h
  · cases body with
    | error c =>
      cases body' with
      | error c' => exact congrArg some h
      | ok t' => cases hbody
    | ok t =>
      cases body' with
      | error c' => cases hbody
      | ok t' => exact congrArg some (Except.ok.inj hbody)

theorem withUnit_slotAt {α : Type} {sel : FilterUnit → Option α} {k k' : α → Except FaultCause State}
    (hk : ∀ u, (k' u).map (State.slotAt · a) = (k u).map (State.slotAt · a)) :
    (withUnit a sel k' (s.withSlotsAndYout m y)).map (State.slotAt · a) =
      (withUnit a sel k s).map (State.slotAt · a) := by
  unfold withUnit
  rw [State.withSlotsAndYout_params, h]
  split
  · rfl
  · split
    · rfl
    · exact hk _

theorem configure_slotAfter (built : Except FaultCause FilterUnit) :
    slotAfter a (configure i a built (s.withSlotsAndYout m y)) = slotAfter a (configure i a built s) := by
  refine command_slotAfter h ?_
  rw [State.withSlotsAndYout_params, h]
  split
  · rfl
  · split
    · rfl
    · cases built with
      | error c => rfl
      | ok u => exact congrArg Except.ok (slotAt_withSlot_eq _ _ _)

theorem advance_slotAfter {α : Type} (sel : FilterUnit → Option α) (wrap : α → FilterUnit)
    (adv : α → Except FaultCause (α × Scalar)) :
    slotAfter a (advance i a sel wrap adv (s.withSlotsAndYout m y)) = slotAfter a (advance i a sel wrap adv s) := by
  refine command_slotAfter h (withUnit_slotAt h fun u => ?_)
  cases adv u with
  | error c => rfl
  | ok r => exact congrArg Except.ok (slotAt_withSlot_eq s (s.withSlotsAndYout m y) (some (wrap r.1)))

theorem realScalarOnly_slotAfter (needs : Kind) {run run' : StepOutcome} (hrun : slotAfter a run' = slotAfter a run) :
    slotAfter a (realScalarOnly a needs run' (s.withSlotsAndYout m y)) =
      slotAfter a (realScalarOnly a needs run s) := by
  have hkind : (s.withSlotsAndYout m y).kindAt a = s.kindAt a := by rw [State.kindAt, State.kindAt, h]
  unfold realScalarOnly
  rw [State.withSlotsAndYout_params, State.withSlotsAndYout_faulted, hkind]
  split
  · rfl
  · exact hrun

/-- A command on the DFC in its slot. -/
theorem dfcCommand_slotAfter {k k' : Dfc → Except FaultCause State}
    (hk : ∀ u, (k' u).map (State.slotAt · a) = (k u).map (State.slotAt · a)) :
    slotAfter a (realScalarOnly a .dfc
        (command i (withUnit a FilterUnit.asDfc k' (s.withSlotsAndYout m y)) (s.withSlotsAndYout m y))
        (s.withSlotsAndYout m y)) =
      slotAfter a (realScalarOnly a .dfc (command i (withUnit a FilterUnit.asDfc k s) s) s) :=
  realScalarOnly_slotAfter h .dfc (command_slotAfter h (withUnit_slotAt h hk))

/-- What a command leaves in the slot it names does not depend on the other slots, nor on `YOUT`. -/
theorem exec_slotAfter (names : i.slot? = some a) :
    slotAfter a (exec i (s.withSlotsAndYout m y)) = slotAfter a (exec i s) := by
  cases i with
  | ldi | lds => cases names
  | cfgTdl | cfgFfc | cfgFbc | cfgTvd => cases names; exact configure_slotAfter h _
  | cfgFof | cfgOpl | cfgDfc | cfgOla =>
    cases names
    exact realScalarOnly_slotAfter h .none (configure_slotAfter h _)
  | advTdl => cases names; exact advance_slotAfter h _ _ fun u => .ok (advanceTdl s.params.arith s.xin u)
  | advFfc => cases names; exact advance_slotAfter h _ _ fun u => .ok (advanceFfc s.params.arith s.xin u)
  | advFbc => cases names; exact advance_slotAfter h _ _ fun u => .ok (advanceFbc s.params.arith s.xin u)
  | advTvd => cases names; exact advance_slotAfter h _ _ _
  | advFof | advOpl | advOla =>
    cases names
    exact realScalarOnly_slotAfter h _ (advance_slotAfter h _ _ _)
  | dfcWr => cases names; exact dfcCommand_slotAfter h fun _ => checked_slotAt (slotAt_withSlot_eq _ _ _)
  | dfcRun => cases names; exact dfcCommand_slotAfter h fun _ => congrArg Except.ok (slotAt_withSlot_eq _ _ _)
  | dfcRd => cases names; exact dfcCommand_slotAfter h fun _ => checked_slotAt h
  | free =>
    cases names
    exact command_slotAfter h (withUnit_slotAt h fun _ => congrArg Except.ok (slotAt_withSlot_eq _ _ _))

end

/-! ### What one command keeps -/

section
variable {i : Instr} {a : Nat} {s t : State}

/-- Every command keeps the slot memory canonical. -/
theorem Effect.slots_wf (h : Effect i s t) (hs : Memory.wf none s.slots) : Memory.wf none t.slots := by
  have written (slot : Nat) (u : Option FilterUnit) : Memory.wf none (s.withSlot slot u).slots :=
    Memory.write_wf none s.slots slot u hs
  cases h with
  | ignored | faults | stagesInteger | stagesScalar | readsOutput => exact hs
  | configures | writesInput | runsFilter | frees => exact written _ _
  | advances => rw [State.withYout_slots]; exact written _ _

/-- A command with a slot field that does not fault changes the slots and `YOUT` only. -/
theorem Effect.eq_withSlotsAndYout (h : Effect i s t) (names : i.slot? = some a) (hf : t.faulted = false) :
    t = s.withSlotsAndYout t.slots t.yout := by
  cases h with
  | faults c => rw [raise_faulted] at hf; cases hf
  | stagesInteger instr => subst instr; cases names
  | stagesScalar instr => subst instr; cases names
  | ignored | configures | advances | writesInput | runsFilter | readsOutput | frees => rfl

/-- No command ends the FAULTED state (R214). -/
theorem Effect.running_before (h : Effect i s t) (hf : t.faulted = false) : s.faulted = false := by
  rw [State.faulted, ← h.fstat_of_running hf]
  exact hf

end

/-! ### Two commands in either order -/

section
variable {i j : Instr} {a b : Nat} {s s1 s2 t1 t2 : State}

/-- Slot `a` ends the same whether its command comes before or after one that names another slot. -/
theorem slotAt_own_of_either_order (hi : i.slot? = some a) (hj : j.slot? = some b) (hab : a ≠ b)
    (hs1 : exec i s = .next s1) (hs2 : exec j s1 = .next s2) (ht1 : exec j s = .next t1)
    (ht2 : exec i t1 = .next t2) (hf : t1.faulted = false) : s2.slotAt a = t2.slotAt a := by
  have hja : j.slot? ≠ some a := by simpa [hj] using hab.symm
  have hslot : t1.slotAt a = s.slotAt a := (exec_effect ht1).slotAt_other hja
  rw [(exec_effect ht1).eq_withSlotsAndYout hj hf] at ht2 hslot
  have hafter := exec_slotAfter hslot hi
  rw [hs1, ht2, slotAfter_next, slotAfter_next] at hafter
  calc s2.slotAt a = s1.slotAt a := (exec_effect hs2).slotAt_other hja
    _ = t2.slotAt a := (Option.some.inj hafter).symm

/-- Two commands leave alone a slot that neither names. -/
theorem slotAt_other_of_two {n : Nat} (hs1 : Effect i s s1) (hs2 : Effect j s1 s2) (hi : i.slot? ≠ some n)
    (hj : j.slot? ≠ some n) : s2.slotAt n = s.slotAt n :=
  (hs2.slotAt_other hj).trans (hs1.slotAt_other hi)

/-- Two commands with slot fields that do not fault change the slots and `YOUT` only. -/
theorem eq_withSlotsAndYout_of_two (hs1 : Effect i s s1) (hs2 : Effect j s1 s2) (hi : i.slot? = some a)
    (hj : j.slot? = some b) (hf : s2.faulted = false) : s2 = s.withSlotsAndYout s2.slots s2.yout := by
  have h1 := hs1.eq_withSlotsAndYout hi (hs2.running_before hf)
  have h2 := hs2.eq_withSlotsAndYout hj hf
  rw [h1] at h2
  exact h2

end

end Sys2Proof.Machine

open Sys2Proof.Machine

/-- Settles O51: both orders leave the same in slot `a`, in slot `b` and in every other slot, and canonical memories
that read alike are equal; besides the slots, only `YOUT` changes. -/
theorem commandsToDifferentSlotsCommute : Obligations.CommandsToDifferentSlotsCommute := by
  unfold Obligations.CommandsToDifferentSlotsCommute
  intro i j a b s s1 s2 t1 t2 hi hj hab hwf hs1 hs2 ht1 ht2 hfs hft
  have es1 := exec_effect hs1
  have es2 := exec_effect hs2
  have et1 := exec_effect ht1
  have et2 := exec_effect ht2
  have hread (n : Nat) : s2.slotAt n = t2.slotAt n := by
    by_cases hna : n = a
    · subst hna
      exact slotAt_own_of_either_order hi hj hab hs1 hs2 ht1 ht2 (et2.running_before hft)
    · by_cases hnb : n = b
      · subst hnb
        exact (slotAt_own_of_either_order hj hi hab.symm ht1 ht2 hs1 hs2 (es2.running_before hfs)).symm
      · have hin : i.slot? ≠ some n := by simpa [hi] using Ne.symm hna
        have hjn : j.slot? ≠ some n := by simpa [hj] using Ne.symm hnb
        exact (slotAt_other_of_two es1 es2 hin hjn).trans (slotAt_other_of_two et1 et2 hjn hin).symm
  have hslots : s2.slots = t2.slots :=
    Memory.ext_of_wf none _ _ (es2.slots_wf (es1.slots_wf hwf)) (et2.slots_wf (et1.slots_wf hwf)) hread
  rw [eq_withSlotsAndYout_of_two es1 es2 hi hj hfs, eq_withSlotsAndYout_of_two et1 et2 hj hi hft]
  exact ⟨hslots, rfl, rfl, rfl⟩

end

section
/-!
The encoding (spec/30_encoding.md R70 to R78). A word is a command exactly when some row of the opcode map admits it
(`decode_row_iff`), a row admits one word for each command of the row (`admits_encode`, `encode_of_decode`), and
`w AND mask = match` says field by field that the row admits `w` (`and_mask_eq_matchBits_iff`).
-/

namespace Sys2Proof

/-- The row admits the word: its `OP` is the row's, and the fields that must be 0 are 0 (R70, R72). -/
def Opcode.Admits (o : Opcode) (w : Word) : Prop :=
  opField w = o.code ∧ (o.idxMustBeZero = true → idxField w = 0) ∧ (o.slotMustBeZero = true → slotField w = 0)

section
variable {o o' : Opcode} {w : Word} {i : Instr}

/-! ### The opcode map -/

theorem Opcode.mem_all (o : Opcode) : o ∈ Opcode.all := by cases o <;> decide

theorem Opcode.code_injective (h : o.code = o'.code) : o = o' := by
  have hrow := Opcode.ofCode?_code o
  rw [h, Opcode.ofCode?_code] at hrow
  exact (Option.some.inj hrow).symm

theorem Opcode.mem_codes_iff {op : Nat} : op ∈ Opcode.all.map Opcode.code ↔ ∃ o : Opcode, o.code = op := by
  simp [Opcode.mem_all]

theorem Opcode.mem_codes_idx_iff (o : Opcode) : o.code ∈ [0x01, 0x02, 0x11] ↔ o.idxMustBeZero = false := by
  cases o <;> decide

theorem Opcode.mem_codes_slot_iff (o : Opcode) : o.code ∈ [0x01, 0x02] ↔ o.slotMustBeZero = true := by
  cases o <;> decide

/-- In group 1 the low nibble of `OP` is the code of the kind that the command builds (R72). -/
theorem Opcode.code_of_buildsKind {k : Machine.Kind} (h : Machine.buildsKind o = some k) :
    o.code / 16 = 1 ∧ o.code % 16 = k.code := by
  cases o <;> cases h <;> decide

/-- In group 2 the low nibble of `OP` is the code of the kind that the command needs; group 3 is the DFC's (R72). -/
theorem Opcode.code_of_needsKind {k : Machine.Kind} (h : Machine.needsKind o = some k) :
    (o.code / 16 = 2 ∧ o.code % 16 = k.code) ∨ (o.code / 16 = 3 ∧ k = .dfc) := by
  cases o <;> cases h <;> decide

/-! ### A command and its fields -/

@[simp] theorem Opcode.command_opcode (o : Opcode) (slot idx : Nat) : (o.command slot idx).opcode = o := by
  cases o <;> rfl

theorem Opcode.command_slot (o : Opcode) (slot idx : Nat) :
    (o.command slot idx).slot?.getD 0 = if o.slotMustBeZero then 0 else slot := by cases o <;> rfl

theorem Opcode.command_idxValue (o : Opcode) (slot idx : Nat) :
    (o.command slot idx).idxValue = if o.idxMustBeZero then 0 else idx := by cases o <;> rfl

/-- A command is its row with its field values. -/
theorem Instr.command_of_fields (i : Instr) : i.opcode.command (i.slot?.getD 0) i.idxValue = i := by
  cases i <;> rfl

theorem Instr.idxValue_of_mustBeZero (h : i.opcode.idxMustBeZero = true) : i.idxValue = 0 := by
  have hi := Opcode.command_idxValue i.opcode (i.slot?.getD 0) i.idxValue
  rwa [i.command_of_fields, if_pos h] at hi

theorem Instr.slot_of_mustBeZero (h : i.opcode.slotMustBeZero = true) : i.slot?.getD 0 = 0 := by
  have hi := Opcode.command_slot i.opcode (i.slot?.getD 0) i.idxValue
  rwa [i.command_of_fields, if_pos h] at hi

theorem Instr.wellFormed_of_bounds (hs : i.slot?.getD 0 < 256) (hx : i.idxValue < 65536) : i.wellFormed = true := by
  cases i <;> simp_all [Instr.wellFormed, slotFits, idxFits, Instr.slot?, Instr.idxValue]

/-! ### The decoder -/

theorem decode_of_admits (h : o.Admits w) : decode w = .ok (o.command (slotField w) (idxField w)) := by
  obtain ⟨hop, hidx, hslot⟩ := h
  have hrow : Opcode.ofCode? (opField w) = some o := hop ▸ Opcode.ofCode?_code o
  have idxPasses : (o.idxMustBeZero && idxField w != 0) = false := by simpa using hidx
  have slotPasses : (o.slotMustBeZero && slotField w != 0) = false := by simpa using hslot
  simp [decode, hrow, idxPasses, slotPasses]

/-- A legal word is a command of a row that admits it, with the fields of the word. -/
theorem admits_of_decode (h : decode w = .ok i) :
    ∃ o : Opcode, o.Admits w ∧ i = o.command (slotField w) (idxField w) := by
  unfold decode at h
  split at h
  · cases h
  · rename_i o hrow
    split at h
    · cases h
    · rename_i idxPasses
      split at h
      · cases h
      · rename_i slotPasses
        cases h
        exact ⟨o, ⟨(Opcode.code_of_ofCode? hrow).symm, by simpa using idxPasses, by simpa using slotPasses⟩, rfl⟩

/-- A word decodes to a command of the row that admits it. -/
theorem decode_row_iff : (∃ i, decode w = .ok i ∧ i.opcode = o) ↔ o.Admits w := by
  constructor
  · rintro ⟨i, hi, rfl⟩
    obtain ⟨o, ho, rfl⟩ := admits_of_decode hi
    rwa [Opcode.command_opcode]
  · exact fun h => ⟨_, decode_of_admits h, Opcode.command_opcode _ _ _⟩

/-- A word is illegal when no row admits it. -/
theorem decode_error_iff : (∃ e, decode w = .error e) ↔ ∀ o : Opcode, ¬ o.Admits w := by
  constructor
  · rintro ⟨e, he⟩ o ho
    cases he.symm.trans (decode_of_admits ho)
  · intro h
    cases hw : decode w with
    | error e => exact ⟨e, rfl⟩
    | ok i =>
      obtain ⟨o, ho, -⟩ := admits_of_decode hw
      exact absurd ho (h o)

/-- A word with the `OP` of a row is illegal when a field that the row wants 0 is not. -/
theorem decode_error_iff_of_code (h : opField w = o.code) :
    (∃ e, decode w = .error e) ↔
      (o.idxMustBeZero = true ∧ idxField w ≠ 0) ∨ (o.slotMustBeZero = true ∧ slotField w ≠ 0) := by
  have hrow : (∀ o' : Opcode, ¬ o'.Admits w) ↔ ¬ o.Admits w := by
    refine ⟨fun hall => hall o, fun hno o' ho' => hno ?_⟩
    rwa [Opcode.code_injective (h.symm.trans ho'.1)]
  rw [decode_error_iff, hrow, Opcode.Admits]
  tauto

/-! ### The decoder and the encoder -/

/-- The fields of a well-formed command's word are the command's. -/
theorem fields_encode (h : i.wellFormed = true) :
    opField (encode i) = i.opcode.code ∧ slotField (encode i) = i.slot?.getD 0 ∧ idxField (encode i) = i.idxValue := by
  obtain ⟨hs, hx⟩ := Instr.wellFormed_bounds h
  have ho := i.opcode.code_lt
  exact ⟨opField_packWord _ _ _ ho hs hx, slotField_packWord _ _ _ ho hs hx, idxField_packWord _ _ _ ho hs hx⟩

theorem admits_encode (h : i.wellFormed = true) : i.opcode.Admits (encode i) := by
  obtain ⟨hop, hslot, hidx⟩ := fields_encode h
  exact ⟨hop, fun hz => hidx.trans (Instr.idxValue_of_mustBeZero hz),
    fun hz => hslot.trans (Instr.slot_of_mustBeZero hz)⟩

theorem decode_encode (h : i.wellFormed = true) : decode (encode i) = .ok i := by
  obtain ⟨-, hslot, hidx⟩ := fields_encode h
  rw [decode_of_admits (admits_encode h), hslot, hidx, i.command_of_fields]

/-- The command of a row that admits the word has the fields of the word. -/
theorem Opcode.Admits.fields_command (h : o.Admits w) :
    (o.command (slotField w) (idxField w)).slot?.getD 0 = slotField w ∧
    (o.command (slotField w) (idxField w)).idxValue = idxField w := by
  obtain ⟨-, hidx, hslot⟩ := h
  rw [Opcode.command_slot, Opcode.command_idxValue]
  exact ⟨ite_eq_right_iff.mpr fun hz => (hslot hz).symm, ite_eq_right_iff.mpr fun hz => (hidx hz).symm⟩

theorem wellFormed_of_decode (h : decode w = .ok i) : i.wellFormed = true := by
  obtain ⟨o, ho, rfl⟩ := admits_of_decode h
  obtain ⟨hslot, hidx⟩ := ho.fields_command
  exact Instr.wellFormed_of_bounds (hslot.trans_lt (slotField_lt w)) (hidx.trans_lt (idxField_lt w))

theorem encode_of_decode (h : decode w = .ok i) : encode i = w := by
  obtain ⟨o, ho, rfl⟩ := admits_of_decode h
  obtain ⟨hslot, hidx⟩ := ho.fields_command
  rw [encode, Opcode.command_opcode, hslot, hidx, ← ho.1, packWord_fields]

/-! ### Mask and match -/

theorem bits_and (v w : Word) (hi lo : Nat) : bits (v &&& w) hi lo = bits v hi lo &&& bits w hi lo := by
  simp only [bits, BitVec.toNat_and, Nat.and_div_two_pow, Nat.and_mod_two_pow]

/-- Two words are equal when their three fields are. -/
theorem word_eq_iff_fields {v w : Word} :
    v = w ↔ opField v = opField w ∧ slotField v = slotField w ∧ idxField v = idxField w := by
  refine ⟨fun h => h ▸ ⟨rfl, rfl, rfl⟩, fun ⟨hop, hslot, hidx⟩ => ?_⟩
  rw [← packWord_fields v, hop, hslot, hidx, packWord_fields]

theorem Opcode.fields_matchBits (o : Opcode) :
    opField o.matchBits = o.code ∧ slotField o.matchBits = 0 ∧ idxField o.matchBits = 0 := by
  cases o <;> decide

theorem Opcode.fields_mask (o : Opcode) :
    opField o.mask = 0xFF ∧ slotField o.mask = (if o.slotMustBeZero then 0xFF else 0) ∧
    idxField o.mask = (if o.idxMustBeZero then 0xFFFF else 0) := by
  cases o <;> decide

/-- A field under a mask that covers it whole or not at all. -/
theorem and_fieldMask_eq_zero_iff {x n : Nat} (hx : x < 2 ^ n) (covered : Bool) :
    x &&& (if covered then 2 ^ n - 1 else 0) = 0 ↔ (covered = true → x = 0) := by
  cases covered with
  | false => simp
  | true => simp [Nat.and_two_pow_sub_one_of_lt_two_pow hx]

theorem and_mask_eq_matchBits_iff : w &&& o.mask = o.matchBits ↔ o.Admits w := by
  obtain ⟨hop, hslot, hidx⟩ := o.fields_mask
  obtain ⟨mop, mslot, midx⟩ := o.fields_matchBits
  have hopField : opField (w &&& o.mask) = opField w := by
    rw [opField, bits_and, ← opField, ← opField, hop]
    exact Nat.and_two_pow_sub_one_of_lt_two_pow (n := 8) (opField_lt w)
  have hslotField : slotField (w &&& o.mask) = 0 ↔ (o.slotMustBeZero = true → slotField w = 0) := by
    rw [slotField, bits_and, ← slotField, ← slotField, hslot]
    exact and_fieldMask_eq_zero_iff (n := 8) (slotField_lt w) _
  have hidxField : idxField (w &&& o.mask) = 0 ↔ (o.idxMustBeZero = true → idxField w = 0) := by
    rw [idxField, bits_and, ← idxField, ← idxField, hidx]
    exact and_fieldMask_eq_zero_iff (n := 16) (idxField_lt w) _
  rw [word_eq_iff_fields, mop, mslot, midx, hopField, hslotField, hidxField, Opcode.Admits]
  tauto

end

end Sys2Proof

namespace Sys2Proof.Machine

section
variable {s : State} {i : Instr} {slot : Nat}

/-! ### A slot number that names no slot (R73, R93 step 3) -/

theorem configure_of_noSlot (built : Except FaultCause FilterUnit) (hf : s.faulted = false)
    (h : s.params.nslots ≤ slot) : configure i slot built s = .next (raise .slotState (encode i) s) :=
  command_of_error s i hf (if_pos h)

theorem unitCommand_of_noSlot {α : Type} (sel : FilterUnit → Option α) (k : α → Except FaultCause State)
    (hf : s.faulted = false) (h : s.params.nslots ≤ slot) :
    command i (withUnit slot sel k s) s = .next (raise .slotState (encode i) s) :=
  command_of_error s i hf (withUnit_of_noSlot s slot sel k h)

/-- Every command that names a slot raises `SLOT_STATE` when the number is at or above `NSLOTS`. -/
theorem exec_of_noSlot (hf : s.faulted = false) (names : i.slot? = some slot) (h : s.params.nslots ≤ slot) :
    exec i s = .next (raise .slotState (encode i) s) := by
  cases i with
  | ldi | lds => cases names
  | cfgTdl | cfgFfc | cfgFbc | cfgTvd =>
    cases names
    exact configure_of_noSlot _ hf h
  | cfgFof | cfgOpl | cfgDfc | cfgOla =>
    cases names
    exact (realScalarOnly_of_noSlot s slot _ _ h).trans (configure_of_noSlot _ hf h)
  | advTdl | advFfc | advFbc | advTvd | free =>
    cases names
    exact unitCommand_of_noSlot _ _ hf h
  | advFof | advOpl | advOla | dfcWr | dfcRun | dfcRd =>
    cases names
    exact (realScalarOnly_of_noSlot s slot _ _ h).trans (unitCommand_of_noSlot _ _ hf h)

/-! ### The fields of the word in `FSTAT` (R212) -/

theorem fstatSlot_fstatImage (c : FaultCause) (w : Word) : fstatSlot (fstatImage c w) = slotField w :=
  have hc := c.code_range
  slotField_packWord _ _ _ (by omega) (slotField_lt w) (Nat.lt_trans (opField_lt w) (by decide))

theorem fstatOp_fstatImage (c : FaultCause) (w : Word) : fstatOp (fstatImage c w) = opField w := by
  have hc := c.code_range
  have ho := opField_lt w
  have hs := slotField_lt w
  rw [fstatImage_eq_packWord, fstatOp, bits, packWord_toNat _ _ _ (by omega) hs (by omega)]
  omega

end

end Sys2Proof.Machine

open Sys2Proof Sys2Proof.Machine

/-- Settles O1: the row of the command admits its word, whose fields are the command's. -/
theorem decodeOfEncodeIsTheCommand : Obligations.DecodeOfEncodeIsTheCommand := by
  unfold Obligations.DecodeOfEncodeIsTheCommand
  exact fun _ => decode_encode

/-- Settles O2: the command has the fields of the word, and a word is its three fields. -/
theorem encodeOfDecodeIsTheWord : Obligations.EncodeOfDecodeIsTheWord := by
  unfold Obligations.EncodeOfDecodeIsTheWord
  exact fun _ _ h => ⟨wellFormed_of_decode h, encode_of_decode h⟩

/-- Settles O3: decoding to a row and matching under its mask are both that the row admits the word. -/
theorem wordIsCommandIffMaskedMatch : Obligations.WordIsCommandIffMaskedMatch := by
  unfold Obligations.WordIsCommandIffMaskedMatch
  exact ⟨rfl, fun _ _ => decode_row_iff.trans and_mask_eq_matchBits_iff.symm, fun _ _ => Opcode.code_of_buildsKind,
    fun _ _ => Opcode.code_of_needsKind⟩

/-- Settles O4: an assigned `OP` leaves the fields that its row wants 0 to decide; a legal word is the word of its
command, so that the command's own fault records it. -/
theorem illegalWordsAreExactlyThese : Obligations.IllegalWordsAreExactlyThese := by
  unfold Obligations.IllegalWordsAreExactlyThese
  intro w
  refine ⟨?_, fun s e hf hw => issue_of_illegal s hf hw, fun s i slot hf hw names h => ?_⟩
  · change _ ↔ opField w ∉ Opcode.all.map Opcode.code ∨ _
    by_cases hop : opField w ∈ Opcode.all.map Opcode.code
    · obtain ⟨o, ho⟩ := Opcode.mem_codes_iff.mp hop
      rw [decode_error_iff_of_code ho.symm, ← ho, Opcode.mem_codes_idx_iff, Opcode.mem_codes_slot_iff,
        Bool.not_eq_false, or_iff_right (not_not_intro (ho ▸ hop))]
    · refine iff_of_true (decode_error_iff.mpr fun o ho => hop ?_) (.inl hop)
      exact Opcode.mem_codes_iff.mpr ⟨o, ho.1.symm⟩
  · rw [issue_of_command s hf hw, exec_of_noSlot hf names h, encode_of_decode hw]

/-- Settles O5: each word is the word of its command (`decode_encode`); no row has the `OP` of the last. -/
theorem sampleWordsDecodeToTheirCommands : Obligations.SampleWordsDecodeToTheirCommands := by
  unfold Obligations.SampleWordsDecodeToTheirCommands
  exact ⟨decode_encode (i := .lds 15) rfl, decode_encode (i := .cfgTdl 255 65535) rfl,
    decode_encode (i := .cfgFfc 2) rfl, decode_encode (i := .advTvd 5) rfl, decode_encode (i := .advOla 255) rfl,
    decode_encode (i := .dfcRun 3) rfl, decode_encode (i := .free 1) rfl, rfl⟩

/-- Settles O10: the step raises `ILLEGAL_OP` and moves `cp`; the image of the fault holds the fields of the word. -/
theorem illegalWordLatchesIllegalOp : Obligations.IllegalWordLatchesIllegalOp := by
  unfold Obligations.IllegalWordLatchesIllegalOp
  intro s w e ha hf hw
  exact ⟨fstatImage .illegalOp w, step_of_perform ha (issue_of_illegal s hf hw), fstatCause_fstatImage _ w,
    fstatSlot_fstatImage _ w, fstatOp_fstatImage _ w, fstatReserved_fstatImage _ w⟩

end

section
/-!
The staging and slot commands, and the prelude of every command (spec/40_staging_and_slots.md R90 to R93). A command
that names a slot raises `SLOT_STATE` when the slot's content is not what step 3 of R93 asks for: `CFG.*` an empty slot
(`exec_of_occupied`), `ADV.*` and `DFC.*` a unit of their kind (`exec_of_otherKind`), `FREE` any unit
(`exec_free_of_empty`). The guard of R8 never stands in the way: it asks for the content that is missing.
-/

namespace Sys2Proof.Machine

section
variable {s : State} {i : Instr} {slot : Nat}

/-! ### The kind in a slot -/

theorem FilterUnit.kind_ne_none (u : FilterUnit) : u.kind ≠ .none := by cases u <;> nofun

theorem kindAt_of_held {u : FilterUnit} (held : s.slotAt slot = some u) : s.kindAt slot = u.kind := by
  simp [State.kindAt, held]

theorem kindAt_eq_none_iff : s.kindAt slot = .none ↔ s.slotAt slot = none := by
  refine ⟨fun hk => ?_, kindAt_of_empty⟩
  cases hu : s.slotAt slot with
  | none => rfl
  | some u => exact absurd (kindAt_of_held hu ▸ hk) u.kind_ne_none

theorem held_of_kindAt_ne_none (h : s.kindAt slot ≠ .none) : ∃ u, s.slotAt slot = some u :=
  Option.ne_none_iff_exists'.mp fun empty => h (kindAt_of_empty empty)

/-- A selector of the units of one kind finds nothing in a slot of another kind, nor in an empty one. -/
theorem selected_eq_none_of_otherKind {α : Type} {sel : FilterUnit → Option α} {wrap : α → FilterUnit} {k : Kind}
    (hsel : ∀ u f, sel f = some u → f = wrap u) (hwrap : ∀ u, (wrap u).kind = k) (h : s.kindAt slot ≠ k) :
    (s.slotAt slot).bind sel = none :=
  Option.eq_none_iff_forall_ne_some.mpr fun u hu =>
    h ((kindAt_of_held (slotAt_of_selected (hsel u) hu)).trans (hwrap u))

/-! ### A slot whose content is not what the command asks for (R93 step 3) -/

theorem configure_of_occupied (built : Except FaultCause FilterUnit) (hf : s.faulted = false)
    (h : s.kindAt slot ≠ .none) : configure i slot built s = .next (raise .slotState (encode i) s) := by
  obtain ⟨u, held⟩ := held_of_kindAt_ne_none h
  refine command_of_error s i hf ?_
  split
  · rfl
  · simp [held]

theorem unitCommand_of_unselected {α : Type} {sel : FilterUnit → Option α} (k : α → Except FaultCause State)
    (hf : s.faulted = false) (h : (s.slotAt slot).bind sel = none) :
    command i (withUnit slot sel k s) s = .next (raise .slotState (encode i) s) :=
  command_of_error s i hf (withUnit_of_wrong s slot sel k h)

/-- `CFG.*` on an occupied slot. -/
theorem exec_of_occupied (hf : s.faulted = false) (names : i.slot? = some slot) (hcfg : configures i.opcode = true)
    (h : s.kindAt slot ≠ .none) : exec i s = .next (raise .slotState (encode i) s) := by
  cases i with
  | cfgTdl | cfgFfc | cfgFbc | cfgTvd =>
    cases names
    exact configure_of_occupied _ hf h
  | cfgFof | cfgOpl | cfgDfc | cfgOla =>
    cases names
    exact (realScalarOnly_of_kind s slot _ _ h).trans (configure_of_occupied _ hf h)
  | ldi | lds | advTdl | advFof | advOpl | advFfc | advFbc | advTvd | advOla | dfcWr | dfcRun | dfcRd | free =>
    cases hcfg

/-- `ADV.*` and `DFC.*` on a slot that holds no unit of their kind. -/
theorem exec_of_otherKind {k : Kind} (hf : s.faulted = false) (names : i.slot? = some slot)
    (needs : needsKind i.opcode = some k) (h : s.kindAt slot ≠ k) :
    exec i s = .next (raise .slotState (encode i) s) := by
  have unselected {α : Type} {sel : FilterUnit → Option α} {wrap : α → FilterUnit}
      (rule : α → Except FaultCause State) (hsel : ∀ u f, sel f = some u → f = wrap u)
      (hwrap : ∀ u, (wrap u).kind = k) :
      command i (withUnit slot sel rule s) s = .next (raise .slotState (encode i) s) :=
    unitCommand_of_unselected rule hf (selected_eq_none_of_otherKind hsel hwrap h)
  have guardPasses (run : StepOutcome) : realScalarOnly slot k run s = run := realScalarOnly_of_kind s slot k run h
  cases i with
  | advTdl => cases names; cases needs; exact unselected _ eq_tdl_of_asTdl fun _ => rfl
  | advFof => cases names; cases needs; exact (guardPasses _).trans (unselected _ eq_fof_of_asFof fun _ => rfl)
  | advOpl => cases names; cases needs; exact (guardPasses _).trans (unselected _ eq_opl_of_asOpl fun _ => rfl)
  | advFfc => cases names; cases needs; exact unselected _ eq_ffc_of_asFfc fun _ => rfl
  | advFbc => cases names; cases needs; exact unselected _ eq_fbc_of_asFbc fun _ => rfl
  | advTvd => cases names; cases needs; exact unselected _ eq_tvd_of_asTvd fun _ => rfl
  | advOla => cases names; cases needs; exact (guardPasses _).trans (unselected _ eq_ola_of_asOla fun _ => rfl)
  | dfcWr | dfcRun | dfcRd =>
    cases names; cases needs; exact (guardPasses _).trans (unselected _ eq_dfc_of_asDfc fun _ => rfl)
  | ldi | lds | cfgTdl | cfgFof | cfgOpl | cfgFfc | cfgFbc | cfgTvd | cfgDfc | cfgOla | free => cases needs

theorem exec_free_of_empty (hf : s.faulted = false) (h : s.slotAt slot = none) :
    exec (.free slot) s = .next (raise .slotState (encode (.free slot)) s) :=
  unitCommand_of_unselected _ hf (by rw [h]; rfl)

/-- `FREE` of an occupied slot (R92). -/
theorem exec_free_of_held {u : FilterUnit} (ready : Ready s slot) (held : s.slotAt slot = some u) :
    exec (.free slot) s = .next (s.withSlot slot none) :=
  command_of_ok s _ _ ready.1 (withUnit_of_unit s slot some _ ready.2 (by rw [held]; rfl))

end

end Sys2Proof.Machine

open Sys2Proof Sys2Proof.Machine

/-- Settles O13: one lemma for each check of step 3; a legal word is the word of its command, so that the command's
own fault records it. -/
theorem preludeOfEveryCommand : Obligations.PreludeOfEveryCommand := by
  unfold Obligations.PreludeOfEveryCommand
  intro w s
  refine ⟨issue_of_faulted s w, fun hf ⟨_, hw⟩ => issue_of_illegal s hf hw, fun i slot hf hw names hslot => ?_,
    fun i hf hw => issue_of_command s hf hw⟩
  rw [issue_of_command s hf hw, ← encode_of_decode hw]
  rcases hslot with noSlot | ⟨hcfg, occupied⟩ | ⟨k, needs, other⟩ | ⟨hfree, empty⟩
  · exact exec_of_noSlot hf names noSlot
  · exact exec_of_occupied hf names hcfg occupied
  · exact exec_of_otherKind hf names needs other
  · cases i <;> cases hfree
    cases names
    exact exec_free_of_empty hf (kindAt_eq_none_iff.mp empty)

/-- Settles O15: the index bound is the one check of `LDI`. -/
theorem ldiStagesOneInteger : Obligations.LdiStagesOneInteger := by
  unfold Obligations.LdiStagesOneInteger
  exact fun s _ hf => ⟨rfl, fun inRange => command_of_ok s _ _ hf (if_neg (Nat.not_le.mpr inRange)),
    fun outOfRange => command_of_error s _ hf (if_pos outOfRange)⟩

/-- Settles O16: the index bound is the one check of `LDS`. -/
theorem ldsStagesOneScalar : Obligations.LdsStagesOneScalar := by
  unfold Obligations.LdsStagesOneScalar
  exact fun s _ hf => ⟨rfl, fun inRange => command_of_ok s _ _ hf (if_neg (Nat.not_le.mpr inRange)),
    fun outOfRange => command_of_error s _ hf (if_pos outOfRange)⟩

/-- Settles O17: `FREE` writes the empty content to its slot and to no other. -/
theorem freeEmptiesItsSlot : Obligations.FreeEmptiesItsSlot := by
  unfold Obligations.FreeEmptiesItsSlot
  intro s slot ready occupied
  obtain ⟨u, held⟩ := held_of_kindAt_ne_none occupied
  exact ⟨rfl, _, exec_free_of_held ready held, rfl, s.withSlot_slotAt_same slot none,
    fun _ hn => s.withSlot_slotAt_other none hn⟩

end

section
/-!
The tapped delay line (spec/41_tapped_delay_line.md R100 to R103), and the ring buffers of TDL, TVD, FFC and FBC. A
sample written at the write index, which then moves on by one, leaves a ring at the last samples (`RingHolds.push`);
and a procedure that feeds a unit sample by sample keeps what each sample keeps (`drain_induction`).
-/

namespace Sys2Proof.Machine

/-! ### Ring buffers (R102) -/

section
variable {buf : Memory Scalar} {w cap j n d : Nat} {xs : List Scalar}

theorem ringBack_zero (hw : w < cap) : ringBack w 0 cap = w := by
  rw [ringBack_of_lt hw (Nat.zero_lt_of_lt hw), if_pos (Nat.zero_le w), Nat.sub_zero]

/-- A whole turn back is no step back. -/
theorem ringBack_cap (w cap : Nat) : ringBack w cap cap = ringBack w 0 cap := by simp [ringBack]

/-- One step further back from one step further on. -/
theorem ringBack_succ (w j cap : Nat) : ringBack ((w + 1) % cap) (j + 1) cap = ringBack w j cap := by
  simp [ringBack]

theorem ringBack_ne (hw : w < cap) (hj : 1 ≤ j) (hlt : j < cap) : ringBack w j cap ≠ w := by
  rw [ringBack_of_lt hw hlt]
  split <;> omega

theorem past_eq_getD (h : d ≤ n) : past xs n d = xs.getD (n - d) Scalar.zero := if_pos h

theorem past_eq_zero (h : n < d) : past xs n d = Scalar.zero := if_neg (Nat.not_le.mpr h)

/-- Samples that follow do not change what lies before them. -/
theorem past_append (ys : List Scalar) (h : n < xs.length + d) : past (xs ++ ys) n d = past xs n d := by
  by_cases hd : d ≤ n
  · rw [past_eq_getD hd, past_eq_getD hd, List.getD_append _ _ _ _ (by omega)]
  · rw [past_eq_zero (by omega), past_eq_zero (by omega)]

theorem past_last (xs : List Scalar) (x : Scalar) : past (xs ++ [x]) (xs.length + 1) 1 = x := by
  rw [past_eq_getD (by omega), Nat.add_sub_cancel, List.getD_append_right _ _ _ _ (Nat.le_refl _), Nat.sub_self]
  rfl

/-- Seen from one sample later, each sample lies one further back. -/
theorem past_succ (xs : List Scalar) (n d : Nat) : past xs (n + 1) (d + 1) = past xs n d := by
  simp [past]

/-- A fresh ring holds the last samples of none. -/
theorem ringHolds_nil (w cap : Nat) : RingHolds [] w cap [] := fun _ hj _ => (past_eq_zero hj).symm

/-- The write of R101: `buf[w] <- x`, and `w` moves on by one. -/
theorem RingHolds.push (x : Scalar) (hw : w < cap) (h : RingHolds buf w cap xs) :
    RingHolds (setCell buf w x) ((w + 1) % cap) cap (xs ++ [x]) := by
  intro j hj hcap
  obtain ⟨i, rfl⟩ : ∃ i, j = i + 1 := ⟨j - 1, by omega⟩
  change cell (setCell buf w x) (ringBack ((w + 1) % cap) (i + 1) cap) = _
  rw [ringBack_succ, List.length_append, List.length_singleton]
  by_cases hi : i = 0
  · rw [hi, ringBack_zero hw, cell_setCell_same, past_last]
  · have hkept := h i (by omega) (by omega)
    rw [cell_setCell_other _ _ _ _ (ringBack_ne hw (by omega) hcap), past_succ, past_append _ (by omega)]
    exact hkept

/-- What a tap reads: a delay of 0 reads the cell about to be written, which is the oldest sample (R103). -/
theorem RingHolds.tap (h : RingHolds buf w cap xs) (hcap : 1 ≤ cap) (hd : d ≤ cap) :
    cell buf (ringBack w d cap) = past xs xs.length (if d = 0 then cap else d) := by
  split
  · next hzero =>
    rw [hzero, ← ringBack_cap]
    exact h cap hcap (Nat.le_refl _)
  · exact h d (by omega) hd

end

/-! ### `ADV` on the units with a ring (R101, R131, R134, R151) -/

section
variable {s : State} {slot : Nat}

/-- `ADV.*` of the unit that its slot holds. -/
theorem advance_of_held {α : Type} {i : Instr} (sel : FilterUnit → Option α) {wrap : α → FilterUnit}
    (adv : α → Except FaultCause (α × Scalar)) {f : FilterUnit} {u : α} {r : α × Scalar} (ready : Ready s slot)
    (held : s.slotAt slot = some f) (hsel : sel f = some u) (hr : adv u = .ok r) :
    advance i slot sel wrap adv s = .next ((s.withSlot slot (some (wrap r.1))).withYout r.2) :=
  advance_of_ok s i slot sel wrap adv ready.1 ready.2 (by rw [held]; exact hsel) hr

theorem slotAt_advanced (f : Option FilterUnit) (y : Scalar) : ((s.withSlot slot f).withYout y).slotAt slot = f :=
  s.withSlot_slotAt_same slot f

theorem exec_advTdl {u : Tdl} (ready : Ready s slot) (held : s.slotAt slot = some (.tdl u)) :
    exec (.advTdl slot) s =
      .next ((s.withSlot slot (some (.tdl (advanceTdl s.params.arith s.xin u).1))).withYout
        (tdlOutput s.params.arith u s.xin)) :=
  advance_of_held FilterUnit.asTdl (fun u => .ok (advanceTdl s.params.arith s.xin u)) ready held rfl rfl

theorem exec_advFfc {u : Ffc} (ready : Ready s slot) (held : s.slotAt slot = some (.ffc u)) :
    exec (.advFfc slot) s =
      .next ((s.withSlot slot (some (.ffc (advanceFfc s.params.arith s.xin u).1))).withYout
        (advanceFfc s.params.arith s.xin u).2) :=
  advance_of_held FilterUnit.asFfc (fun u => .ok (advanceFfc s.params.arith s.xin u)) ready held rfl rfl

theorem exec_advFbc {u : Fbc} (ready : Ready s slot) (held : s.slotAt slot = some (.fbc u)) :
    exec (.advFbc slot) s =
      .next ((s.withSlot slot (some (.fbc (advanceFbc s.params.arith s.xin u).1))).withYout
        (advanceFbc s.params.arith s.xin u).2) :=
  advance_of_held FilterUnit.asFbc (fun u => .ok (advanceFbc s.params.arith s.xin u)) ready held rfl rfl

/-- `ADV.TVD` at a delay in range. -/
theorem exec_advTvd {u : Tvd} (ready : Ready s slot) (held : s.slotAt slot = some (.tvd u))
    (hd : delayInRange s.din u.maxDelay = true) :
    exec (.advTvd slot) s =
      .next ((s.withSlot slot
          (some (.tvd { u with buf := setCell u.buf u.w s.xin, w := (u.w + 1) % u.maxDelay }))).withYout
        (sadd s.params.arith (smul s.params.arith u.a s.xin)
          (smul s.params.arith u.b (tvdInterp s.params.arith u s.xin s.din)))) :=
  advance_of_held FilterUnit.asTvd (advanceTvd s.params.arith s.xin s.din) ready held rfl (if_neg (by simp [hd]))

end

/-! ### `CFG.TDL` (R100) -/

section
variable {ds : List Nat} {s : State} {slot k l c : Nat}

theorem maxDelay_mem (h : ds ≠ []) : maxDelay ds ∈ ds := by
  rw [maxDelay, List.foldl_max_eq_max h, Nat.zero_max]
  exact List.max_mem h

theorem tdlCap_mem (h : ds ≠ []) : tdlCap ds ∈ ds := by
  rw [tdlCap, if_neg (by simpa using h)]
  exact maxDelay_mem h

theorem lt_maxDelay_iff : c < maxDelay ds ↔ ∃ d ∈ ds, c < d := by
  constructor
  · intro h
    have hne : ds ≠ [] := by
      rintro rfl
      exact Nat.not_lt_zero c h
    exact ⟨_, maxDelay_mem hne, h⟩
  · rintro ⟨d, hd, hc⟩
    exact Nat.lt_of_lt_of_le hc (le_maxDelay_of_mem hd)

theorem lt_maxDelay_piRange_iff : c < maxDelay (s.piRange k) ↔ ∃ i < k, c < (s.piAt i).toNat := by
  simp [lt_maxDelay_iff, State.piRange]

/-- The third check of R100, cell by cell. -/
theorem someDelay_iff :
    ¬(1 ≤ k ∧ maxDelay (s.piRange k) = 0) ↔ k = 0 ∨ ∃ i < k, (s.piAt i).toNat ≠ 0 := by
  have hpos : maxDelay (s.piRange k) ≠ 0 ↔ ∃ i < k, (s.piAt i).toNat ≠ 0 := by
    simpa only [Nat.pos_iff_ne_zero] using lt_maxDelay_piRange_iff (c := 0)
  rw [← hpos]
  omega

/-- The fourth check of R100, cell by cell. -/
theorem lt_tdlCap_piRange_iff :
    c < tdlCap (s.piRange k) ↔ (k = 0 ∧ c < 1) ∨ ∃ i < k, c < (s.piAt i).toNat := by
  rw [tdlCap, piRange_length]
  split
  · next hk => simp [hk]
  · next hk => simp [hk, lt_maxDelay_piRange_iff]

theorem buildTdl_of_outside (h : s.params.npi < k ∨ s.params.nps < l) : buildTdl k l s = .error .cfgSize :=
  if_pos h

theorem buildTdl_of_miscounted (h : l ≠ k + 1) : buildTdl k l s = .error .cfgSize := by
  unfold buildTdl
  rw [if_pos h, ite_self]

section
variable (inside : ¬(s.params.npi < k ∨ s.params.nps < k + 1))
include inside

theorem buildTdl_of_zeroDelays (h : 1 ≤ k ∧ maxDelay (s.piRange k) = 0) :
    buildTdl k (k + 1) s = .error .cfgRange := by
  rw [buildTdl, if_neg inside, if_neg (by simp), if_pos h]

theorem buildTdl_of_overCapmax (hd : ¬(1 ≤ k ∧ maxDelay (s.piRange k) = 0))
    (h : s.params.capmax < tdlCap (s.piRange k)) : buildTdl k (k + 1) s = .error .cfgResource := by
  rw [buildTdl, if_neg inside, if_neg (by simp), if_neg hd, if_pos h]

theorem buildTdl_of_passed (hd : ¬(1 ≤ k ∧ maxDelay (s.piRange k) = 0))
    (h : ¬s.params.capmax < tdlCap (s.piRange k)) :
    buildTdl k (k + 1) s = .ok (.tdl (freshTdl (s.piRange k) (s.psRange (k + 1)))) := by
  rw [buildTdl, if_neg inside, if_neg (by simp), if_neg hd, if_neg h]

end

theorem exec_cfgTdl_of_error {c : FaultCause} (ready : Ready s slot) (empty : s.slotAt slot = none)
    (h : buildTdl s.iargNat l s = .error c) :
    exec (.cfgTdl slot l) s = .next (raise c (encode (.cfgTdl slot l)) s) :=
  configure_of_error s _ ready.1 ready.2 empty h

theorem exec_cfgTdl_of_ok {u : FilterUnit} (ready : Ready s slot) (empty : s.slotAt slot = none)
    (h : buildTdl s.iargNat l s = .ok u) : exec (.cfgTdl slot l) s = .next (s.withSlot slot (some u)) :=
  configure_of_ok s _ ready.1 ready.2 empty h

theorem getElem?_piRange {i : Nat} (hi : i < k) : (s.piRange k)[i]? = some (s.piAt i).toNat := by
  simp [State.piRange, hi]

theorem getElem?_psRange {i : Nat} (hi : i < k) : (s.psRange k)[i]? = some (s.psAt i) := by
  simp [State.psRange, hi]

end

/-! ### Samples through a unit (R192) -/

/-- What each input keeps is kept over a list of inputs: `P` speaks of the inputs so far, the outputs so far and the
state. -/
theorem drain_induction {α : Type} {one : α → State → HostOutcome Scalar} {P : List α → List Scalar → State → Prop}
    (inputs : List α)
    (hone : ∀ x ∈ inputs, ∀ xs ys s, P xs ys s → ∃ t y, one x s = .next (t, y) ∧ P (xs ++ [x]) (ys ++ [y]) t)
    {xs : List α} {ys : List Scalar} {s : State} (h : P xs ys s) :
    ∃ t zs, drain one inputs { capacity := none, items := ys } s = .next (t, { capacity := none, items := zs }) ∧
      P (xs ++ inputs) zs t := by
  induction inputs generalizing xs ys s with
  | nil => exact ⟨s, ys, rfl, by simpa using h⟩
  | cons x rest ih =>
    obtain ⟨t, y, hxt, ht⟩ := hone x List.mem_cons_self xs ys s h
    obtain ⟨r, zs, hdrain, hr⟩ := ih (fun x' hx' => hone x' (List.mem_cons_of_mem x hx')) ht
    exact ⟨r, zs, (drain_cons _ rest hxt (writeNext_unbounded ys y)).trans hdrain, by simpa using hr⟩

section
variable {kind : AdvKind} {slot : Nat} {s : State} {x : Scalar}

/-- `process` keeps what each sample keeps, where that holds before the first sample and of a running block only. -/
theorem process_induction {P : List Scalar → List Scalar → State → Prop} (source : List Scalar) (n : Nat)
    (hone : ∀ x ∈ withFlush source n, ∀ xs ys s, P xs ys s →
      ∃ t y, oneSample kind slot x s = .next (t, y) ∧ P (xs ++ [x]) (ys ++ [y]) t)
    (hrun : ∀ xs ys s, P xs ys s → s.faulted = false) (h : P [] [] s) :
    ∃ t ys, process kind slot source n s = .next (t, ys) ∧ P (withFlush source n) ys t := by
  obtain ⟨t, ys, hdrain, ht⟩ := drain_induction (withFlush source n) hone h
  refine ⟨t, ys, ?_, ht⟩
  rw [process_eq, hdrain, andThen_next, unlessFaulted_of_running _ (hrun _ _ _ ht), andThen_next]

theorem AdvKind.wellFormed_instr (hslot : slot < 256) : (kind.instr slot).wellFormed = true := by
  refine Instr.wellFormed_of_bounds ?_ ?_
  · cases kind <;> exact hslot
  · cases kind <;> exact Nat.zero_lt_succ _

/-- One sample through a unit whose `ADV` answers: the sample it answers, and the unit it leaves in the slot. -/
theorem oneSample_of_exec {f : FilterUnit} {y : Scalar} (hslot : slot < 256) (ready : Ready s slot)
    (h : exec (kind.instr slot) (s.withXin x) = .next (((s.withXin x).withSlot slot (some f)).withYout y)) :
    ∃ t, oneSample kind slot x s = .next (t, y) ∧ Ready t slot ∧ t.params = s.params ∧ t.slotAt slot = some f := by
  have hcommand : perform (commandOf (kind.instr slot)) (s.withXin x) = _ :=
    (perform_command (s := s.withXin x) ready.1 (decode_encode (AdvKind.wellFormed_instr hslot))).trans h
  have hfeed : performAll (feedActions kind slot x) s = _ :=
    (performAll_cons _ rfl).trans (performAll_cons [] hcommand)
  have hrun : (((s.withXin x).withSlot slot (some f)).withYout y).faulted = false := ready.1
  refine ⟨(((s.withXin x).withSlot slot (some f)).withYout y).withOutput y, ?_, ready, rfl,
    (s.withXin x).withSlot_slotAt_same slot (some f)⟩
  rw [oneSample, readingYout, hfeed, performAll_nil, andThen_next, unlessFaulted_of_running _ hrun, andThen_next]
  rfl

end

/-! ### The TDL as an FIR filter (R102, R103) -/

section
variable (ar : Arith) (delays : List Nat) (coeffs : List Scalar)

/-- The delay that a listed one stands for: 0 stands for the capacity (R103). -/
def tapDelay (i : Nat) : Nat := if delays.getD i 0 = 0 then tdlCap delays else delays.getD i 0

/-- `b_0·x[n]`, then `b_i·x[n − M_i]` added tap by tap (R102). -/
def firSum (xs : List Scalar) (n : Nat) : Scalar :=
  (List.range delays.length).foldl
    (fun acc i => sadd ar acc (smul ar (coeffs.getD (i + 1) Scalar.zero) (past xs n (tapDelay delays i))))
    (smul ar (coeffs.getD 0 Scalar.zero) (xs.getD n Scalar.zero))

variable {delays}

theorem delay_le_tdlCap (i : Nat) : delays.getD i 0 ≤ tdlCap delays := by
  rcases Nat.lt_or_ge i delays.length with hi | hi
  · rw [List.getD_eq_getElem _ _ hi]
    exact le_tdlCap_of_mem (List.getElem_mem hi)
  · rw [List.getD_eq_default _ _ hi]
    exact Nat.zero_le _

theorem one_le_tapDelay (hcap : 1 ≤ tdlCap delays) (i : Nat) : 1 ≤ tapDelay delays i := by
  unfold tapDelay
  split <;> omega

/-- The sum at a sample does not see the samples that follow. -/
theorem firSum_append {xs : List Scalar} (ys : List Scalar) {n : Nat} (hn : n < xs.length) :
    firSum ar delays coeffs (xs ++ ys) n = firSum ar delays coeffs xs n := by
  have htaps (i : Nat) : past (xs ++ ys) n (tapDelay delays i) = past xs n (tapDelay delays i) :=
    past_append ys (Nat.lt_add_right _ hn)
  simp only [firSum, htaps, List.getD_append xs ys _ n hn]

/-- The unit of a fresh TDL after some samples: its ring has moved on. -/
def runningTdl (delays : List Nat) (coeffs : List Scalar) (buf : Memory Scalar) (w : Nat) : Tdl :=
  { freshTdl delays coeffs with buf := buf, w := w }

/-- The output of a TDL whose ring is at the last samples is the sum at the new one. -/
theorem tdlOutput_eq_firSum {buf : Memory Scalar} {w : Nat} {xs : List Scalar} (hcap : 1 ≤ tdlCap delays)
    (h : RingHolds buf w (tdlCap delays) xs) (x : Scalar) :
    tdlOutput ar (runningTdl delays coeffs buf w) x = firSum ar delays coeffs (xs ++ [x]) xs.length := by
  have htap (i : Nat) : cell buf (ringBack w (delays.getD i 0) (tdlCap delays)) =
      past (xs ++ [x]) xs.length (tapDelay delays i) := by
    rw [past_append _ (Nat.lt_add_of_pos_right (one_le_tapDelay hcap i))]
    exact h.tap hcap (delay_le_tdlCap i)
  have hnew : (xs ++ [x]).getD xs.length Scalar.zero = x := by
    rw [List.getD_append_right _ _ _ _ (Nat.le_refl _), Nat.sub_self]
    rfl
  simp only [tdlOutput, firSum, runningTdl, freshTdl, htap, hnew]

/-- The slot holds the TDL of these delays and coefficients after the samples `xs`, and its outputs `ys` were the
sums. -/
structure TdlAfter (ar : Arith) (slot : Nat) (delays : List Nat) (coeffs xs ys : List Scalar) (s : State) : Prop where
  ready : Ready s slot
  arith : s.params.arith = ar
  ring : ∃ buf w, s.slotAt slot = some (.tdl (runningTdl delays coeffs buf w)) ∧ w < tdlCap delays ∧
    RingHolds buf w (tdlCap delays) xs
  length : ys.length = xs.length
  outputs : ∀ n < xs.length, ys.getD n Scalar.zero = firSum ar delays coeffs xs n

variable {ar} {coeffs} {slot : Nat} {xs ys : List Scalar} {s : State}

theorem tdlAfter_fresh (ready : Ready s slot) (hcap : 1 ≤ tdlCap delays)
    (held : s.slotAt slot = some (.tdl (freshTdl delays coeffs))) :
    TdlAfter s.params.arith slot delays coeffs [] [] s where
  ready := ready
  arith := rfl
  ring := ⟨[], 0, held, hcap, ringHolds_nil _ _⟩
  length := rfl
  outputs := nofun

/-- One more sample. -/
theorem TdlAfter.oneSample (h : TdlAfter ar slot delays coeffs xs ys s) (hslot : slot < 256) (x : Scalar) :
    ∃ t y, oneSample .tdl slot x s = .next (t, y) ∧
      TdlAfter ar slot delays coeffs (xs ++ [x]) (ys ++ [y]) t := by
  obtain ⟨ready, rfl, ⟨buf, w, held, hw, hring⟩, hlength, houtputs⟩ := h
  have hcap : 1 ≤ tdlCap delays := Nat.one_le_of_lt hw
  obtain ⟨t, hone, ready_t, hparams, held_t⟩ :=
    oneSample_of_exec (kind := .tdl) hslot ready (exec_advTdl (s := s.withXin x) ready held)
  refine ⟨t, _, hone, ready_t, by rw [hparams],
    ⟨_, _, held_t, Nat.mod_lt _ hcap, hring.push x hw⟩, by simp [hlength], fun n hn => ?_⟩
  rcases Nat.lt_or_ge n xs.length with hold | hnew
  · rw [List.getD_append _ _ _ _ (hlength ▸ hold), firSum_append _ _ _ hold]
    exact houtputs n hold
  · have hlast : n = xs.length := Nat.le_antisymm (by simpa using hn) hnew
    rw [hlast, List.getD_append_right _ _ _ _ (Nat.le_of_eq hlength), hlength, Nat.sub_self]
    exact tdlOutput_eq_firSum _ coeffs hcap hring x

end

end Sys2Proof.Machine

open Sys2Proof Sys2Proof.Machine

/-- Settles O18: one lemma for each check of R100, in their order, and the unit they leave. -/
theorem cfgTdlBuildsTheStagedTaps : Obligations.CfgTdlBuildsTheStagedTaps := by
  unfold Obligations.CfgTdlBuildsTheStagedTaps
  rintro s slot l k ready empty rfl
  have inside {n : Nat} (hn : n ≤ s.params.npi) (hl : n + 1 ≤ s.params.nps) :
      ¬(s.params.npi < n ∨ s.params.nps < n + 1) := by omega
  refine ⟨rfl, fun outside => ?_, fun _ _ miscounted => ?_, fun hk hl hc hpos zeros => ?_,
    fun hk hl hc delayed large => ?_, fun hk hl hc delayed hone fits => ?_⟩
  · exact exec_cfgTdl_of_error ready empty (buildTdl_of_outside outside)
  · exact exec_cfgTdl_of_error ready empty (buildTdl_of_miscounted miscounted)
  · subst hc
    refine exec_cfgTdl_of_error ready empty (buildTdl_of_zeroDelays (inside hk hl) (not_not.mp fun h => ?_))
    rcases someDelay_iff.mp h with hzero | ⟨i, hi, hne⟩
    · exact absurd hpos (Nat.not_le.mpr (Nat.lt_one_iff.mpr hzero))
    · exact hne (zeros i hi)
  · subst hc
    exact exec_cfgTdl_of_error ready empty
      (buildTdl_of_overCapmax (inside hk hl) (someDelay_iff.mpr delayed) (lt_tdlCap_piRange_iff.mpr large))
  · subst hc
    have within : ¬s.params.capmax < tdlCap (s.piRange s.iarg.toNat) := by
      rw [lt_tdlCap_piRange_iff]
      rintro (⟨hzero, hlt⟩ | ⟨i, hi, hlt⟩)
      · exact Nat.not_lt.mpr (hone hzero) hlt
      · exact Nat.not_lt.mpr (fits i hi) hlt
    refine ⟨_, exec_cfgTdl_of_ok ready empty
      (buildTdl_of_passed (inside hk hl) (someDelay_iff.mpr delayed) within), piRange_length _ _,
      piRange_length _ _, fun i => getElem?_piRange, psRange_length _ _, fun i => getElem?_psRange,
      fun hzero => if_pos ((piRange_length _ _).trans hzero), fun hpos => ⟨tdlCap_mem ?_, fun d => le_tdlCap_of_mem⟩,
      fun a => cell_nil a, rfl⟩
    exact List.ne_nil_of_length_pos (Nat.lt_of_lt_of_eq hpos (piRange_length _ _).symm)

/-- Settles O19: the rule of `ADV.TDL`, its sum written out. -/
theorem advTdlSumsTheTapsThenWrites : Obligations.AdvTdlSumsTheTapsThenWrites := by
  unfold Obligations.AdvTdlSumsTheTapsThenWrites
  exact fun s slot u ready held => ⟨rfl, exec_advTdl ready held⟩

/-- Settles O20, by induction on the samples: the ring stays at the last samples, and each output was the sum. -/
theorem tdlStreamIsTheFirSum : Obligations.TdlStreamIsTheFirSum := by
  unfold Obligations.TdlStreamIsTheFirSum
  intro s slot delays coeffs xs ready hslot _ hcap held
  obtain ⟨t, ys, hprocess, hafter⟩ :=
    process_induction (kind := .tdl) (P := TdlAfter s.params.arith slot delays coeffs) xs 0
      (fun x _ _ _ _ h => TdlAfter.oneSample h hslot x)
      (fun _ _ _ h => h.ready.1) (tdlAfter_fresh ready hcap held)
  have hflush : withFlush xs 0 = xs := List.append_nil xs
  rw [hflush] at hafter
  exact ⟨t, ys, hprocess, hafter.length, hafter.outputs⟩

/-- Settles O48: each of the four writes a sample at the write index of its rings and moves it on by one. -/
theorem advKeepsRingsAtTheLastSamples : Obligations.AdvKeepsRingsAtTheLastSamples := by
  unfold Obligations.AdvKeepsRingsAtTheLastSamples
  intro s slot xs ys ready
  refine ⟨fun u held hw hx => ?_, fun u held hd hw hx => ?_, fun u held hw hx hy => ?_, fun u held hw hy => ?_⟩
  · exact ⟨_, _, exec_advTdl ready held, slotAt_advanced _ _, rfl, Nat.mod_lt _ (Nat.zero_lt_of_lt hw),
      hx.push s.xin hw⟩
  · exact ⟨_, _, exec_advTvd ready held hd, slotAt_advanced _ _, rfl,
      Nat.mod_lt _ (Nat.zero_lt_of_lt hw), hx.push s.xin hw⟩
  · exact ⟨_, _, exec_advFfc ready held, slotAt_advanced _ _, rfl, Nat.mod_lt _ (Nat.zero_lt_of_lt hw),
      hx.push s.xin hw, hy.push _ hw⟩
  · exact ⟨_, _, exec_advFbc ready held, slotAt_advanced _ _, rfl, Nat.mod_lt _ (Nat.zero_lt_of_lt hw),
      hy.push _ hw⟩

end

section
/-!
The first-order filter and the one-pole lowpass (spec/42_first_order_and_one_pole.md R110 to R114). Their commands are
for a real `S` (R8), where the guard passes. In exact arithmetic a stream of rationals stays rational
(`process_exact_induction`), and a first-order filter keeps the last input and the last output in its two memories
(`FofAfter`), which is what its recurrence reads.
-/

namespace Sys2Proof.Machine

/-! ### Commands of the kinds for a real `S` (R8, R93 to R95) -/

section
variable {s : State} {slot : Nat} {i : Instr} {needs : Kind}

theorem configure_real_of_ok {built : Except FaultCause FilterUnit} {u : FilterUnit} (ready : ReadyReal s slot)
    (empty : s.slotAt slot = none) (h : built = .ok u) :
    realScalarOnly slot needs (configure i slot built s) s = .next (s.withSlot slot (some u)) := by
  obtain ⟨⟨running, named⟩, real⟩ := ready
  rw [realScalarOnly_of_real s slot needs _ real, configure_of_ok s i running named empty h]

theorem configure_real_of_error {built : Except FaultCause FilterUnit} {c : FaultCause} (ready : ReadyReal s slot)
    (empty : s.slotAt slot = none) (h : built = .error c) :
    realScalarOnly slot needs (configure i slot built s) s = .next (raise c (encode i) s) := by
  obtain ⟨⟨running, named⟩, real⟩ := ready
  rw [realScalarOnly_of_real s slot needs _ real, configure_of_error s i running named empty h]

/-- `ADV.*` of the unit that its slot holds, for a kind without a check of its own. -/
theorem advance_real_of_held {α : Type} {sel : FilterUnit → Option α} {wrap : α → FilterUnit}
    (adv : α → α × Scalar) {f : FilterUnit} {u : α} (ready : ReadyReal s slot) (held : s.slotAt slot = some f)
    (hsel : sel f = some u) :
    realScalarOnly slot needs (advance i slot sel wrap (fun u => .ok (adv u)) s) s =
      .next ((s.withSlot slot (some (wrap (adv u).1))).withYout (adv u).2) := by
  obtain ⟨ready, real⟩ := ready
  rw [realScalarOnly_of_real s slot needs _ real, advance_of_held sel (fun u => .ok (adv u)) ready held hsel rfl]

end

section
variable {s : State} {slot : Nat}

theorem exec_advFof {u : Fof} (ready : ReadyReal s slot) (held : s.slotAt slot = some (.fof u)) :
    exec (.advFof slot) s =
      .next ((s.withSlot slot (some (.fof (advanceFof s.params.arith s.xin u).1))).withYout
        (advanceFof s.params.arith s.xin u).2) :=
  advance_real_of_held (sel := FilterUnit.asFof) (advanceFof s.params.arith s.xin) ready held rfl

theorem exec_advOpl {u : Opl} (ready : ReadyReal s slot) (held : s.slotAt slot = some (.opl u)) :
    exec (.advOpl slot) s =
      .next ((s.withSlot slot (some (.opl (advanceOpl s.params.arith s.xin u).1))).withYout
        (advanceOpl s.params.arith s.xin u).2) :=
  advance_real_of_held (sel := FilterUnit.asOpl) (advanceOpl s.params.arith s.xin) ready held rfl

/-! ### The checks of `CFG.FOF` and `CFG.OPL` (R110, R113) -/

/-- The codes of R31, in the order of the tags. -/
theorem fofTypeOfCode_eq_getElem? (n : Nat) :
    fofTypeOfCode n = [FofType.noType, .lowpass, .highpass, .lowshelf, .highshelf][n]? := by
  match n with
  | 0 | 1 | 2 | 3 | 4 => rfl
  | n + 5 => rfl

theorem buildFof_of_noType (h : 4 < s.piNat 0) : buildFof s = .error .cfgRange := by
  have hnone : fofTypeOfCode (s.piNat 0) = none := by
    rw [fofTypeOfCode_eq_getElem?]
    exact List.getElem?_eq_none h
  rw [buildFof, hnone]

theorem buildFof_of_type {type : FofType} (h : fofTypeOfCode (s.piNat 0) = some type) :
    buildFof s = .ok (.fof (freshFof (s.psAt 0) (s.psAt 1) (s.psAt 2) (s.psAt 3) (s.psAt 4) type)) := by
  rw [buildFof, h]

theorem buildOpl_of_unstable (h : absLtOne (s.psAt 1) = false) : buildOpl s = .error .cfgStability := if_pos h

theorem buildOpl_of_stable (h : absLtOne (s.psAt 1) = true) :
    buildOpl s = .ok (.opl (freshOpl (s.psAt 0) (s.psAt 1))) := if_neg (by simp [h])

end

/-! ### Rational streams in exact arithmetic (R9) -/

section
variable {xs : List Rat} {n d : Nat}

theorem scalarOfRat_injective : Function.Injective Scalar.ofRat := by
  intro x y h
  cases h
  rfl

theorem past_map_ofRat (xs : List Rat) (n d : Nat) : past (xs.map Scalar.ofRat) n d = .ofRat (pastRat xs n d) := by
  unfold past pastRat
  split
  · rw [List.getD_map]
  · rfl

/-- Samples that follow do not change what lies before them. -/
theorem pastRat_append (ys : List Rat) (h : n < xs.length + d) : pastRat (xs ++ ys) n d = pastRat xs n d := by
  apply scalarOfRat_injective
  rw [← past_map_ofRat, ← past_map_ofRat, List.map_append, past_append _ (by simpa using h)]

theorem pastRat_last (xs : List Rat) (x : Rat) : pastRat (xs ++ [x]) (xs.length + 1) 1 = x := by
  apply scalarOfRat_injective
  rw [← past_map_ofRat, List.map_append, ← List.length_map (as := xs) Scalar.ofRat]
  exact past_last _ _

/-- `process_induction` where rational inputs give rational outputs: `P` speaks of the rationals. -/
theorem process_exact_induction {kind : AdvKind} {slot : Nat} {P : List Rat → List Rat → State → Prop}
    (source : List Rat)
    (hone : ∀ x xs ys s, P xs ys s →
      ∃ t y, oneSample kind slot (.ofRat x) s = .next (t, .ofRat y) ∧ P (xs ++ [x]) (ys ++ [y]) t)
    (hrun : ∀ xs ys s, P xs ys s → s.faulted = false) {s : State} (h : P [] [] s) :
    ∃ t ys, process kind slot (source.map Scalar.ofRat) 0 s = .next (t, ys.map Scalar.ofRat) ∧ P source ys t := by
  have hflush : withFlush (source.map Scalar.ofRat) 0 = source.map Scalar.ofRat := List.append_nil _
  obtain ⟨t, _, hprocess, xs, ys, hxs, rfl, ht⟩ :=
    process_induction (kind := kind) (slot := slot) (source.map Scalar.ofRat) 0
      (P := fun us vs s => ∃ xs ys, us = xs.map Scalar.ofRat ∧ vs = ys.map Scalar.ofRat ∧ P xs ys s)
      (fun u hu _ _ s => by
        rintro ⟨xs, ys, rfl, rfl, hs⟩
        rw [hflush] at hu
        obtain ⟨x, -, rfl⟩ := List.mem_map.mp hu
        obtain ⟨t, y, hstep, ht⟩ := hone x xs ys s hs
        exact ⟨t, _, hstep, xs ++ [x], ys ++ [y], by simp, by simp, ht⟩)
      (fun _ _ s => by
        rintro ⟨xs, ys, -, -, hs⟩
        exact hrun xs ys s hs)
      ⟨[], [], rfl, rfl, h⟩
  rw [hflush] at hxs
  obtain rfl := scalarOfRat_injective.list_map hxs
  exact ⟨t, ys, hprocess, ht⟩

end

/-! ### The recurrence of the first-order filter (R112) -/

section
variable (c : FofDesign)

/-- The first-order filter of these coefficients whose last input was `x` and last output `y`. -/
def runningFof (x y : Rat) : Fof :=
  { freshFof (.ofRat c.dry) (.ofRat c.wet) (.ofRat c.a0) (.ofRat c.a1) (.ofRat c.b1) c.type with
    xPrev := .ofRat x, yPrev := .ofRat y }

/-- `y[n]` of R112 from the input `x[n]`, the last input and the last output. -/
def fofNext (x xPrev yPrev : Rat) : Rat := (c.dry + c.wet * c.a0) * x + c.wet * c.a1 * xPrev - c.wet * c.b1 * yPrev

/-- The right side of R112 at `n`, over the inputs and the outputs. -/
def fofRecurrence (xs ys : List Rat) (n : Nat) : Rat := fofNext c (xs.getD n 0) (pastRat xs n 1) (pastRat ys n 1)

/-- R111 in exact arithmetic, its brackets multiplied out. -/
theorem advanceFof_exact (x xPrev yPrev : Rat) :
    advanceFof .exact (.ofRat x) (runningFof c xPrev yPrev) =
      (runningFof c x (fofNext c x xPrev yPrev), .ofRat (fofNext c x xPrev yPrev)) := by
  have hinner : fofInner .exact (runningFof c xPrev yPrev) (.ofRat x) =
      .ofRat (c.a0 * x + c.a1 * xPrev - c.b1 * yPrev) := rfl
  have hnext : fofNext c x xPrev yPrev = c.dry * x + c.wet * (c.a0 * x + c.a1 * xPrev - c.b1 * yPrev) := by
    unfold fofNext
    ring
  rw [advanceFof, hinner, hnext]
  rfl

variable {c} {slot : Nat} {xs ys : List Rat} {s : State}

/-- The right side at a sample does not see what follows. -/
theorem fofRecurrence_append (xs' ys' : List Rat) (hlength : ys.length = xs.length) {n : Nat} (hn : n < xs.length) :
    fofRecurrence c (xs ++ xs') (ys ++ ys') n = fofRecurrence c xs ys n := by
  rw [fofRecurrence, fofRecurrence, List.getD_append _ _ _ _ hn, pastRat_append _ (Nat.lt_add_right 1 hn),
    pastRat_append _ (by omega)]

/-- The right side at the newest sample. -/
theorem fofRecurrence_last (hlength : ys.length = xs.length) (x y : Rat) :
    fofRecurrence c (xs ++ [x]) (ys ++ [y]) xs.length =
      fofNext c x (pastRat xs xs.length 1) (pastRat ys xs.length 1) := by
  rw [fofRecurrence, pastRat_append _ (Nat.lt_add_one _), pastRat_append _ (by omega),
    List.getD_append_right _ _ _ _ (Nat.le_refl _), Nat.sub_self]
  rfl

/-- The slot holds the first-order filter after the inputs `xs`, and its outputs `ys` followed the recurrence. -/
structure FofAfter (c : FofDesign) (slot : Nat) (xs ys : List Rat) (s : State) : Prop where
  ready : Ready s slot
  arith : s.params.arith = .exact
  held : s.slotAt slot = some (.fof (runningFof c (pastRat xs xs.length 1) (pastRat ys xs.length 1)))
  length : ys.length = xs.length
  outputs : ∀ n < xs.length, ys.getD n 0 = fofRecurrence c xs ys n

/-- One more sample. -/
theorem FofAfter.oneSample (h : FofAfter c slot xs ys s) (hslot : slot < 256) (x : Rat) :
    ∃ t y, oneSample .fof slot (.ofRat x) s = .next (t, .ofRat y) ∧ FofAfter c slot (xs ++ [x]) (ys ++ [y]) t := by
  obtain ⟨ready, harith, held, hlength, houtputs⟩ := h
  have real : (s.withXin (.ofRat x)).params.arith ≠ .complex := by
    rw [State.withXin_params, harith]
    nofun
  have hexec := exec_advFof (s := s.withXin (.ofRat x)) ⟨ready, real⟩ held
  rw [State.withXin_params, harith, State.withXin_xin, advanceFof_exact] at hexec
  obtain ⟨t, hone, ready_t, hparams, held_t⟩ := oneSample_of_exec (kind := .fof) hslot ready hexec
  refine ⟨t, _, hone, ready_t, by rw [hparams, harith], ?_, by simp [hlength], fun n hn => ?_⟩
  · rw [held_t, List.length_append, List.length_singleton, pastRat_last, ← hlength, pastRat_last]
  · rcases Nat.lt_or_ge n xs.length with hold | hnew
    · rw [List.getD_append _ _ _ _ (hlength ▸ hold), fofRecurrence_append _ _ hlength hold]
      exact houtputs n hold
    · have hlast : n = xs.length := Nat.le_antisymm (by simpa using hn) hnew
      rw [hlast, fofRecurrence_last hlength, List.getD_append_right _ _ _ _ (Nat.le_of_eq hlength), hlength,
        Nat.sub_self]
      rfl

end

end Sys2Proof.Machine

open Sys2Proof Sys2Proof.Machine

/-- Settles O23, by induction on the samples: the two memories are the last input and the last output. -/
theorem fofStreamIsTheRecurrence : Obligations.FofStreamIsTheRecurrence := by
  unfold Obligations.FofStreamIsTheRecurrence
  intro s slot dry wet a0 a1 b1 type xs ready hslot harith held
  have hfresh : FofAfter ⟨dry, wet, a0, a1, b1, type⟩ slot [] [] s := ⟨ready, harith, held, rfl, nofun⟩
  obtain ⟨t, ys, hprocess, hafter⟩ :=
    process_exact_induction (kind := .fof) (P := FofAfter ⟨dry, wet, a0, a1, b1, type⟩ slot) xs
      (fun x _ _ _ h => h.oneSample hslot x) (fun _ _ _ h => h.ready.1) hfresh
  exact ⟨t, ys, hprocess, hafter.length, hafter.outputs⟩

/-- Settles O21: the code of the type is the one check of R110. -/
theorem cfgFofBuildsTheStagedFilter : Obligations.CfgFofBuildsTheStagedFilter := by
  unfold Obligations.CfgFofBuildsTheStagedFilter
  intro s slot ready empty
  refine ⟨rfl, fun outside => configure_real_of_error ready empty (buildFof_of_noType outside), fun inside => ?_⟩
  have hlisted := List.getElem?_eq_getElem
    (l := [FofType.noType, .lowpass, .highpass, .lowshelf, .highshelf]) (Nat.lt_succ_of_le inside)
  exact ⟨_, configure_real_of_ok ready empty (buildFof_of_type ((fofTypeOfCode_eq_getElem? _).trans hlisted)),
    rfl, rfl, rfl, rfl, rfl, hlisted, rfl, rfl⟩

/-- Settles O22: the rule of `ADV.FOF`, its bracket written out. -/
theorem advFofComputesDryPlusWet : Obligations.AdvFofComputesDryPlusWet := by
  unfold Obligations.AdvFofComputesDryPlusWet
  rintro s slot u x y inner ready held rfl rfl rfl
  exact ⟨rfl, exec_advFof ready held⟩

/-- Settles O24: the stability test is the one check of R113. -/
theorem cfgOplChecksStability : Obligations.CfgOplChecksStability := by
  unfold Obligations.CfgOplChecksStability
  intro s slot ready empty
  exact ⟨rfl, fun unstable => configure_real_of_error ready empty (buildOpl_of_unstable unstable),
    fun stable => configure_real_of_ok ready empty (buildOpl_of_stable stable)⟩

/-- Settles O26: the rule of `ADV.OPL`, its recurrence written out. -/
theorem advOplComputesTheRecurrence : Obligations.AdvOplComputesTheRecurrence := by
  unfold Obligations.AdvOplComputesTheRecurrence
  rintro s slot u y ready held rfl
  exact ⟨rfl, exec_advOpl ready held⟩

end

section
/-!
The comb filters (spec/43_comb_filters.md R130 to R135). The checks of their `CFG.*` come one by one. Each comb reads
the cell that its write index names before it writes there, which is the sample `m` back (`RingHolds.oldest`); so a
fresh comb follows its recurrence, sample by sample (`FfcAfter`, `FbcAfter`).
-/

namespace Sys2Proof.Machine

/-! ### The checks of `CFG.FFC` and `CFG.FBC` (R130, R133) -/

section
variable {s : State}

theorem buildFfc_of_noDelay (h : s.piNat 0 < 1) : buildFfc s = .error .cfgRange := if_pos h

theorem buildFbc_of_noDelay (h : s.piNat 0 < 1) : buildFbc s = .error .cfgRange := if_pos h

section
variable (delayed : 1 ≤ s.piNat 0)
include delayed

theorem buildFfc_of_unstable (h : absLtOne (s.psAt 2) = false) : buildFfc s = .error .cfgStability := by
  rw [buildFfc, if_neg (Nat.not_lt.mpr delayed), if_pos h]

theorem buildFbc_of_unstable (h : absLtOne (s.psAt 1) = false) : buildFbc s = .error .cfgStability := by
  rw [buildFbc, if_neg (Nat.not_lt.mpr delayed), if_pos h]

theorem buildFfc_of_overCapmax (stable : absLtOne (s.psAt 2) = true) (h : s.params.capmax < 2 * s.piNat 0) :
    buildFfc s = .error .cfgResource := by
  rw [buildFfc, if_neg (Nat.not_lt.mpr delayed), if_neg (by simp [stable]), if_pos h]

theorem buildFbc_of_overCapmax (stable : absLtOne (s.psAt 1) = true) (h : s.params.capmax < s.piNat 0) :
    buildFbc s = .error .cfgResource := by
  rw [buildFbc, if_neg (Nat.not_lt.mpr delayed), if_neg (by simp [stable]), if_pos h]

theorem buildFfc_of_passed (stable : absLtOne (s.psAt 2) = true) (h : 2 * s.piNat 0 ≤ s.params.capmax) :
    buildFfc s = .ok (.ffc (freshFfc (s.psAt 0) (s.psAt 1) (s.psAt 2) (s.piNat 0))) := by
  rw [buildFfc, if_neg (Nat.not_lt.mpr delayed), if_neg (by simp [stable]), if_neg (Nat.not_lt.mpr h)]

theorem buildFbc_of_passed (stable : absLtOne (s.psAt 1) = true) (h : s.piNat 0 ≤ s.params.capmax) :
    buildFbc s = .ok (.fbc (freshFbc (s.psAt 0) (s.psAt 1) (s.piNat 0))) := by
  rw [buildFbc, if_neg (Nat.not_lt.mpr delayed), if_neg (by simp [stable]), if_neg (Nat.not_lt.mpr h)]

end

end

/-! ### Streams that grow by one sample -/

section
variable {xs : List Scalar}

/-- The cell about to be written holds the oldest sample of the ring. -/
theorem RingHolds.oldest {buf : Memory Scalar} {w cap : Nat} (h : RingHolds buf w cap xs) (hw : w < cap) :
    cell buf w = past xs xs.length cap := by
  simpa [ringBack_zero hw] using h.tap (d := 0) (Nat.one_le_of_lt hw) (Nat.zero_le cap)

theorem getD_snoc_last (xs : List Scalar) (x : Scalar) : (xs ++ [x]).getD xs.length Scalar.zero = x := by
  rw [List.getD_append_right _ _ _ _ (Nat.le_refl _), Nat.sub_self]
  rfl

/-- Each sample of a list is `f` at its index, from the samples so far and the new one. -/
theorem getD_snoc_eq {f : Nat → Scalar} {x : Scalar} (old : ∀ n < xs.length, xs.getD n Scalar.zero = f n)
    (new : x = f xs.length) : ∀ n < (xs ++ [x]).length, (xs ++ [x]).getD n Scalar.zero = f n := by
  intro n hn
  rcases Nat.lt_or_ge n xs.length with hold | hnew
  · rw [List.getD_append _ _ _ _ hold]
    exact old n hold
  · obtain rfl : n = xs.length := Nat.le_antisymm (by simpa using hn) hnew
    rw [getD_snoc_last]
    exact new

end

/-! ### The feedforward-feedback comb (R132) -/

section
variable (ar : Arith) (u : Ffc)

/-- The comb `u` after some samples: its rings have moved on. -/
def runningFfc (bufIn bufOut : Memory Scalar) (w : Nat) : Ffc := { u with bufIn := bufIn, bufOut := bufOut, w := w }

/-- The right side of R132 at `n`, over the inputs and the outputs. -/
def ffcRecurrence (xs ys : List Scalar) (n : Nat) : Scalar :=
  sadd ar (sadd ar (smul ar u.b0 (xs.getD n Scalar.zero)) (smul ar u.b1 (past xs n u.m))) (smul ar u.a (past ys n u.m))

variable {ar u} {slot : Nat} {xs ys : List Scalar} {s : State}

/-- The right side at a sample does not see what follows. -/
theorem ffcRecurrence_append (xs' ys' : List Scalar) (hlength : ys.length = xs.length) {n : Nat} (hn : n < xs.length) :
    ffcRecurrence ar u (xs ++ xs') (ys ++ ys') n = ffcRecurrence ar u xs ys n := by
  rw [ffcRecurrence, ffcRecurrence, List.getD_append _ _ _ _ hn, past_append _ (by omega), past_append _ (by omega)]

/-- The output of a comb whose rings are at the last samples is the right side at the new one. -/
theorem ffcOutput_eq_ffcRecurrence {bufIn bufOut : Memory Scalar} {w : Nat} (hw : w < u.m)
    (hin : RingHolds bufIn w u.m xs) (hout : RingHolds bufOut w u.m ys) (hlength : ys.length = xs.length)
    (x y : Scalar) :
    ffcOutput ar (runningFfc u bufIn bufOut w) x = ffcRecurrence ar u (xs ++ [x]) (ys ++ [y]) xs.length := by
  rw [ffcRecurrence, getD_snoc_last, past_append _ (by omega), past_append _ (by omega), ← hin.oldest hw, ← hlength,
    ← hout.oldest hw]
  rfl

/-- The slot holds the comb `u` after the inputs `xs`, and its outputs `ys` followed the recurrence. -/
structure FfcAfter (ar : Arith) (u : Ffc) (slot : Nat) (xs ys : List Scalar) (s : State) : Prop where
  ready : Ready s slot
  arith : s.params.arith = ar
  rings : ∃ bufIn bufOut w, s.slotAt slot = some (.ffc (runningFfc u bufIn bufOut w)) ∧ w < u.m ∧
    RingHolds bufIn w u.m xs ∧ RingHolds bufOut w u.m ys
  length : ys.length = xs.length
  outputs : ∀ n < ys.length, ys.getD n Scalar.zero = ffcRecurrence ar u xs ys n

theorem ffcAfter_fresh {b0 b1 a : Scalar} {m : Nat} (ready : Ready s slot) (hm : 1 ≤ m)
    (held : s.slotAt slot = some (.ffc (freshFfc b0 b1 a m))) :
    FfcAfter s.params.arith (freshFfc b0 b1 a m) slot [] [] s where
  ready := ready
  arith := rfl
  rings := ⟨[], [], 0, held, hm, ringHolds_nil _ _, ringHolds_nil _ _⟩
  length := rfl
  outputs := nofun

/-- One more sample. -/
theorem FfcAfter.oneSample (h : FfcAfter ar u slot xs ys s) (hslot : slot < 256) (x : Scalar) :
    ∃ t y, oneSample .ffc slot x s = .next (t, y) ∧ FfcAfter ar u slot (xs ++ [x]) (ys ++ [y]) t := by
  obtain ⟨ready, rfl, ⟨bufIn, bufOut, w, held, hw, hin, hout⟩, hlength, houtputs⟩ := h
  obtain ⟨t, hone, ready_t, hparams, held_t⟩ :=
    oneSample_of_exec (kind := .ffc) hslot ready (exec_advFfc (s := s.withXin x) ready held)
  refine ⟨t, _, hone, ready_t, by rw [hparams],
    ⟨_, _, _, held_t, Nat.mod_lt _ (Nat.zero_lt_of_lt hw), hin.push x hw, hout.push _ hw⟩, by simp [hlength],
    getD_snoc_eq (fun n hn => ?_) ?_⟩
  · rw [ffcRecurrence_append _ _ hlength (hlength ▸ hn)]
    exact houtputs n hn
  · rw [hlength]
    exact ffcOutput_eq_ffcRecurrence hw hin hout hlength x _

end

/-! ### The filtered-feedback comb (R135) -/

section
variable (u : Fbc)

/-- The comb `u` after some samples: its ring has moved on, and its one-pole holds `lp`. -/
def runningFbc (lp : Scalar) (bufOut : Memory Scalar) (w : Nat) : Fbc := { u with lp := lp, bufOut := bufOut, w := w }

/-- `t[n]` of R135, over the outputs `ys` and the values `vs` of `t`. -/
def fbcFeedback (ar : Arith) (ys vs : List Scalar) (n : Nat) : Scalar :=
  sadd ar (smul ar u.alpha (past ys n u.m)) (smul ar u.beta (past vs n 1))

variable {ar : Arith} {u} {slot : Nat} {xs ys vs : List Scalar} {s : State}

/-- The feedback at a sample sees neither that sample nor what follows. -/
theorem fbcFeedback_append (ys' vs' : List Scalar) (hm : 1 ≤ u.m) {n : Nat} (hys : n ≤ ys.length)
    (hvs : n ≤ vs.length) :
    fbcFeedback u ar (ys ++ ys') (vs ++ vs') n = fbcFeedback u ar ys vs n := by
  rw [fbcFeedback, fbcFeedback, past_append _ (by omega), past_append _ (by omega)]

/-- What the embedded one-pole answers when the ring and its memory are at the last samples. -/
theorem onePole_eq_fbcFeedback {bufOut : Memory Scalar} {w : Nat} (hw : w < u.m) (hout : RingHolds bufOut w u.m ys)
    (hlength : vs.length = ys.length) :
    onePole ar u.alpha u.beta (cell bufOut w) (past vs vs.length 1) = fbcFeedback u ar ys vs vs.length := by
  rw [onePole, fbcFeedback, hout.oldest hw, hlength]

/-- The slot holds the comb `u` after the inputs `xs`, and its outputs `ys` and the answers `vs` of its one-pole
followed the recurrence. -/
structure FbcAfter (ar : Arith) (u : Fbc) (slot : Nat) (xs ys vs : List Scalar) (s : State) : Prop where
  ready : Ready s slot
  arith : s.params.arith = ar
  ring : ∃ bufOut w, s.slotAt slot = some (.fbc (runningFbc u (past vs vs.length 1) bufOut w)) ∧ w < u.m ∧
    RingHolds bufOut w u.m ys
  length : ys.length = xs.length
  feedbackLength : vs.length = ys.length
  feedback : ∀ n < vs.length, vs.getD n Scalar.zero = fbcFeedback u ar ys vs n
  outputs : ∀ n < ys.length, ys.getD n Scalar.zero = sadd ar (xs.getD n Scalar.zero) (vs.getD n Scalar.zero)

theorem fbcAfter_fresh {α β : Scalar} {m : Nat} (ready : Ready s slot) (hm : 1 ≤ m)
    (held : s.slotAt slot = some (.fbc (freshFbc α β m))) :
    FbcAfter s.params.arith (freshFbc α β m) slot [] [] [] s where
  ready := ready
  arith := rfl
  ring := ⟨[], 0, held, hm, ringHolds_nil _ _⟩
  length := rfl
  feedbackLength := rfl
  feedback := nofun
  outputs := nofun

/-- One more sample. -/
theorem FbcAfter.oneSample (h : FbcAfter ar u slot xs ys vs s) (hslot : slot < 256) (x : Scalar) :
    ∃ t y v, oneSample .fbc slot x s = .next (t, y) ∧
      FbcAfter ar u slot (xs ++ [x]) (ys ++ [y]) (vs ++ [v]) t := by
  obtain ⟨ready, rfl, ⟨bufOut, w, held, hw, hout⟩, hlength, hfeedbackLength, hfeedback, houtputs⟩ := h
  have hm : 1 ≤ u.m := Nat.one_le_of_lt hw
  obtain ⟨t, hone, ready_t, hparams, held_t⟩ :=
    oneSample_of_exec (kind := .fbc) hslot ready (exec_advFbc (s := s.withXin x) ready held)
  refine ⟨t, _, onePole s.params.arith u.alpha u.beta (cell bufOut w) (past vs vs.length 1), hone, ready_t,
    by rw [hparams], ⟨_, _, ?_, Nat.mod_lt _ hm, hout.push _ hw⟩, by simp [hlength], by simp [hfeedbackLength],
    getD_snoc_eq (fun n hn => ?_) ?_, getD_snoc_eq (fun n hn => ?_) ?_⟩
  · rw [List.length_append, List.length_singleton, past_last]
    exact held_t
  · rw [fbcFeedback_append _ _ hm (by omega) (by omega)]
    exact hfeedback n hn
  · rw [fbcFeedback_append _ _ hm (by omega) (by omega)]
    exact onePole_eq_fbcFeedback hw hout hfeedbackLength
  · rw [List.getD_append _ _ _ _ (hlength ▸ hn), List.getD_append _ _ _ _ (hfeedbackLength ▸ hn)]
    exact houtputs n hn
  · rw [hlength, getD_snoc_last, ← hlength, ← hfeedbackLength, getD_snoc_last]
    rfl

end

end Sys2Proof.Machine

open Sys2Proof Sys2Proof.Machine

/-- Settles O29, by induction on the samples: both rings stay at the last samples, and each output followed the
recurrence. -/
theorem ffcStreamIsTheCombRecurrence : Obligations.FfcStreamIsTheCombRecurrence := by
  unfold Obligations.FfcStreamIsTheCombRecurrence
  intro s slot m b0 b1 a xs ready hslot hm held
  obtain ⟨t, ys, hprocess, hafter⟩ :=
    process_induction (kind := .ffc) (P := FfcAfter s.params.arith (freshFfc b0 b1 a m) slot) xs 0
      (fun x _ _ _ _ h => h.oneSample hslot x) (fun _ _ _ h => h.ready.1) (ffcAfter_fresh ready hm held)
  have hflush : withFlush xs 0 = xs := List.append_nil xs
  rw [hflush] at hafter
  exact ⟨t, ys, hprocess, hafter.length, fun n hn => hafter.outputs n (hafter.length ▸ hn)⟩

/-- Settles O32, by induction on the samples: the ring stays at the last outputs and the one-pole at its last answer,
and those answers are the sequence `t`. -/
theorem fbcStreamIsTheDampedRecurrence : Obligations.FbcStreamIsTheDampedRecurrence := by
  unfold Obligations.FbcStreamIsTheDampedRecurrence
  intro s slot m α β xs ready hslot hm held
  obtain ⟨t, ys, hprocess, vs, hafter⟩ :=
    process_induction (kind := .fbc)
      (P := fun xs ys s' => ∃ vs, FbcAfter s.params.arith (freshFbc α β m) slot xs ys vs s') xs 0
      (fun x _ _ _ _ ⟨vs, h⟩ =>
        have ⟨t, y, v, hone, ht⟩ := h.oneSample hslot x
        ⟨t, y, hone, vs ++ [v], ht⟩)
      (fun _ _ _ ⟨_, h⟩ => h.ready.1) ⟨[], fbcAfter_fresh ready hm held⟩
  have hflush : withFlush xs 0 = xs := List.append_nil xs
  rw [hflush] at hafter
  have hlength : vs.length = xs.length := hafter.feedbackLength.trans hafter.length
  exact ⟨t, ys, vs, hprocess, hafter.length, hlength, fun n hn =>
    ⟨hafter.feedback n (hlength ▸ hn), hafter.outputs n (hafter.length ▸ hn)⟩⟩

/-- Settles O27: one lemma for each check of R130, in their order, and the unit they leave. -/
theorem cfgFfcBuildsTheStagedComb : Obligations.CfgFfcBuildsTheStagedComb := by
  unfold Obligations.CfgFfcBuildsTheStagedComb
  rintro s slot m ⟨running, named⟩ empty rfl
  refine ⟨rfl, fun noDelay => ?_, fun delayed unstable => ?_, fun delayed stable large => ?_,
    fun delayed stable fits => ?_⟩
  · exact configure_of_error s _ running named empty (buildFfc_of_noDelay noDelay)
  · exact configure_of_error s _ running named empty (buildFfc_of_unstable delayed unstable)
  · exact configure_of_error s _ running named empty (buildFfc_of_overCapmax delayed stable large)
  · exact configure_of_ok s _ running named empty (buildFfc_of_passed delayed stable fits)

/-- Settles O28: the rule of `ADV.FFC`, its output written out. -/
theorem advFfcComputesTheComb : Obligations.AdvFfcComputesTheComb := by
  unfold Obligations.AdvFfcComputesTheComb
  rintro s slot u y ready held rfl
  exact ⟨rfl, exec_advFfc ready held⟩

/-- Settles O30: one lemma for each check of R133, in their order, and the unit they leave. -/
theorem cfgFbcBuildsTheStagedComb : Obligations.CfgFbcBuildsTheStagedComb := by
  unfold Obligations.CfgFbcBuildsTheStagedComb
  rintro s slot m ⟨running, named⟩ empty rfl
  refine ⟨rfl, fun noDelay => ?_, fun delayed unstable => ?_, fun delayed stable large => ?_,
    fun delayed stable fits => ?_⟩
  · exact configure_of_error s _ running named empty (buildFbc_of_noDelay noDelay)
  · exact configure_of_error s _ running named empty (buildFbc_of_unstable delayed unstable)
  · exact configure_of_error s _ running named empty (buildFbc_of_overCapmax delayed stable large)
  · exact configure_of_ok s _ running named empty (buildFbc_of_passed delayed stable fits)

/-- Settles O31: the rule of `ADV.FBC`, its one-pole written out. -/
theorem advFbcAddsTheFilteredFeedback : Obligations.AdvFbcAddsTheFilteredFeedback := by
  unfold Obligations.AdvFbcAddsTheFilteredFeedback
  rintro s slot u v y ready held rfl rfl
  exact ⟨rfl, exec_advFbc ready held⟩

end

section
/-!
The time-varying delay line (spec/44_time_varying_delay.md R150 to R153). `ADV.TVD` reads two neighbours of its ring
before it writes there, which are the samples `d_lo` and `d_lo + 1` back (`tvdInterp_exact`); so a fresh line follows
R153, sample by sample, each with a delay of its own (`TvdAfter`).
-/

namespace Sys2Proof.Machine

/-! ### The checks of `CFG.TVD` (R150) -/

section
variable {s : State}

theorem buildTvd_of_noDelay (h : s.piNat 0 < 1) : buildTvd s = .error .cfgRange := if_pos h

theorem buildTvd_of_overCapmax (delayed : 1 ≤ s.piNat 0) (h : s.params.capmax < s.piNat 0) :
    buildTvd s = .error .cfgResource := by
  rw [buildTvd, if_neg (Nat.not_lt.mpr delayed), if_pos h]

theorem buildTvd_of_passed (delayed : 1 ≤ s.piNat 0) (h : s.piNat 0 ≤ s.params.capmax) :
    buildTvd s = .ok (.tvd (freshTvd (s.psAt 0) (s.psAt 1) (s.piNat 0))) := by
  rw [buildTvd, if_neg (Nat.not_lt.mpr delayed), if_neg (Nat.not_lt.mpr h)]

end

/-! ### Delays (R151, R152) -/

section
variable {d : Rat} {cap : Nat}

theorem delayFloor_num (d : Rat) : delayFloor (.num d) = ⌊d⌋.toNat := rfl

/-- The range test does not see the sign of a zero (corner case 3 of R151). -/
theorem delayInRange_negZero_eq_zero (cap : Nat) : delayInRange .negZero cap = delayInRange (.num 0) cap := rfl

theorem delayInRange_negZero (h : 1 ≤ cap) : delayInRange .negZero cap = true := by
  rw [delayInRange_negZero_eq_zero, delayInRange_num]
  exact ⟨le_rfl, Nat.cast_pos.mpr h⟩

/-- The delays that R152 refuses. -/
theorem delayInRange_eq_false {r : RVal}
    (h : (∃ d, r = .num d ∧ ¬(0 ≤ d ∧ d < cap)) ∨ r = .posInf ∨ r = .negInf ∨ ∃ n, r = .nan n) :
    delayInRange r cap = false := by
  rcases h with ⟨d, rfl, outside⟩ | rfl | rfl | ⟨n, rfl⟩
  · exact Bool.eq_false_iff.mpr (mt (delayInRange_num d cap).mp outside)
  · rfl
  · rfl
  · rfl

/-- The older neighbour of a delay in range is within the ring. -/
theorem toNat_floor_lt (hd : 0 ≤ d) (hlt : d < cap) : ⌊d⌋.toNat < cap := by
  rwa [Int.floor_toNat, Nat.floor_lt hd]

/-- `frac` of R151 is the fractional part. -/
theorem sub_toNat_floor (hd : 0 ≤ d) : d - (⌊d⌋.toNat : Rat) = Int.fract d := by
  rw [Int.floor_toNat, natCast_floor_eq_intCast_floor hd, Int.self_sub_floor]

end

/-! ### `ADV.TVD` (R151, R152) -/

section
variable {s t : State} {slot : Nat} {u : Tvd}

/-- `ADV.TVD` at a delay out of range. -/
theorem exec_advTvd_of_outOfRange (ready : Ready s slot) (held : s.slotAt slot = some (.tvd u))
    (hd : delayInRange s.din u.maxDelay = false) :
    exec (.advTvd slot) s = .next (raise .delayRange (encode (.advTvd slot)) s) := by
  refine command_of_error s _ ready.1 ?_
  rw [withUnit_of_unit s slot FilterUnit.asTvd (u := u) _ ready.2 (by rw [held]; rfl), advanceTvd, if_pos hd]

/-- What a completed `ADV.TVD` has found. -/
theorem exec_advTvd_completed (h : exec (.advTvd slot) s = .next t) (hf : t.faulted = false) :
    Ready s slot ∧ ∃ u, s.slotAt slot = some (.tvd u) ∧ delayInRange s.din u.maxDelay = true := by
  rcases advance_cases s (.advTvd slot) slot FilterUnit.asTvd .tvd (advanceTvd s.params.arith s.xin s.din) with
    ⟨faulted, e⟩ | ⟨-, c, e⟩ | ⟨running, named, u, r, hu, answered, -⟩
  · cases e.symm.trans h
    rw [faulted] at hf
    cases hf
  · cases e.symm.trans h
    rw [raise_faulted] at hf
    cases hf
  · obtain ⟨inRange, -⟩ := advanceTvd_eq _ _ answered
    exact ⟨⟨running, named⟩, u, slotAt_of_selected (eq_tvd_of_asTvd u) hu, inRange⟩

/-- `interp` at a negative zero: `newer` is `x`, and `older` the last sample stored. -/
theorem tvdInterp_negZero (ar : Arith) (u : Tvd) (x : Scalar) :
    tvdInterp ar u x .negZero =
      sadd ar (cell u.buf (ringBack u.w 1 u.maxDelay))
        (scaleBy ar (delayFrac ar (.num 0) 0) (ssub ar x (cell u.buf (ringBack u.w 1 u.maxDelay)))) := rfl

/-- `interp` does not see the sign of a zero. -/
theorem tvdInterp_negZero_eq_zero (ar : Arith) (u : Tvd) (x : Scalar) :
    tvdInterp ar u x .negZero = tvdInterp ar u x (.num 0) := rfl

end

/-! ### A stream with its delays (R154, R192) -/

section
variable {slot : Nat} {s : State}

/-- A reading of `YOUT` after actions that leave the block running. -/
theorem readingYout_of_running {actions : List HostAction} {t : State} (h : performAll actions s = .next (t, ()))
    (hf : t.faulted = false) : readingYout actions s = .next (t.withOutput t.yout, t.yout) := by
  rw [readingYout, h, andThen_next, unlessFaulted_of_running _ hf, andThen_next]

/-- One sample through a TVD whose `ADV` answers: the sample it answers, and the unit it leaves in the slot. -/
theorem oneSampleAt_of_exec {x y : Scalar} {d : RVal} {f : FilterUnit} (hslot : slot < 256) (ready : Ready s slot)
    (h : exec (.advTvd slot) ((s.withXin x).withDin d) =
      .next ((((s.withXin x).withDin d).withSlot slot (some f)).withYout y)) :
    ∃ t, oneSampleAt slot (x, some d) s = .next (t, y) ∧ Ready t slot ∧ t.params = s.params ∧
      t.slotAt slot = some f := by
  have hcommand : perform (commandOf (.advTvd slot)) ((s.withXin x).withDin d) = _ :=
    (perform_command (s := (s.withXin x).withDin d) ready.1
      (decode_encode (AdvKind.wellFormed_instr (kind := .tvd) hslot))).trans h
  have hfeed : performAll (feedTvdActions slot x d) s = _ :=
    (performAll_cons _ rfl).trans ((performAll_cons _ rfl).trans (performAll_cons [] hcommand))
  exact ⟨_, readingYout_of_running hfeed ready.1, ready, rfl,
    ((s.withXin x).withDin d).withSlot_slotAt_same slot (some f)⟩

/-- A rational sample and its delay, as `process` takes them from its two sources. -/
def sampleAtDelay (p : Rat × Rat) : Scalar × Option RVal := (.ofRat p.1, some (.ofRat p.2))

theorem sampleAtDelay_injective : Function.Injective sampleAtDelay := by
  rintro ⟨x, d⟩ ⟨x', d'⟩ h
  cases h
  rfl

/-- Delays enough for every sample. -/
theorem withDelays_eq_zip {xs ds : List Rat} (h : ds.length = xs.length) :
    withDelays (xs.map Scalar.ofRat) (ds.map RVal.ofRat) = (xs.zip ds).map sampleAtDelay := by
  induction xs generalizing ds with
  | nil => rfl
  | cons x xs ih =>
    cases ds with
    | nil => cases h
    | cons d ds => exact congrArg ((Scalar.ofRat x, some (RVal.ofRat d)) :: ·) (ih (Nat.succ.inj h))

/-- `process_exact_induction` for a TVD, each input with its delay. -/
theorem processTvd_exact_induction {P : List (Rat × Rat) → List Rat → State → Prop} {xs ds : List Rat}
    (hlength : ds.length = xs.length)
    (hone : ∀ p ∈ xs.zip ds, ∀ ps ys s, P ps ys s →
      ∃ t y, oneSampleAt slot (sampleAtDelay p) s = .next (t, .ofRat y) ∧ P (ps ++ [p]) (ys ++ [y]) t)
    (hrun : ∀ ps ys s, P ps ys s → s.faulted = false) (h : P [] [] s) :
    ∃ t ys, processTvd slot (xs.map Scalar.ofRat) (ds.map RVal.ofRat) 0 s = .next (t, ys.map Scalar.ofRat) ∧
      P (xs.zip ds) ys t := by
  have hinputs : withDelays (withFlush (xs.map Scalar.ofRat) 0) (ds.map RVal.ofRat) =
      (xs.zip ds).map sampleAtDelay := by
    rw [withFlush, List.replicate_zero, List.append_nil, withDelays_eq_zip hlength]
  obtain ⟨t, _, hdrain, ps, ys, hps, rfl, ht⟩ :=
    drain_induction (one := oneSampleAt slot) ((xs.zip ds).map sampleAtDelay) (xs := []) (ys := []) (s := s)
      (P := fun us vs s => ∃ ps ys, us = ps.map sampleAtDelay ∧ vs = ys.map Scalar.ofRat ∧ P ps ys s)
      (fun u hu _ _ s => by
        rintro ⟨ps, ys, rfl, rfl, hs⟩
        obtain ⟨p, hp, rfl⟩ := List.mem_map.mp hu
        obtain ⟨t, y, hstep, ht⟩ := hone p hp ps ys s hs
        exact ⟨t, _, hstep, ps ++ [p], ys ++ [y], by simp, by simp, ht⟩)
      ⟨[], [], rfl, rfl, h⟩
  obtain rfl := sampleAtDelay_injective.list_map hps
  refine ⟨t, ys, ?_, ht⟩
  rw [processTvd, processTvdTo, hinputs, Sink.unbounded, hdrain, andThen_next,
    unlessFaulted_of_running _ (hrun _ _ _ ht), andThen_next]

end

/-! ### The line over the rationals (R153) -/

section
variable {xs : List Rat} {d : Rat}

/-- `interp` of R153 at `n`: the weight `frac` on the newer sample. -/
def delayedBlend (xs : List Rat) (n : Nat) (d : Rat) : Rat :=
  (1 - Int.fract d) * pastRat xs n (⌊d⌋.toNat + 1) + Int.fract d * pastRat xs n ⌊d⌋.toNat

/-- The right side of R153 at `n`, over the inputs and the delays. -/
def tvdFormula (a b : Rat) (xs ds : List Rat) (n : Nat) : Rat :=
  a * xs.getD n 0 + b * delayedBlend xs n (ds.getD n 0)

/-- The right side at a sample does not see what follows. -/
theorem tvdFormula_append (a b : Rat) (xs' ds' : List Rat) {ds : List Rat} {n : Nat} (hx : n < xs.length)
    (hd : n < ds.length) : tvdFormula a b (xs ++ xs') (ds ++ ds') n = tvdFormula a b xs ds n := by
  rw [tvdFormula, tvdFormula, List.getD_append _ _ _ _ hx, List.getD_append _ _ _ _ hd, delayedBlend, delayedBlend,
    pastRat_append _ (by omega), pastRat_append _ (by omega)]

/-- A blend of two samples, as R151 and as R153 write it. -/
theorem blend_exact (older newer frac : Rat) :
    sadd .exact (.ofRat older) (scaleBy .exact (.num frac) (ssub .exact (.ofRat newer) (.ofRat older))) =
      .ofRat ((1 - frac) * older + frac * newer) := by
  have hblend : older + frac * (newer - older) = (1 - frac) * older + frac * newer := by ring
  rw [ssub_exact, scaleBy_exact, sadd_exact, hblend]

/-- The line of these coefficients after some samples: its ring has moved on. -/
def runningTvd (a b : Rat) (maxDelay : Nat) (buf : Memory Scalar) (w : Nat) : Tvd :=
  { freshTvd (.ofRat a) (.ofRat b) maxDelay with buf := buf, w := w }

section
variable {maxDelay : Nat} {buf : Memory Scalar} {w : Nat} 
  (holds : RingHolds buf w maxDelay (xs.map Scalar.ofRat))
include holds

/-- The cell `j` back, as the line reads it while `x` comes in. -/
theorem cell_ringBack_eq_pastRat (x : Rat) {j : Nat} (hj : 1 ≤ j) (hle : j ≤ maxDelay) :
    cell buf (ringBack w j maxDelay) = .ofRat (pastRat (xs ++ [x]) xs.length j) := by
  rw [pastRat_append _ (by omega), ← past_map_ofRat]
  have hcell := holds j hj hle
  rw [List.length_map] at hcell
  exact hcell

/-- The newer neighbour: `x` itself at a delay of 0, which the ring does not hold yet. -/
theorem newer_eq_pastRat (x : Rat) {j : Nat} (hle : j ≤ maxDelay) :
    (if j = 0 then .ofRat x else cell buf (ringBack w j maxDelay)) =
      Scalar.ofRat (pastRat (xs ++ [x]) xs.length j) := by
  split
  · next hzero => simp [hzero, pastRat]
  · exact cell_ringBack_eq_pastRat holds x (by omega) hle

/-- The blend of a line whose ring is at the last samples. -/
theorem tvdInterp_exact (a b x : Rat) (hd : 0 ≤ d) (hlt : d < maxDelay) :
    tvdInterp .exact (runningTvd a b maxDelay buf w) (.ofRat x) (.num d) =
      .ofRat (delayedBlend (xs ++ [x]) xs.length d) := by
  have hfloor := toNat_floor_lt hd hlt
  have hnewer := newer_eq_pastRat holds x hfloor.le
  have holder := cell_ringBack_eq_pastRat holds x (Nat.le_add_left 1 ⌊d⌋.toNat) hfloor
  have hfrac : delayFrac .exact (.num d) ⌊d⌋.toNat = .num (Int.fract d) := by
    rw [delayFrac_exact, sub_toNat_floor hd]
  calc tvdInterp .exact (runningTvd a b maxDelay buf w) (.ofRat x) (.num d)
    _ = sadd .exact (cell buf (ringBack w (⌊d⌋.toNat + 1) maxDelay))
          (scaleBy .exact (delayFrac .exact (.num d) ⌊d⌋.toNat)
            (ssub .exact (if ⌊d⌋.toNat = 0 then .ofRat x else cell buf (ringBack w ⌊d⌋.toNat maxDelay))
              (cell buf (ringBack w (⌊d⌋.toNat + 1) maxDelay)))) := rfl
    _ = _ := by rw [hnewer, holder, hfrac, blend_exact, delayedBlend]

end

variable {a b : Rat} {maxDelay slot : Nat} {ps : List (Rat × Rat)} {ys : List Rat} {s : State}

/-- The slot holds the line after the inputs and delays `ps`, and its outputs `ys` were those of R153. -/
structure TvdAfter (a b : Rat) (maxDelay slot : Nat) (ps : List (Rat × Rat)) (ys : List Rat) (s : State) : Prop where
  ready : Ready s slot
  arith : s.params.arith = .exact
  ring : ∃ buf w, s.slotAt slot = some (.tvd (runningTvd a b maxDelay buf w)) ∧ w < maxDelay ∧
    RingHolds buf w maxDelay ((ps.map Prod.fst).map Scalar.ofRat)
  length : ys.length = ps.length
  outputs : ∀ n < ps.length, ys.getD n 0 = tvdFormula a b (ps.map Prod.fst) (ps.map Prod.snd) n

theorem tvdAfter_fresh (ready : Ready s slot) (harith : s.params.arith = .exact) (hmax : 1 ≤ maxDelay)
    (held : s.slotAt slot = some (.tvd (freshTvd (.ofRat a) (.ofRat b) maxDelay))) :
    TvdAfter a b maxDelay slot [] [] s where
  ready := ready
  arith := harith
  ring := ⟨[], 0, held, hmax, ringHolds_nil _ _⟩
  length := rfl
  outputs := nofun

/-- One more sample, at a delay in range. -/
theorem TvdAfter.oneSample (h : TvdAfter a b maxDelay slot ps ys s) (hslot : slot < 256) (p : Rat × Rat)
    (hd : 0 ≤ p.2) (hlt : p.2 < maxDelay) :
    ∃ t y, oneSampleAt slot (sampleAtDelay p) s = .next (t, .ofRat y) ∧
      TvdAfter a b maxDelay slot (ps ++ [p]) (ys ++ [y]) t := by
  obtain ⟨ready, harith, ⟨buf, w, held, hw, hring⟩, hlength, houtputs⟩ := h
  obtain ⟨x, d⟩ := p
  have hexec := exec_advTvd (s := (s.withXin (.ofRat x)).withDin (.num d)) ready held
    ((delayInRange_num d maxDelay).mpr ⟨hd, hlt⟩)
  rw [State.withDin_params, State.withXin_params, harith, State.withDin_xin, State.withXin_xin, State.withDin_din,
    tvdInterp_exact hring a b x hd hlt] at hexec
  obtain ⟨t, hone, ready_t, hparams, held_t⟩ := oneSampleAt_of_exec hslot ready hexec
  refine ⟨t, _, hone, ready_t, by rw [hparams, harith], ⟨_, _, held_t, Nat.mod_lt _ (Nat.zero_lt_of_lt hw), ?_⟩,
    by simp [hlength], fun n hn => ?_⟩
  · rw [List.map_append, List.map_append]
    exact hring.push _ hw
  · rw [List.map_append, List.map_append]
    rcases Nat.lt_or_ge n ps.length with hold | hnew
    · rw [List.getD_append _ _ _ _ (hlength ▸ hold),
        tvdFormula_append _ _ _ _ (by simpa using hold) (by simpa using hold)]
      exact houtputs n hold
    · obtain rfl : n = ps.length := Nat.le_antisymm (by simpa using hn) hnew
      simp [tvdFormula, hlength]

end

end Sys2Proof.Machine

open Sys2Proof Sys2Proof.Machine

/-- Settles O37, by induction on the samples: the ring stays at the last inputs, so that the two neighbours are the
samples `d_lo` and `d_lo + 1` back. -/
theorem tvdStreamInterpolatesPastInputs : Obligations.TvdStreamInterpolatesPastInputs := by
  unfold Obligations.TvdStreamInterpolatesPastInputs
  intro s slot maxDelay a b xs ds ready hslot harith hmax hlength hrange held
  obtain ⟨t, ys, hprocess, hafter⟩ :=
    processTvd_exact_induction (P := TvdAfter a b maxDelay slot) hlength
      (fun p hp _ _ _ h =>
        have ⟨hd, hlt⟩ := hrange p.2 (List.of_mem_zip hp).2
        h.oneSample hslot p hd hlt)
      (fun _ _ _ h => h.ready.1) (tvdAfter_fresh ready harith hmax held)
  have hzip : (xs.zip ds).length = xs.length := by simp [hlength]
  have houtputs := hafter.outputs
  rw [List.map_fst_zip hlength.ge, List.map_snd_zip hlength.le, hzip] at houtputs
  refine ⟨t, ys, hprocess, hafter.length.trans hzip, ?_⟩
  rintro n hn _ rfl
  exact houtputs n hn

/-- Settles O33: one lemma for each check of R150, in their order, and the unit they leave. -/
theorem cfgTvdBuildsTheStagedLine : Obligations.CfgTvdBuildsTheStagedLine := by
  unfold Obligations.CfgTvdBuildsTheStagedLine
  rintro s slot m ⟨running, named⟩ empty rfl
  refine ⟨rfl, fun noDelay => ?_, fun delayed large => ?_, fun delayed fits => ?_⟩
  · exact configure_of_error s _ running named empty (buildTvd_of_noDelay noDelay)
  · exact configure_of_error s _ running named empty (buildTvd_of_overCapmax delayed large)
  · exact configure_of_ok s _ running named empty (buildTvd_of_passed delayed fits)

/-- Settles O34: the rule of `ADV.TVD`, its blend written out, and its one check. -/
theorem advTvdBlendsTheNeighbours : Obligations.AdvTvdBlendsTheNeighbours := by
  unfold Obligations.AdvTvdBlendsTheNeighbours
  refine ⟨?_, fun d n => delayFrac_exact d n, fun s slot u ready held hd => exec_advTvd_of_outOfRange ready held hd⟩
  rintro s slot u d dLo _ _ _ _ ready held hdin hd hlt hfloor rfl rfl rfl rfl
  have hexec := exec_advTvd ready held (hdin ▸ (delayInRange_num d _).mpr ⟨hd, hlt⟩)
  obtain rfl : dLo = delayFloor (.num d) := by rw [delayFloor_num, ← hfloor, Int.toNat_natCast]
  rw [hdin] at hexec
  exact ⟨rfl, hexec⟩

/-- Settles O35: the range test is the one check of R151, and it is false for what is no finite number. -/
theorem advTvdAcceptsExactlyTheRange : Obligations.AdvTvdAcceptsExactlyTheRange := by
  unfold Obligations.AdvTvdAcceptsExactlyTheRange
  refine fun s slot u ready held => ⟨fun refused => ?_, fun ⟨d, hdin, inRange⟩ => ?_⟩
  · exact exec_advTvd_of_outOfRange ready held (delayInRange_eq_false refused)
  · exact ⟨_, exec_advTvd ready held (hdin ▸ (delayInRange_num d _).mpr inRange), ready.1⟩

/-- Settles O36: the range test, the floor and the fraction of a negative zero are those of 0; a command that
completes at 0 completes at a negative zero, by the same rule. -/
theorem advTvdTakesNegativeZeroAsZero : Obligations.AdvTvdTakesNegativeZeroAsZero := by
  unfold Obligations.AdvTvdTakesNegativeZeroAsZero
  refine ⟨?_, fun s t slot hdin h hf => ?_, by rw [delayFrac_exact, Nat.cast_zero, sub_zero]⟩
  · rintro s slot u _ _ ready held hdin hmax rfl rfl
    have hexec := exec_advTvd ready held (hdin ▸ delayInRange_negZero hmax)
    rw [hdin, tvdInterp_negZero] at hexec
    exact hexec
  · obtain ⟨ready, u, held, inRange⟩ := exec_advTvd_completed h hf
    have hexec := exec_advTvd (s := s) ready held (hdin ▸ (delayInRange_negZero_eq_zero _).trans inRange)
    rw [hdin, tvdInterp_negZero_eq_zero] at hexec
    cases (exec_advTvd ready held inRange).symm.trans h
    rw [hexec, ← hdin]
    rfl

end

section
/-!
The DFT convolver (spec/45_dft_convolver.md R160 to R164). Its transform length is `2 ^ ⌈log₂ n⌉`, from which R164
follows by the library's `Nat.clog`. The checks of `CFG.DFC` come one by one; `DFC.WR`, `DFC.RUN` and `DFC.RD` are
commands on the convolver in their slot (`dfcCommand_of_held`), the first and the last with a check on `IARG`.
-/

namespace Sys2Proof.Machine

/-! ### The transform length (R164) -/

/-- Both sides have the same upper bounds: the exponents `e` with `n ≤ 2 ^ e`. -/
theorem log2_pred_succ_eq_clog {n : Nat} (hn : 1 < n) : (n - 1).log2 + 1 = Nat.clog 2 n := by
  refine eq_of_forall_ge_iff fun e => ?_
  calc (n - 1).log2 + 1 ≤ e
    _ ↔ n - 1 < 2 ^ e := Nat.succ_le_iff.trans (Nat.log2_lt (Nat.sub_ne_zero_of_lt hn))
    _ ↔ n ≤ 2 ^ e := by omega
    _ ↔ Nat.clog 2 n ≤ e := (Nat.clog_le_iff_le_pow Nat.one_lt_two).symm

theorem nextPow2_eq_two_pow_clog (n : Nat) : nextPow2 n = 2 ^ Nat.clog 2 n := by
  rw [nextPow2]
  split
  · next hn => rw [Nat.clog_of_right_le_one hn, pow_zero]
  · next hn => rw [log2_pred_succ_eq_clog (Nat.lt_of_not_le hn)]

/-! ### The checks of `CFG.DFC` (R160) -/

section
variable {s : State}

theorem buildDfc_of_unstaged (h : s.params.nps < s.piNat 1) : buildDfc s = .error .cfgSize := if_pos h

section
variable (staged : s.piNat 1 ≤ s.params.nps)
include staged

theorem buildDfc_of_zeroSize (h : s.piNat 0 < 1 ∨ s.piNat 1 < 1) : buildDfc s = .error .cfgRange := by
  rw [buildDfc, if_neg (Nat.not_lt.mpr staged), if_pos h]

section
variable (input : 1 ≤ s.piNat 0) (filter : 1 ≤ s.piNat 1)
include input filter

theorem buildDfc_of_overCapmax (h : s.params.capmax < 2 * nextPow2 (s.piNat 0 + s.piNat 1 - 1)) :
    buildDfc s = .error .cfgResource := by
  rw [buildDfc, if_neg (Nat.not_lt.mpr staged), if_neg (by omega), if_pos h]

theorem buildDfc_of_passed (h : 2 * nextPow2 (s.piNat 0 + s.piNat 1 - 1) ≤ s.params.capmax) :
    buildDfc s = .ok (.dfc (freshDfc (s.piNat 0) (s.psRange (s.piNat 1)))) := by
  rw [buildDfc, if_neg (Nat.not_lt.mpr staged), if_neg (by omega), if_neg (Nat.not_lt.mpr h)]

end

end

end

/-! ### Commands on the convolver in a slot (R161, R163) -/

section
variable {s : State} {slot : Nat} {u : Dfc} (ready : ReadyReal s slot) (held : s.slotAt slot = some (.dfc u))
include ready held

/-- The prelude of R93 passes, and the rule of the command takes the convolver that its slot holds. -/
theorem dfcCommand_of_held (i : Instr) (k : Dfc → Except FaultCause State) :
    realScalarOnly slot .dfc (command i (withUnit slot FilterUnit.asDfc k s) s) s = command i (k u) s := by
  obtain ⟨⟨-, named⟩, real⟩ := ready
  rw [realScalarOnly_of_real s slot .dfc _ real, withUnit_of_unit s slot FilterUnit.asDfc k named (by rw [held]; rfl)]

theorem exec_dfcWr_of_inside (h : s.iarg.toNat < u.inputSize) :
    exec (.dfcWr slot) s =
      .next (s.withSlot slot (some (.dfc { u with input := setCell u.input s.iarg.toNat s.xin }))) :=
  (dfcCommand_of_held ready held _ _).trans (command_of_ok s _ _ ready.1.1 (if_neg (Nat.not_le.mpr h)))

theorem exec_dfcWr_of_outside (h : u.inputSize ≤ s.iarg.toNat) :
    exec (.dfcWr slot) s = .next (raise .indexRange (encode (.dfcWr slot)) s) :=
  (dfcCommand_of_held ready held _ _).trans (command_of_error s _ ready.1.1 (if_pos h))

theorem exec_dfcRd_of_inside (h : s.iarg.toNat < u.outputSize) :
    exec (.dfcRd slot) s = .next (s.withYout (cell u.output s.iarg.toNat)) :=
  (dfcCommand_of_held ready held _ _).trans (command_of_ok s _ _ ready.1.1 (if_neg (Nat.not_le.mpr h)))

theorem exec_dfcRd_of_outside (h : u.outputSize ≤ s.iarg.toNat) :
    exec (.dfcRd slot) s = .next (raise .indexRange (encode (.dfcRd slot)) s) :=
  (dfcCommand_of_held ready held _ _).trans (command_of_error s _ ready.1.1 (if_pos h))

end

end Sys2Proof.Machine

open Sys2Proof Sys2Proof.Machine

/-- Settles O39: `next_pow2 n` is `2 ^ ⌈log₂ n⌉`, and that exponent is the least `e` with `n ≤ 2 ^ e`. -/
theorem nextPow2IsTheLeastPowerOfTwo : Obligations.NextPow2IsTheLeastPowerOfTwo := by
  unfold Obligations.NextPow2IsTheLeastPowerOfTwo
  intro n _
  rw [nextPow2_eq_two_pow_clog]
  exact ⟨Nat.le_pow_clog Nat.one_lt_two n, ⟨_, rfl⟩,
    fun _ h => Nat.pow_le_pow_right Nat.two_pos (Nat.clog_le_of_le_pow h)⟩

/-- Settles O38: one lemma for each check of R160, in their order, and the unit they leave. -/
theorem cfgDfcBuildsTheStagedConvolver : Obligations.CfgDfcBuildsTheStagedConvolver := by
  unfold Obligations.CfgDfcBuildsTheStagedConvolver
  rintro s slot _ _ ready empty rfl rfl
  refine ⟨rfl, fun unstaged => ?_, fun staged zero => ?_, fun staged input filter large => ?_,
    fun staged input filter fits => ?_⟩
  · exact configure_real_of_error ready empty (buildDfc_of_unstaged unstaged)
  · exact configure_real_of_error ready empty (buildDfc_of_zeroSize staged zero)
  · exact configure_real_of_error ready empty (buildDfc_of_overCapmax staged input filter large)
  · have hlength := psRange_length s (s.piNat 1)
    refine ⟨_, configure_real_of_ok ready empty (buildDfc_of_passed staged input filter fits),
      rfl, hlength, ?_, ?_, hlength, fun _ => getElem?_psRange, cell_nil, cell_nil⟩
    · exact congrArg (s.piNat 0 + · - 1) hlength
    · exact congrArg (fun f => nextPow2 (s.piNat 0 + f - 1)) hlength

/-- Settles O40: the rule of `DFC.WR` on both sides of its one check. -/
theorem dfcWrWritesOneInputCell : Obligations.DfcWrWritesOneInputCell := by
  unfold Obligations.DfcWrWritesOneInputCell
  exact fun s slot u ready held => ⟨rfl, exec_dfcWr_of_inside ready held, exec_dfcWr_of_outside ready held⟩

/-- Settles O41: the rule of `DFC.RUN`, its output buffer read cell by cell. -/
theorem dfcRunReplacesTheOutputBuffer : Obligations.DfcRunReplacesTheOutputBuffer := by
  unfold Obligations.DfcRunReplacesTheOutputBuffer
  rintro s slot u ⟨ready, real⟩ held
  exact ⟨rfl, _, exec_dfcRun ready real held, fun k hk => cell_runFilter s.params.arith u hk⟩

/-- Settles O43: the rule of `DFC.RD` on both sides of its one check. -/
theorem dfcRdReadsOneOutputCell : Obligations.DfcRdReadsOneOutputCell := by
  unfold Obligations.DfcRdReadsOneOutputCell
  exact fun s slot u ready held => ⟨rfl, exec_dfcRd_of_inside ready held, exec_dfcRd_of_outside ready held⟩

end

section
/-!
The overlap-add convolver (spec/46_overlap_add.md R180 to R182). The checks of `CFG.OLA` come one by one. Both loops of
`ADV.OLA` over the ring write each cell at most once (`cell_foldl_setCell`), which gives the ring after a block, cell by
cell. Over the rationals the convolution of a stream cut in two is that of the first part and that of the second
(`convRat_append`), so that the ring holds the outputs not read yet and the transients that the next block adds to
(`OlaHolds`).
-/

namespace Sys2Proof.Machine

/-! ### The checks of `CFG.OLA` (R180) -/

section
variable {s : State}

theorem buildOla_of_unstaged (h : s.params.nps < s.piNat 1) : buildOla s = .error .cfgSize := if_pos h

section
variable (staged : s.piNat 1 ≤ s.params.nps)
include staged

theorem buildOla_of_zeroSize (h : s.piNat 0 < 1 ∨ s.piNat 1 < 1) : buildOla s = .error .cfgRange := by
  rw [buildOla, if_neg (Nat.not_lt.mpr staged), if_pos h]

section
variable (window : 1 ≤ s.piNat 0) (filter : 1 ≤ s.piNat 1)
include window filter

theorem buildOla_of_overCapmax
    (h : s.params.capmax < 2 * nextPow2 (s.piNat 0 + s.piNat 1 - 1) + (s.piNat 0 + s.piNat 1 - 1)) :
    buildOla s = .error .cfgResource := by
  rw [buildOla, if_neg (Nat.not_lt.mpr staged), if_neg (by omega), if_pos h]

theorem buildOla_of_passed
    (h : 2 * nextPow2 (s.piNat 0 + s.piNat 1 - 1) + (s.piNat 0 + s.piNat 1 - 1) ≤ s.params.capmax) :
    buildOla s = .ok (.ola (freshOla (s.piNat 0) (s.psRange (s.piNat 1)))) := by
  rw [buildOla, if_neg (Nat.not_lt.mpr staged), if_neg (by omega), if_neg (Nat.not_lt.mpr h)]

end

end

end

/-! ### The loops over the ring (R181) -/

section
variable {size start o : Nat}

theorem ringOffset_injective {k : Nat} (ho : o < size) (hk : k < size) (h : (start + o) % size = (start + k) % size) :
    o = k :=
  Nat.ModEq.eq_of_lt_of_lt (Nat.ModEq.add_left_cancel' start h) ho hk

theorem ringOffset_add (a b c n : Nat) : ((a + b) % n + c) % n = (a + (b + c)) % n := by
  rw [Nat.mod_add_mod, Nat.add_assoc]

/-- A loop over `count` cells of the ring from `start` on, at most one turn: it changes each of them once, and the
others not at all. -/
theorem cell_foldl_setCell (g : Nat → Scalar → Scalar) (ring : Memory Scalar) {count : Nat} (hcount : count ≤ size)
    (ho : o < size) :
    cell ((List.range count).foldl
      (fun r k => setCell r ((start + k) % size) (g k (cell r ((start + k) % size)))) ring) ((start + o) % size) =
      if o < count then g o (cell ring ((start + o) % size)) else cell ring ((start + o) % size) := by
  induction count with
  | zero => rfl
  | succ count ih =>
    rw [List.range_succ, List.foldl_append, List.foldl_cons, List.foldl_nil]
    have before := ih (Nat.le_of_succ_le hcount)
    by_cases hlast : o = count
    · subst hlast
      rw [cell_setCell_same, before, if_neg (Nat.lt_irrefl o), if_pos (Nat.lt_succ_self o)]
    · have hother : (start + o) % size ≠ (start + count) % size :=
        fun h => hlast (ringOffset_injective ho hcount h)
      rw [cell_setCell_other _ _ _ _ hother, before]
      exact if_congr (by omega) rfl rfl

theorem cell_ringClear (ring : Memory Scalar) {count : Nat} (hcount : count ≤ size) (ho : o < size) :
    cell (ringClear ring size start count) ((start + o) % size) =
      if o < count then Scalar.zero else cell ring ((start + o) % size) :=
  cell_foldl_setCell (fun _ _ => Scalar.zero) ring hcount ho

theorem cell_ringAccumulate (ar : Arith) (ring : Memory Scalar) (f : Nat → Scalar) (ho : o < size) :
    cell (ringAccumulate ar ring size start f) ((start + o) % size) =
      sadd ar (cell ring ((start + o) % size)) (f o) :=
  (cell_foldl_setCell (fun k v => sadd ar v (f k)) ring (Nat.le_refl size) ho).trans (if_pos ho)

/-- The zero-clear loop of R181 keeps the transients, which are the first cells from the write index on. -/
theorem cell_ringClear_of_transients (ring : Memory Scalar) {window transients : Nat}
    (hsize : size = window + transients) (ho : o < size) :
    cell (ringClear ring size (start + transients) window) ((start + o) % size) =
      if transients ≤ o then Scalar.zero else cell ring ((start + o) % size) := by
  have hwindow : window ≤ size := by omega
  by_cases hlate : transients ≤ o
  · have hoffset : start + o = start + transients + (o - transients) := by omega
    rw [if_pos hlate, hoffset, cell_ringClear ring hwindow (by omega), if_pos (by omega)]
  · have hoffset : (start + o) % size = (start + transients + (o + window)) % size := by
      rw [show start + transients + (o + window) = start + o + size by omega, Nat.add_mod_right]
    rw [if_neg hlate, hoffset, cell_ringClear ring hwindow (by omega), if_neg (by omega)]

end

/-! ### `ADV.OLA` (R181) -/

section
variable {u : Ola}

theorem exec_advOla {s : State} {slot : Nat} (ready : ReadyReal s slot) (held : s.slotAt slot = some (.ola u)) :
    exec (.advOla slot) s =
      .next ((s.withSlot slot (some (.ola (advanceOla s.params.arith s.xin u).1))).withYout
        (advanceOla s.params.arith s.xin u).2) :=
  advance_real_of_held (sel := FilterUnit.asOla) (advanceOla s.params.arith s.xin) ready held rfl

/-- A sample that does not complete the window. -/
theorem advanceOla_of_open (ar : Arith) (x : Scalar) (h : u.inputIdx + 1 ≠ u.windowSize) :
    advanceOla ar x u = olaPop (olaPush x u) := congrArg olaPop (if_neg h)

/-- The sample that completes the window. -/
theorem advanceOla_of_full (ar : Arith) (x : Scalar) (h : u.inputIdx + 1 = u.windowSize) :
    advanceOla ar x u = olaPop (olaBlock ar (olaPush x u)) := congrArg olaPop (if_pos h)

/-- The ring after a block: the transients stay, the cells behind them start from zero, and each gains its result. -/
theorem cell_olaBlock_ring (ar : Arith) (hsize : u.outputSize = u.windowSize + u.numTransients) {o : Nat}
    (ho : o < u.outputSize) :
    cell (olaBlock ar u).ring ((u.writeIdx + o) % u.outputSize) =
      sadd ar (if u.numTransients ≤ o then Scalar.zero else cell u.ring ((u.writeIdx + o) % u.outputSize))
        (cell (runFilter ar u.dfc).output o) := by
  rw [← cell_ringClear_of_transients u.ring hsize ho]
  exact cell_ringAccumulate ar _ _ ho

end

/-! ### The convolution of a stream cut in two (R182) -/

section
variable {h xs : List Rat} {n : Nat}

theorem pastRat_append_add (xs ys : List Rat) (o j : Nat) :
    pastRat (xs ++ ys) (xs.length + o) j = pastRat xs (xs.length + o) j + pastRat ys o j := by
  by_cases hj : j ≤ o
  · have hlate : pastRat xs (xs.length + o) j = 0 :=
      (if_pos (by omega)).trans (List.getD_eq_default xs 0 (by omega))
    rw [hlate, zero_add, pastRat, pastRat, if_pos hj, if_pos (by omega),
      List.getD_append_right _ _ _ _ (by omega), show xs.length + o - j - xs.length = o - j by omega]
  · have hnone : pastRat ys o j = 0 := if_neg hj
    rw [hnone, add_zero, pastRat_append ys (by omega)]

theorem convRat_append (h xs ys : List Rat) (o : Nat) :
    convRat h (xs ++ ys) (xs.length + o) = convRat h xs (xs.length + o) + convRat h ys o := by
  simp only [convRat_eq_sum, ← Finset.sum_add_distrib, ← mul_add, pastRat_append_add]

/-- Samples that follow do not change the convolution at the samples before. -/
theorem convRat_append_of_lt (ys : List Rat) (hn : n < xs.length) : convRat h (xs ++ ys) n = convRat h xs n := by
  have hpast (j : Nat) : pastRat (xs ++ ys) n j = pastRat xs n j := pastRat_append ys (Nat.lt_add_right j hn)
  simp only [convRat_eq_sum, hpast]

/-- The output of R182 at `n`: the convolution, `windowSize − 1` commands late. -/
def delayedConv (windowSize : Nat) (h xs : List Rat) (n : Nat) : Rat :=
  if n + 1 < windowSize then 0 else convRat h xs (n + 1 - windowSize)

theorem delayedConv_append {windowSize : Nat} (ys : List Rat) (hn : n + 1 < xs.length + windowSize) :
    delayedConv windowSize h (xs ++ ys) n = delayedConv windowSize h xs n := by
  unfold delayedConv
  split
  · rfl
  · exact convRat_append_of_lt ys (by omega)

theorem delayedConv_of_add {windowSize k : Nat} (hn : n + 1 = k + windowSize) :
    delayedConv windowSize h xs n = convRat h xs k := by
  rw [delayedConv, if_neg (by omega), hn, Nat.add_sub_cancel]

end

/-! ### The stream of a fresh OLA in exact arithmetic (R182) -/

/-- The input buffer of the embedded convolver while `window` comes in: the rest of the window may hold older samples,
and what lies behind it is zero (R39 item 4). -/
def WindowHolds (windowSize : Nat) (input : Memory Scalar) (window : List Rat) : Prop :=
  ∀ a, a < window.length ∨ windowSize ≤ a → cell input a = .ofRat (window.getD a 0)

section
variable {windowSize : Nat} {input : Memory Scalar} {window : List Rat}

theorem WindowHolds.push (h : WindowHolds windowSize input window) (x : Rat) :
    WindowHolds windowSize (setCell input window.length (.ofRat x)) (window ++ [x]) := by
  intro a ha
  rw [List.length_append, List.length_singleton] at ha
  by_cases hlast : a = window.length
  · subst hlast
    rw [cell_setCell_same, List.getD_append_right _ _ _ _ (Nat.le_refl _), Nat.sub_self]
    rfl
  · have hold := h a (by omega)
    rw [cell_setCell_other _ _ _ _ hlast, hold]
    rcases Nat.lt_or_ge a window.length with hlt | hge
    · rw [List.getD_append _ _ _ _ hlt]
    · rw [List.getD_eq_default _ _ hge, List.getD_eq_default _ _ (by simp; omega)]

/-- A full window is the whole buffer. -/
theorem WindowHolds.cell_of_full (h : WindowHolds windowSize input window) (hfull : window.length = windowSize)
    (a : Nat) : cell input a = .ofRat (window.getD a 0) := h a (by omega)

/-- After a block the window is open again. -/
theorem WindowHolds.restart (h : WindowHolds windowSize input window) (hfull : window.length = windowSize) :
    WindowHolds windowSize input [] := by
  intro a ha
  have hbehind : windowSize ≤ a := ha.resolve_left (Nat.not_lt_zero a)
  rw [h a (.inr hbehind), List.getD_eq_default _ _ (hfull ▸ hbehind)]
  rfl

end

/-- `u` is the OLA of `windowSize` and `h` after the samples `blocks ++ window`, of which `blocks` went through the
convolver: from the write index on the ring holds their transients, and from the output index on the outputs that will
be read before the next block. -/
structure OlaHolds (windowSize : Nat) (h blocks window : List Rat) (u : Ola) : Prop where
  config : (FilterUnit.ola u).configPart = (FilterUnit.ola (freshOla windowSize (h.map Scalar.ofRat))).configPart
  isOpen : window.length < windowSize
  inputIdx : u.inputIdx = window.length
  writeIdx : u.writeIdx < u.outputSize
  outputIdx : u.outputIdx < u.outputSize
  input : WindowHolds windowSize u.dfc.input window
  transients : ∀ o < u.numTransients,
    cell u.ring ((u.writeIdx + o) % u.outputSize) = .ofRat (convRat h blocks (blocks.length + o))
  unread : ∀ i, window.length + 1 + i < windowSize →
    cell u.ring ((u.outputIdx + i) % u.outputSize) =
      .ofRat (delayedConv windowSize h (blocks ++ window) ((blocks ++ window).length + i))

section
variable {windowSize : Nat} {h blocks window : List Rat} {u : Ola}

theorem olaHolds_fresh (hwindow : 1 ≤ windowSize) (hfilter : 1 ≤ h.length) :
    OlaHolds windowSize h [] [] (freshOla windowSize (h.map Scalar.ofRat)) := by
  have hsize : 0 < windowSize + (h.map Scalar.ofRat).length - 1 := by
    rw [List.length_map]
    omega
  refine ⟨rfl, hwindow, rfl, hsize, hsize, fun a _ => rfl, fun o _ => ?_, fun i hi => ?_⟩
  · simp [freshOla, convRat_eq_sum, pastRat]
  · have hearly : delayedConv windowSize h ([] ++ []) (([] ++ [] : List Rat).length + i) = 0 :=
      if_pos (by simpa [Nat.add_comm] using hi)
    rw [hearly]
    rfl

section
variable (holds : OlaHolds windowSize h blocks window u)
include holds

theorem OlaHolds.windowSize_eq : u.windowSize = windowSize :=
  congrArg Ola.windowSize (FilterUnit.ola.inj holds.config)

theorem OlaHolds.numTransients_eq : u.numTransients = h.length - 1 :=
  (congrArg Ola.numTransients (FilterUnit.ola.inj holds.config)).trans (by simp [freshOla])

theorem OlaHolds.outputSize_eq : u.outputSize = windowSize + h.length - 1 :=
  (congrArg Ola.outputSize (FilterUnit.ola.inj holds.config)).trans (by simp [freshOla])

theorem OlaHolds.filter_eq : u.dfc.h = h.map Scalar.ofRat :=
  congrArg (fun v : Ola => v.dfc.h) (FilterUnit.ola.inj holds.config)

theorem OlaHolds.outputSize_le_fftSize : u.outputSize ≤ u.dfc.fftSize := by
  have hfft : u.dfc.fftSize = nextPow2 (windowSize + (h.map Scalar.ofRat).length - 1) :=
    congrArg (fun v : Ola => v.dfc.fftSize) (FilterUnit.ola.inj holds.config)
  rw [hfft, holds.outputSize_eq, List.length_map, nextPow2_eq_two_pow_clog]
  exact Nat.le_pow_clog Nat.one_lt_two _

theorem OlaHolds.outputSize_eq_add (hfilter : 1 ≤ h.length) : u.outputSize = u.windowSize + u.numTransients := by
  rw [holds.windowSize_eq, holds.numTransients_eq, holds.outputSize_eq]
  omega

theorem OlaHolds.input_push (x : Rat) :
    WindowHolds windowSize (olaPush (.ofRat x) u).dfc.input (window ++ [x]) := by
  have hpush := holds.input.push x
  rw [← holds.inputIdx] at hpush
  exact hpush

/-- A sample that does not complete the window: its output is the next one not read yet. -/
theorem OlaHolds.advance_open (x : Rat) (hopen : window.length + 1 < windowSize) :
    OlaHolds windowSize h blocks (window ++ [x]) (advanceOla .exact (.ofRat x) u).1 ∧
      (advanceOla .exact (.ofRat x) u).2 =
        .ofRat (delayedConv windowSize h (blocks ++ window ++ [x]) (blocks ++ window).length) := by
  have hsize := Nat.zero_lt_of_lt holds.outputIdx
  have hindex : u.inputIdx + 1 ≠ u.windowSize := by
    rw [holds.inputIdx, holds.windowSize_eq]
    omega
  have hconfig := (advanceOla_configPart .exact (.ofRat x) u).trans holds.config
  have hread : cell u.ring u.outputIdx = _ := Nat.mod_eq_of_lt holds.outputIdx ▸ holds.unread 0 hopen
  rw [advanceOla_of_open .exact _ hindex] at hconfig ⊢
  refine ⟨⟨hconfig, by simpa using hopen, by simp [olaPop, olaPush, holds.inputIdx], holds.writeIdx,
    Nat.mod_lt _ hsize, holds.input_push x, holds.transients, fun i hi => ?_⟩, ?_⟩
  · rw [List.length_append, List.length_singleton] at hi
    have hlength : (blocks ++ (window ++ [x])).length + i = (blocks ++ window).length + (1 + i) := by
      simp [Nat.add_assoc]
    have hunread := holds.unread (1 + i) (by omega)
    rw [← ringOffset_add] at hunread
    rw [hlength, ← List.append_assoc, delayedConv_append [x] (by omega)]
    exact hunread
  · rw [delayedConv_append [x] (by omega)]
    exact hread

/-- The ring after a block: the convolution of the window joins the transients of the blocks before. -/
theorem OlaHolds.cell_olaBlock_ring_exact (hfilter : 1 ≤ h.length) (x : Rat) (hfull : window.length + 1 = windowSize)
    {o : Nat} (ho : o < u.outputSize) :
    cell (olaBlock .exact (olaPush (.ofRat x) u)).ring ((u.writeIdx + o) % u.outputSize) =
      .ofRat (convRat h (blocks ++ window ++ [x]) (blocks.length + o)) := by
  have hsize := holds.outputSize_eq
  have htransients := holds.numTransients_eq
  have hfft := holds.outputSize_le_fftSize
  have hlength : (window ++ [x]).length = windowSize := by simpa using hfull
  have hkept : (if u.numTransients ≤ o then Scalar.zero else cell u.ring ((u.writeIdx + o) % u.outputSize)) =
      .ofRat (convRat h blocks (blocks.length + o)) := by
    split
    · rw [convRat_eq_zero (by omega)]
    · exact holds.transients o (by omega)
  have hrun : cell (runFilter .exact (olaPush (.ofRat x) u).dfc).output o = .ofRat (convRat h (window ++ [x]) o) :=
    cell_runFilter_exact holds.filter_eq ((holds.input_push x).cell_of_full hlength)
      (show (window ++ [x]).length + h.length ≤ u.dfc.fftSize + 1 by omega) (by omega)
      (show o < u.dfc.fftSize by omega)
  calc cell (olaBlock .exact (olaPush (.ofRat x) u)).ring ((u.writeIdx + o) % u.outputSize)
    _ = sadd .exact (if u.numTransients ≤ o then Scalar.zero else cell u.ring ((u.writeIdx + o) % u.outputSize))
          (cell (runFilter .exact (olaPush (.ofRat x) u).dfc).output o) :=
        cell_olaBlock_ring .exact (u := olaPush (.ofRat x) u) (holds.outputSize_eq_add hfilter) ho
    _ = .ofRat (convRat h blocks (blocks.length + o) + convRat h (window ++ [x]) o) := by
        rw [hkept, hrun, sadd_exact]
    _ = .ofRat (convRat h (blocks ++ window ++ [x]) (blocks.length + o)) := by
        rw [List.append_assoc, convRat_append]

/-- The sample that completes the window: the first output of the new block is read. -/
theorem OlaHolds.advance_full (hfilter : 1 ≤ h.length) (x : Rat) (hfull : window.length + 1 = windowSize) :
    OlaHolds windowSize h (blocks ++ window ++ [x]) [] (advanceOla .exact (.ofRat x) u).1 ∧
      (advanceOla .exact (.ofRat x) u).2 =
        .ofRat (delayedConv windowSize h (blocks ++ window ++ [x]) (blocks ++ window).length) := by
  obtain rfl := holds.windowSize_eq
  have hindex : u.inputIdx + 1 = u.windowSize := by rw [holds.inputIdx, hfull]
  have hsize := holds.outputSize_eq_add hfilter
  have hpos := Nat.zero_lt_of_lt holds.outputIdx
  have hlength : (blocks ++ window).length + 1 = blocks.length + u.windowSize := by
    rw [List.length_append, Nat.add_assoc, hfull]
  have hring {o : Nat} (ho : o < u.outputSize) := holds.cell_olaBlock_ring_exact hfilter x hfull ho
  have hread : cell (olaBlock .exact (olaPush (.ofRat x) u)).ring u.writeIdx = _ :=
    Nat.mod_eq_of_lt holds.writeIdx ▸ hring hpos
  have hconfig := (advanceOla_configPart .exact (.ofRat x) u).trans holds.config
  rw [advanceOla_of_full .exact _ hindex] at hconfig ⊢
  refine ⟨⟨hconfig, Nat.zero_lt_of_lt holds.isOpen, rfl, Nat.mod_lt _ hpos, Nat.mod_lt _ hpos,
    (holds.input_push x).restart (by simpa using hfull), fun o ho => ?_, fun i hi => ?_⟩, ?_⟩
  · change o < u.numTransients at ho
    have hnext := hring (o := u.windowSize + o) (by omega)
    rw [← ringOffset_add, ← Nat.add_assoc, ← hlength] at hnext
    rw [List.length_append (as := blocks ++ window)]
    exact hnext
  · rw [List.length_nil] at hi
    have hnext := hring (o := 1 + i) (by omega)
    rw [← ringOffset_add] at hnext
    rw [List.append_nil, List.length_append (as := blocks ++ window), List.length_singleton,
      delayedConv_of_add (k := blocks.length + (1 + i)) (by omega)]
    exact hnext
  · rw [delayedConv_of_add hlength]
    exact hread

/-- One more sample, at either place in its window. -/
theorem OlaHolds.advance (hfilter : 1 ≤ h.length) (x : Rat) :
    ∃ blocks' window', blocks' ++ window' = blocks ++ window ++ [x] ∧
      OlaHolds windowSize h blocks' window' (advanceOla .exact (.ofRat x) u).1 ∧
      (advanceOla .exact (.ofRat x) u).2 =
        .ofRat (delayedConv windowSize h (blocks ++ window ++ [x]) (blocks ++ window).length) := by
  rcases Nat.lt_or_eq_of_le (Nat.succ_le_of_lt holds.isOpen) with hopen | hfull
  · exact ⟨blocks, window ++ [x], (List.append_assoc _ _ _).symm, holds.advance_open x hopen⟩
  · exact ⟨blocks ++ window ++ [x], [], List.append_nil _, holds.advance_full hfilter x hfull⟩

end

end

section
variable {windowSize slot : Nat} {h xs ys : List Rat} {s : State}

/-- The slot holds the OLA after the inputs `xs`, and its outputs `ys` were those of R182. -/
structure OlaAfter (windowSize : Nat) (h : List Rat) (slot : Nat) (xs ys : List Rat) (s : State) : Prop where
  ready : Ready s slot
  arith : s.params.arith = .exact
  held : ∃ blocks window u, blocks ++ window = xs ∧ s.slotAt slot = some (.ola u) ∧
    OlaHolds windowSize h blocks window u
  outputs : ys = (List.range xs.length).map (delayedConv windowSize h xs)

theorem olaAfter_fresh (ready : Ready s slot) (harith : s.params.arith = .exact) (hwindow : 1 ≤ windowSize)
    (hfilter : 1 ≤ h.length) (held : s.slotAt slot = some (.ola (freshOla windowSize (h.map Scalar.ofRat)))) :
    OlaAfter windowSize h slot [] [] s where
  ready := ready
  arith := harith
  held := ⟨[], [], _, rfl, held, olaHolds_fresh hwindow hfilter⟩
  outputs := rfl

/-- One more sample. -/
theorem OlaAfter.oneSample (after : OlaAfter windowSize h slot xs ys s) (hslot : slot < 256) (hwindow : 1 ≤ windowSize)
    (hfilter : 1 ≤ h.length) (x : Rat) :
    ∃ t y, oneSample .ola slot (.ofRat x) s = .next (t, .ofRat y) ∧
      OlaAfter windowSize h slot (xs ++ [x]) (ys ++ [y]) t := by
  obtain ⟨ready, harith, ⟨blocks, window, u, rfl, held, holds⟩, rfl⟩ := after
  obtain ⟨blocks', window', hsamples, holds', hy⟩ := holds.advance hfilter x
  have real : (s.withXin (.ofRat x)).params.arith ≠ .complex := by
    rw [State.withXin_params, harith]
    nofun
  have hexec := exec_advOla (s := s.withXin (.ofRat x)) ⟨ready, real⟩ held
  rw [State.withXin_params, harith, State.withXin_xin, hy] at hexec
  obtain ⟨t, hone, ready_t, hparams, held_t⟩ := oneSample_of_exec (kind := .ola) hslot ready hexec
  refine ⟨t, _, hone, ready_t, by rw [hparams, harith], ⟨_, _, _, hsamples, held_t, holds'⟩, ?_⟩
  rw [List.length_append (as := blocks ++ window), List.length_singleton, List.range_succ, List.map_append]
  refine congrArg (· ++ _) (List.map_congr_left fun n hn => (delayedConv_append [x] ?_).symm)
  have hold := List.mem_range.mp hn
  omega

end

end Sys2Proof.Machine

open Sys2Proof Sys2Proof.Machine

/-- Settles O45: within a window the rule of `ADV.OLA` is its first and last step; a block is read cell by cell. -/
theorem advOlaPushesRunsAndPops : Obligations.AdvOlaPushesRunsAndPops := by
  unfold Obligations.AdvOlaPushesRunsAndPops
  intro s slot u ready held
  refine ⟨rfl, fun hopen => ?_, fun hfull hsize _ _ => ?_⟩
  · rw [exec_advOla ready held, advanceOla_of_open _ _ hopen]
    rfl
  · refine ⟨_, _, exec_advOla ready held, ?_⟩
    rw [advanceOla_of_full _ _ hfull]
    exact ⟨rfl, fun k hk => cell_runFilter s.params.arith (olaPush s.xin u).dfc hk,
      fun o ho => cell_olaBlock_ring s.params.arith (u := olaPush s.xin u) hsize ho, rfl, rfl⟩

/-- Settles O46, by induction on the samples: the ring holds the outputs not read yet, and the transients to which the
next block adds its convolution. -/
theorem olaStreamIsTheDelayedConvolution : Obligations.OlaStreamIsTheDelayedConvolution := by
  unfold Obligations.OlaStreamIsTheDelayedConvolution
  intro s slot windowSize h xs ready hslot harith hwindow hfilter held
  obtain ⟨t, ys, hprocess, hafter⟩ :=
    process_exact_induction (kind := .ola) (P := OlaAfter windowSize h slot) xs
      (fun x _ _ _ after => after.oneSample hslot hwindow hfilter x) (fun _ _ _ after => after.ready.1)
      (olaAfter_fresh ready harith hwindow hfilter held)
  refine ⟨t, _, hprocess, by simp [hafter.outputs], fun n hn => ?_⟩
  rw [getD_map_ofRat, hafter.outputs]
  simp [hn, delayedConv]

/-- Settles O44: one lemma for each check of R180, in their order, and the unit they leave. -/
theorem cfgOlaBuildsTheStagedConvolver : Obligations.CfgOlaBuildsTheStagedConvolver := by
  unfold Obligations.CfgOlaBuildsTheStagedConvolver
  rintro s slot _ _ ready empty rfl rfl
  refine ⟨rfl, fun unstaged => ?_, fun staged zero => ?_, fun staged window filter large => ?_,
    fun staged window filter fits => ?_⟩
  · exact configure_real_of_error ready empty (buildOla_of_unstaged unstaged)
  · exact configure_real_of_error ready empty (buildOla_of_zeroSize staged zero)
  · exact configure_real_of_error ready empty (buildOla_of_overCapmax staged window filter large)
  · have hlength := psRange_length s (s.piNat 1)
    have hsize : s.piNat 0 + (s.psRange (s.piNat 1)).length - 1 = s.piNat 0 + s.piNat 1 - 1 :=
      congrArg (s.piNat 0 + · - 1) hlength
    exact ⟨_, configure_real_of_ok ready empty (buildOla_of_passed staged window filter fits),
      rfl, hlength, congrArg (· - 1) hlength, hsize, rfl, hlength, hsize, congrArg nextPow2 hsize, hlength,
      fun _ => getElem?_psRange, cell_nil, cell_nil, cell_nil, rfl, rfl, rfl⟩

end

section
/-!
Faults and reset (spec/60_exceptions.md R212 to R214, spec/70_reset_and_hazards.md R240). Of the cases of `Effect` the
fault alone leaves a running block FAULTED (`issue_eq_raise_of_faulted`), and in a FAULTED block `Effect` has one case,
that the command is ignored (`exec_of_faulted`); the host's own actions write operand registers and readings only, so
that what the block holds besides is kept along every run (`run_of_faulted`).
-/

namespace Sys2Proof.Machine

section
variable {s t : State} {i : Instr}

/-! ### What a fault records (R212, R213) -/

/-- A fault writes one word to `FSTAT`, whose four fields are these, and nothing else. -/
theorem raise_records (c : FaultCause) (w : Word) (s : State) :
    ∃ f : Word, raise c w s = s.withFstat f ∧ bits f 7 0 = c.code ∧ bits f 15 8 = bits w 15 8 ∧
      bits f 23 16 = bits w 7 0 ∧ bits f 31 24 = 0 ∧ (raise c w s).faultO = true :=
  ⟨fstatImage c w, rfl, fstatCause_fstatImage c w, fstatSlot_fstatImage c w, fstatOp_fstatImage c w,
    fstatReserved_fstatImage c w, raise_faulted c w s⟩

/-- A command that leaves a running block FAULTED has raised a fault with its own word. -/
theorem Effect.eq_raise_of_faulted (h : Effect i s t) (hs : s.faulted = false) (ht : t.faulted = true) :
    ∃ c, t = raise c (encode i) s := by
  cases h with
  | faults c => exact ⟨c, rfl⟩
  | ignored | stagesInteger | stagesScalar | configures | advances | writesInput | runsFilter | readsOutput
  | frees => exact absurd (hs.symm.trans ht) Bool.false_ne_true

/-- A word that leaves a running block FAULTED has raised a fault, which records this word: a legal word is the word of
its command. -/
theorem issue_eq_raise_of_faulted {w : Word} (h : issue w s = .next t) (hs : s.faulted = false)
    (ht : t.faulted = true) : ∃ c, t = raise c w s := by
  rcases issue_next h with rfl | rfl | ⟨i, hw, he⟩
  · exact absurd (hs.symm.trans ht) Bool.false_ne_true
  · exact ⟨_, rfl⟩
  · exact encode_of_decode hw ▸ he.eq_raise_of_faulted hs ht

/-! ### The FAULTED state (R214) -/

theorem Effect.eq_of_faulted (h : Effect i s t) (hf : s.faulted = true) : t = s := by
  have notRunning (running : s.faulted = false) : False := Bool.false_ne_true (running.symm.trans hf)
  cases h with
  | ignored => rfl
  | faults _ running | stagesInteger _ running | stagesScalar _ running => exact (notRunning running).elim
  | configures _ ready | advances _ ready | writesInput _ ready | runsFilter _ ready | readsOutput _ ready
  | frees _ ready => exact (notRunning ready.1).elim

theorem exec_of_faulted (i : Instr) (hf : s.faulted = true) : exec i s = .next s := by
  rcases exec_answers i s with ⟨t, ht⟩ | ⟨-, running, -⟩
  · exact (exec_effect ht).eq_of_faulted hf ▸ ht
  · exact absurd (running.symm.trans hf) Bool.false_ne_true

/-- `t` has what `s` has in the block, but for the operand registers, which the host writes in the FAULTED state too
(R42). -/
structure SameBlock (s t : State) : Prop where
  fstat : t.fstat = s.fstat
  yout : t.yout = s.yout
  pi : t.pi = s.pi
  ps : t.ps = s.ps
  slots : t.slots = s.slots

theorem SameBlock.refl (s : State) : SameBlock s s := ⟨rfl, rfl, rfl, rfl, rfl⟩

theorem SameBlock.trans {r : State} (h : SameBlock r s) (k : SameBlock s t) : SameBlock r t :=
  ⟨k.fstat.trans h.fstat, k.yout.trans h.yout, k.pi.trans h.pi, k.ps.trans h.ps, k.slots.trans h.slots⟩

theorem SameBlock.faulted (h : SameBlock s t) : t.faulted = s.faulted := by
  rw [State.faulted, h.fstat, State.faulted]

theorem perform_of_faulted_sameBlock (a : HostAction) (hf : s.faulted = true) :
    ∃ t, perform a s = .next t ∧ SameBlock s t := by
  cases a with
  | command w => exact ⟨s, issue_of_faulted s w hf, .refl s⟩
  | setIarg | setXin | setDin | getYout | getFstat | getIarg | getXin | getDin =>
    exact ⟨_, rfl, rfl, rfl, rfl, rfl, rfl⟩

theorem step_of_faulted (hf : s.faulted = true) : ∃ t, step s = .next t ∧ SameBlock s t := by
  cases ha : s.nextAction? with
  | none => exact ⟨s, step_of_end s ha, .refl s⟩
  | some a =>
    obtain ⟨t, ht, same⟩ := perform_of_faulted_sameBlock a hf
    exact ⟨_, step_of_perform ha ht, same.trans ⟨rfl, rfl, rfl, rfl, rfl⟩⟩

/-- A run from a FAULTED block is never stopped, and keeps the block. -/
theorem run_of_faulted (n : Nat) (hf : s.faulted = true) :
    ∃ t, Host.Core.run core n s = .next t ∧ SameBlock s t := by
  induction n generalizing s with
  | zero => exact ⟨s, rfl, .refl s⟩
  | succ n ih =>
    obtain ⟨u, hu, same⟩ := step_of_faulted hf
    obtain ⟨t, ht, rest⟩ := ih (same.faulted.trans hf)
    exact ⟨t, (run_succ_of_next hu).trans ht, same.trans rest⟩

end

end Sys2Proof.Machine

open Sys2Proof Sys2Proof.Machine

/-- Settles O11: the codes are those of R211, and the fields are read off the image of the fault. -/
theorem fstatRecordsTheFault : Obligations.FstatRecordsTheFault := by
  unfold Obligations.FstatRecordsTheFault
  exact ⟨rfl, raise_records⟩

/-- Settles O12: the state after is the fault raised with this word. -/
theorem faultsArePrecise : Obligations.FaultsArePrecise := by
  unfold Obligations.FaultsArePrecise
  intro w s t hs h ht
  obtain ⟨c, rfl⟩ := issue_eq_raise_of_faulted h hs ht
  exact ⟨c, raise_records c w s⟩

/-- Settles O56: reset leaves the values of O55, and a step of a FAULTED block keeps `FSTAT`. -/
theorem resetEventEndsTheFaultedState : Obligations.ResetEventEndsTheFaultedState := by
  unfold Obligations.ResetEventEndsTheFaultedState
  intro s
  obtain ⟨hiarg, hxin, hdin, hyout, hfstat, hrunning, hpi, hps, hslots, -⟩ :=
    resetLeavesEverythingZeroAndEmpty s.params s.program s.pulseReset rfl
  refine ⟨⟨hiarg, hxin, hdin, hyout, hfstat, hrunning, hrunning, hpi, hps, fun n => (hslots n).2⟩, fun hf t ht => ?_⟩
  obtain ⟨_, hstep, same⟩ := step_of_faulted hf
  cases hstep.symm.trans ht
  exact same.faulted.trans hf

/-- Settles O14: the run keeps the block (`run_of_faulted`), by induction on its length. -/
theorem faultedIsKeptAlongEveryRun : Obligations.FaultedIsKeptAlongEveryRun := by
  unfold Obligations.FaultedIsKeptAlongEveryRun
  intro s hf
  obtain ⟨⟨-, -, -, -, -, running, -⟩, -⟩ := resetEventEndsTheFaultedState s
  refine ⟨fun w => issue_of_faulted s w hf, fun i => exec_of_faulted i hf, fun n t ht => ?_, running⟩
  obtain ⟨_, hrun, same⟩ := run_of_faulted n hf
  cases hrun.symm.trans ht
  exact ⟨same.faulted.trans hf, same.fstat, same.yout, same.pi, same.ps, same.slots⟩

end

section
/-!
Composers and drivers of the host (spec/49_host_composition.md R191 to R198, spec/60_exceptions.md R210, R214, R219).
Every run of a configured graph is made of samples through units, which fail on a FAULTED block only
(`runGraph_neverMisconfigured`); every procedure ends by asking whether the block is FAULTED
(`running_of_andThen_unlessFaulted`); and a bounded sink takes what an unbounded one does, up to its capacity
(`Answered.drain_of_room`, `Answered.drain_of_full`).
-/

namespace Sys2Proof.Machine

/-! ### Configuration violations (R193 to R195, R210) -/

/-- The outcome is no failed run by a configuration violation. -/
def NeverMisconfigured {α : Type} (o : HostOutcome α) : Prop := ∀ t, o ≠ .failed t .hostConfiguration

section
variable {α β : Type} {s : State}

theorem neverMisconfigured_next (r : State × α) : NeverMisconfigured (.next r) := fun _ h => by cases h

theorem neverMisconfigured_blockFaulted (s : State) :
    NeverMisconfigured (.failed s .blockFaulted : HostOutcome α) := fun _ h => by cases h

theorem neverMisconfigured_refused (r : Refusal) : NeverMisconfigured (.refused r : HostOutcome α) :=
  fun _ h => by cases h

theorem NeverMisconfigured.andThen {p : HostOutcome α} {k : State → α → HostOutcome β} (hp : NeverMisconfigured p)
    (hk : ∀ s v, NeverMisconfigured (k s v)) : NeverMisconfigured (andThen p k) := by
  cases p with
  | next r => exact hk r.1 r.2
  | failed s f =>
    rintro t ⟨⟩
    exact hp s rfl
  | refused r => exact neverMisconfigured_refused r

theorem unlessFaulted_neverMisconfigured (s : State) (v : α) : NeverMisconfigured (unlessFaulted s v) := by
  cases hf : s.faulted with
  | false => exact unlessFaulted_of_running v hf ▸ neverMisconfigured_next _
  | true => exact unlessFaulted_of_faulted v hf ▸ neverMisconfigured_blockFaulted s

theorem constructed_neverMisconfigured {gs : List Graph} {p : HostOutcome α} (hgs : allConfigured gs = true)
    (hp : NeverMisconfigured p) : NeverMisconfigured (constructed gs s p) := by
  rw [constructed, if_pos hgs, unlessAliased]
  split
  · exact hp
  · exact neverMisconfigured_refused _

theorem oneSample_neverMisconfigured (kind : AdvKind) (slot : Nat) (x : Scalar) (s : State) :
    NeverMisconfigured (oneSample kind slot x s) := by
  rcases oneSample_cases kind slot x s with ⟨t, y, h, -⟩ | ⟨e, t, h, -⟩ | ⟨r, h, -⟩
  · exact h ▸ neverMisconfigured_next _
  · exact h ▸ neverMisconfigured_blockFaulted e
  · exact h ▸ neverMisconfigured_refused r

theorem allConfigured_cons {g : Graph} {gs : List Graph} :
    allConfigured (g :: gs) = true ↔ g.configured = true ∧ allConfigured gs = true := by
  rw [allConfigured, Bool.and_eq_true]

theorem allConfigured_singleton (g : Graph) : allConfigured [g] = g.configured := by
  rw [allConfigured, allConfigured, Bool.and_true]

mutual

/-- One sample through a graph without a violation, by recursion over the graph. -/
theorem runGraph_neverMisconfigured : (g : Graph) → g.configured = true → (x : Scalar) → (s : State) →
    NeverMisconfigured (runGraph g x s)
  | .single kind slot, _, x, s => by
    rw [runGraph]
    exact oneSample_neverMisconfigured kind slot x s
  | .series [], h, _, _ => by simp [Graph.configured] at h
  | .series (g :: gs), h, x, s => by
    obtain ⟨hg, hgs⟩ : g.configured = true ∧ allConfigured gs = true := by
      simpa [Graph.configured, allConfigured_cons] using h
    rw [runGraph]
    exact (runGraph_neverMisconfigured g hg x s).andThen fun t v => runSeries_neverMisconfigured gs hgs v t
  | .parallel lt children, h, x, s => by
    obtain ⟨hlength, hchildren⟩ : lt.length = children.length ∧ allConfigured children = true := by
      simpa [Graph.configured] using h
    rw [runGraph, if_pos hlength]
    exact (runEach_neverMisconfigured children hchildren x s).andThen fun _ _ => neverMisconfigured_next _
  | .summing children, h, x, s => by
    rw [Graph.configured] at h
    rw [runGraph]
    exact (runEach_neverMisconfigured children h x s).andThen fun _ _ => neverMisconfigured_next _

theorem runSeries_neverMisconfigured : (gs : List Graph) → allConfigured gs = true → (v : Scalar) → (s : State) →
    NeverMisconfigured (runSeries gs v s)
  | [], _, v, s => by
    rw [runSeries]
    exact neverMisconfigured_next _
  | g :: gs, h, v, s => by
    obtain ⟨hg, hgs⟩ := allConfigured_cons.mp h
    rw [runSeries]
    exact (runGraph_neverMisconfigured g hg v s).andThen fun t u => runSeries_neverMisconfigured gs hgs u t

theorem runEach_neverMisconfigured : (gs : List Graph) → allConfigured gs = true → (x : Scalar) → (s : State) →
    NeverMisconfigured (runEach gs x s)
  | [], _, x, s => by
    rw [runEach]
    exact neverMisconfigured_next _
  | g :: gs, h, x, s => by
    obtain ⟨hg, hgs⟩ := allConfigured_cons.mp h
    rw [runEach]
    exact (runGraph_neverMisconfigured g hg x s).andThen fun t _ =>
      (runEach_neverMisconfigured gs hgs x t).andThen fun _ _ => neverMisconfigured_next _

end

/-- A MIMO filter over a graph with a violation fails before its first command, whatever it would have run. -/
theorem Mimo.checked_of_violation {m : Mimo} (p : HostOutcome α) (hsquare : m.outputLt.length = m.filters.length)
    (h : allConfigured m.filters = false) : m.checked s p = .failed s .hostConfiguration := by
  rw [Mimo.checked, if_neg (not_not_intro hsquare)]
  split
  · rfl
  · exact constructed_of_violation s p h

theorem Mimo.checked_of_ok {m : Mimo} (p : HostOutcome α) (hsquare : m.outputLt.length = m.filters.length)
    (hrows : m.outputLt.any (fun row => row.length != m.filters.length) = false)
    (h : allConfigured m.filters = true) (hslots : (slotsOf m.filters).Nodup) : m.checked s p = p := by
  rw [Mimo.checked, if_neg (not_not_intro hsquare), if_neg (by simp [hrows]), constructed_of_ok s p h hslots]

theorem Mimo.checked_eq_next {m : Mimo} {p : HostOutcome α} {r : State × α} (h : m.checked s p = .next r) :
    p = .next r := by
  unfold Mimo.checked at h
  split at h
  · cases h
  · split at h
    · cases h
    · obtain ⟨-, -, hp⟩ := constructed_eq_next h
      exact hp

end

/-! ### Procedures that are done (R214) -/

section
variable {α β : Type} {s t : State}

theorem running_of_andThen_unlessFaulted {p : HostOutcome α} {answer : State → α → β} {y : β}
    (h : andThen p (fun s v => unlessFaulted s (answer s v)) = .next (t, y)) : t.faulted = false := by
  obtain ⟨_, _, -, hu⟩ := andThen_eq_next h
  obtain ⟨rfl, -, hf⟩ := unlessFaulted_eq_next hu
  exact hf

/-- A procedure into the unbounded sink that answers the values received (R191) is done where the one into the sink
is. -/
theorem running_of_items {p : HostOutcome Sink} {ys : List Scalar}
    (h : andThen (andThen p unlessFaulted) (fun t k => .next (t, k.items)) = .next (t, ys)) : t.faulted = false := by
  obtain ⟨_, _, hp, hk⟩ := andThen_eq_next h
  cases hk
  exact running_of_andThen_unlessFaulted hp

/-- A graph's advance that is done is one sample through it, on a block that is not FAULTED after. -/
theorem advanceGraph_eq_next {g : Graph} {x y : Scalar} (h : advanceGraph g x s = .next (t, y)) :
    runGraph g x s = .next (t, y) ∧ t.faulted = false := by
  obtain ⟨-, -, hp⟩ := constructed_eq_next h
  obtain ⟨_, _, hrun, hu⟩ := andThen_eq_next hp
  obtain ⟨rfl, rfl, hf⟩ := unlessFaulted_eq_next hu
  exact ⟨hrun, hf⟩

theorem running_of_mimoProcess {m : Mimo} {sources : List (List Scalar)} {sinks ks : List Sink} {n : Nat}
    (h : mimoProcess m sources sinks n s = .next (t, ks)) : t.faulted = false := by
  have hdriver := Mimo.checked_eq_next h
  split at hdriver
  · cases hdriver
  · cases sources with
    | nil => cases hdriver
    | cons => exact running_of_andThen_unlessFaulted hdriver

theorem running_of_mimoAdvance {m : Mimo} {x ys : List Scalar} (h : mimoAdvance m x s = .next (t, ys)) :
    t.faulted = false := by
  have hvector := Mimo.checked_eq_next h
  split at hvector
  · cases hvector
  · exact running_of_andThen_unlessFaulted hvector

end

/-! ### Bounded sinks (R191, R219) -/

/-- The inputs, one after another through `one` from the state `s`, are answered by these outputs and leave `t`. -/
inductive Answered {α : Type} (one : α → State → HostOutcome Scalar) : List α → List Scalar → State → State → Prop
  | nil (s : State) : Answered one [] [] s s
  | cons {x : α} {y : Scalar} {xs : List α} {ys : List Scalar} {s u t : State} (first : one x s = .next (u, y))
      (rest : Answered one xs ys u t) : Answered one (x :: xs) (y :: ys) s t

section
variable {α : Type} {one : α → State → HostOutcome Scalar} {xs : List α} {ys : List Scalar} {s t : State} {c : Nat}

/-- What an unbounded sink has received are the outputs of the inputs. -/
theorem answered_of_drain {items : List Scalar} {k : Sink}
    (h : drain one xs { capacity := none, items := items } s = .next (t, k)) :
    ∃ ys, k = { capacity := none, items := items ++ ys } ∧ Answered one xs ys s t := by
  induction xs generalizing items s with
  | nil =>
    cases h
    exact ⟨[], by rw [List.append_nil], .nil _⟩
  | cons x xs ih =>
    obtain ⟨u, y, first, h⟩ := andThen_eq_next h
    obtain ⟨ys, rfl, rest⟩ := ih h
    exact ⟨y :: ys, by rw [List.append_assoc, List.singleton_append], .cons first rest⟩

theorem length_snoc_add (items ys : List Scalar) (y : Scalar) :
    (items ++ [y]).length + ys.length = items.length + (y :: ys).length := by
  rw [List.length_append, List.length_singleton, List.length_cons, Nat.add_assoc, Nat.add_comm 1]

/-- A bounded sink with room for the outputs receives them. -/
theorem Answered.drain_of_room (h : Answered one xs ys s t) {items : List Scalar}
    (room : items.length + ys.length ≤ c) :
    drain one xs { capacity := some c, items := items } s =
      .next (t, { capacity := some c, items := items ++ ys }) := by
  induction h generalizing items with
  | nil => rw [List.append_nil, drain_nil]
  | @cons x y xs ys _ _ _ first rest ih =>
    have hlt : items.length < c := by
      rw [List.length_cons] at room
      omega
    rw [drain_cons one xs first (writeNext_of_room y hlt), ih (length_snoc_add items ys y ▸ room), List.append_assoc,
      List.singleton_append]

/-- A bounded sink without room for all the outputs fails the run, at the first that it has no room for. -/
theorem Answered.drain_of_full (h : Answered one xs ys s t) {items : List Scalar} (hitems : items.length ≤ c)
    (full : c < items.length + ys.length) :
    ∃ e, drain one xs { capacity := some c, items := items } s = .failed e .sinkOverflow := by
  induction h generalizing items with
  | nil => exact absurd full (Nat.not_lt.mpr hitems)
  | @cons x y xs ys _ u _ first rest ih =>
    by_cases hlt : items.length < c
    · rw [drain_cons one xs first (writeNext_of_room y hlt)]
      exact ih (by rwa [List.length_append]) (length_snoc_add items ys y ▸ full)
    · refine ⟨u, ?_⟩
      rw [drain, first, andThen_next, writeNext_of_full y (Nat.not_lt.mp hlt)]

/-- What a `process` that is done has put through its unit. -/
theorem answered_of_process {kind : AdvKind} {slot n : Nat} {xs : List Scalar}
    (h : process kind slot xs n s = .next (t, ys)) :
    Answered (oneSample kind slot) (withFlush xs n) ys s t ∧ t.faulted = false := by
  obtain ⟨_, _, hsink, hk⟩ := andThen_eq_next (process_eq kind slot xs n s ▸ h)
  cases hk
  obtain ⟨_, _, hdrain, hu⟩ := andThen_eq_next hsink
  obtain ⟨rfl, rfl, hf⟩ := unlessFaulted_eq_next hu
  obtain ⟨_, rfl, answered⟩ := answered_of_drain hdrain
  exact ⟨answered, hf⟩

end

/-! ### Freeverb (R197, R198) -/

/-- The filter of freeverb could be constructed, and no unit of it stands twice. -/
theorem freeverbMimo_checked {α : Type} (f : Freeverb) (s : State) (p : HostOutcome α) :
    (freeverbMimo f).checked s p = p :=
  have hconfigured : allConfigured [freeverbGraph 0, freeverbGraph 12] = true := by decide
  have hslots : (slotsOf [freeverbGraph 0, freeverbGraph 12]).Nodup := by decide
  Mimo.checked_of_ok (m := freeverbMimo f) p rfl rfl hconfigured hslots

theorem freeverbMimo_mix (f : Freeverb) (ar : Arith) (xl xr ul ur : Scalar) :
    (freeverbMimo f).mix ar [xl, xr] [ul, ur] =
      [sadd ar (smul ar f.dry xl) (sadd ar (smul ar f.wet1 ul) (smul ar f.wet2 ur)),
       sadd ar (smul ar f.dry xr) (sadd ar (smul ar f.wet2 ul) (smul ar f.wet1 ur))] := rfl

theorem advanceChannels_pair {gl gr : Graph} {xl xr ul ur : Scalar} {s s1 s2 : State}
    (hl : runGraph gl xl s = .next (s1, ul)) (hr : runGraph gr xr s1 = .next (s2, ur)) :
    advanceChannels [gl, gr] [xl, xr] s = .next (s2, [ul, ur]) := by
  simp [advanceChannels, hl, hr]

end Sys2Proof.Machine

open Sys2Proof Sys2Proof.Machine

/-- Settles O57: the two channels are the two advances, on a block that is not FAULTED after. -/
theorem freeverbSampleMixesTheChannels : Obligations.FreeverbSampleMixesTheChannels := by
  unfold Obligations.FreeverbSampleMixesTheChannels
  intro f xl xr ul ur s s1 s2 hleft hright
  obtain ⟨hl, -⟩ := advanceGraph_eq_next hleft
  obtain ⟨hr, hf⟩ := advanceGraph_eq_next hright
  have hchannels : advanceChannels (freeverbMimo f).filters [xl, xr] s = .next (s2, [ul, ur]) :=
    advanceChannels_pair hl hr
  have hlength : ¬[xl, xr].length ≠ (freeverbMimo f).filters.length := not_not_intro rfl
  rw [mimoAdvance, freeverbMimo_checked, if_neg hlength, hchannels, andThen_next, unlessFaulted_of_running _ hf,
    freeverbMimo_mix]

/-- Settles O59: `constructed` finds a violation first, and a graph without one never fails by it, by recursion over
the graph. -/
theorem misconfiguredGraphsFailBeforeAnyCommand : Obligations.MisconfiguredGraphsFailBeforeAnyCommand := by
  unfold Obligations.MisconfiguredGraphsFailBeforeAnyCommand
  refine ⟨fun g x s h => ?_, fun g x s t h => ?_, fun m s hsquare h => ⟨fun x => ?_, fun sources sinks n => ?_⟩⟩
  · exact constructed_of_violation s _ ((allConfigured_singleton g).trans h)
  · exact constructed_neverMisconfigured ((allConfigured_singleton g).trans h)
      ((runGraph_neverMisconfigured g h x s).andThen unlessFaulted_neverMisconfigured) t
  · exact Mimo.checked_of_violation _ hsquare h
  · exact Mimo.checked_of_violation _ hsquare h

/-- Settles O60: every procedure ends by asking whether the block is FAULTED; a bounded sink is written the outputs that
the unbounded one of `process` received. -/
theorem hostRunsFailOnAFaultOrAFullSink : Obligations.HostRunsFailOnAFaultOrAFullSink := by
  unfold Obligations.HostRunsFailOnAFaultOrAFullSink
  refine ⟨fun _ _ _ _ _ _ _ => running_of_items, fun _ _ _ _ _ _ _ => running_of_items,
    fun _ _ _ _ _ h => (advanceGraph_eq_next h).2, fun _ _ _ _ _ => running_of_mimoAdvance,
    fun _ _ _ _ _ _ _ => running_of_mimoProcess, fun kind slot xs n s t ys c items h => ?_⟩
  obtain ⟨answered, hf⟩ := answered_of_process h
  refine ⟨fun room => ?_, fun hitems full => ?_⟩
  · rw [processTo, answered.drain_of_room room, andThen_next, unlessFaulted_of_running _ hf]
  · obtain ⟨e, he⟩ := answered.drain_of_full hitems full
    exact ⟨e, by rw [processTo, he, andThen_failed]⟩

end
